-- ==== Sys2Proof/Word.lean ====
section
/-! DEFINITION. The word types of the core (00_scope.md R9, R11; 30_encoding.md R100) and the names of its lines and engines. -/

namespace Sys2Proof

/-- A byte of a message or reply (00_scope.md R10). -/
abbrev Byte := BitVec 8

/-- A 32-bit register or host data word (00_scope.md R9). -/
abbrev Word := BitVec 32

/-- A host byte address (20_memory.md R80). -/
abbrev HostAddr := BitVec 16

/-- A micro-operation code within one engine, the value of PHASE (30_encoding.md R101). -/
abbrev PhaseCode := BitVec 4

/-- A bit index, 7 down to 0 (10_state.md R34). -/
abbrev BitIndex := BitVec 3

/-- A micro-operation word (30_encoding.md R101). -/
abbrev Mow := BitVec 5

/-- A host transaction word (30_encoding.md R102). -/
abbrev Htw := BitVec 49

/-- The three lines (10_state.md R31). -/
inductive Line where
  | clk
  | mo
  | so
deriving DecidableEq, Repr, Inhabited

/-- The two engines (60_exceptions.md R248). -/
inductive Engine where
  | master
  | slave
deriving DecidableEq, Repr, Inhabited

end Sys2Proof
end

