-- ==== Sys2Proof/Syntax.lean ====
section
/-! DEFINITION. The instructions: one constructor per row of spec/opcode_table.json, with the operands its rule names. Micro-operations have no operand field (30_encoding.md R101, R106); host operations carry the fields of R108 and the operands of 42_host_interface.md. -/

namespace Sys2Proof

inductive Instr where
  -- master micro-operations (30_encoding.md R103)
  | mIdle
  | mAcquire
  | mLoad
  | mDriveMo
  | mWaitSetup
  | mClkHi
  | mWaitHigh
  | mClkLo
  | mWaitLow
  | mWaitSettle
  | mSample
  | mNextBit
  | mReport
  -- slave micro-operations (30_encoding.md R104)
  | sIdle
  | sAcquire
  | sInitial
  | sAwaitEdge
  | sRetry
  | sSample
  | sDriveNext
  | sStabilize
  | sByteComplete
  -- host operations (30_encoding.md R108)
  | hRd (addr : HostAddr)
  | hWrMStop
  | hWrMStart
  | hWrSStop
  | hWrSStart
  | hWrMMsgLen (n : Word)
  | hWrSReplyLen (n : Word)
  | hWrTpBitPeriod (p : Word)
  | hWrTpSampleSettle (e : Word)
  | hWrTpStabilize (d : Word)
  | hWrTpEdgeWait (w : Word)
  | hWrMMsg (i : BitVec 10) (v : Byte)
  | hWrSReply (i : BitVec 10) (v : Byte)
  | hWrIgnored (addr : HostAddr) (data : Word)
deriving DecidableEq, Repr

end Sys2Proof
end

