-- ==== Sys2Proof/WellFormed.lean ====
section
/-! DEFINITION. Which instructions are well formed: an H.WR_IGNORED is a write that rows 2 to 13 of 30_encoding.md R108 leave (42_host_interface.md R198); every other instruction is well formed with any operands. -/

namespace Sys2Proof

/-- A write of `data` to `addr` that no row 2 to 13 of R108 selects.
The clauses are the rows' patterns: a control write with both bits 0, a write outside the writable registers, and a write outside the aligned entries of the two windows. -/
def isIgnoredWrite (addr : HostAddr) (data : Word) : Bool :=
  (!(addr == 0x0000#16 || addr == 0x0100#16) || data.extractLsb' 0 2 == 0#2)
  && !(addr == 0x0008#16 || addr == 0x0108#16)
  && !(addr == 0x0200#16 || addr == 0x020C#16 || addr == 0x0210#16 || addr == 0x0214#16)
  && !((addr.extractLsb' 12 4 == 1#4 || addr.extractLsb' 12 4 == 2#4) && addr.extractLsb' 0 2 == 0#2)

/-- Well-formedness of an instruction. -/
def Instr.wellFormed : Instr → Bool
  | .mIdle | .mAcquire | .mLoad | .mDriveMo | .mWaitSetup | .mClkHi | .mWaitHigh | .mClkLo | .mWaitLow
  | .mWaitSettle | .mSample | .mNextBit | .mReport => true
  | .sIdle | .sAcquire | .sInitial | .sAwaitEdge | .sRetry | .sSample | .sDriveNext | .sStabilize
  | .sByteComplete => true
  | .hRd _ | .hWrMStop | .hWrMStart | .hWrSStop | .hWrSStart => true
  | .hWrMMsgLen _ | .hWrSReplyLen _ | .hWrTpBitPeriod _ | .hWrTpSampleSettle _ | .hWrTpStabilize _
  | .hWrTpEdgeWait _ => true
  | .hWrMMsg _ _ | .hWrSReply _ _ => true
  | .hWrIgnored addr data => isIgnoredWrite addr data

end Sys2Proof
end

