-- ==== Sys2Proof/Decode.lean ====
section
/-! DEFINITION. Micro-operation codes (30_encoding.md R103, R104), register addresses (10_state.md R58), the decoder of both forms (R101, R102, R105, R108), the encoder, and the pseudo-instructions (R111). -/

namespace Sys2Proof

/-! ## Micro-operation codes, R103 and R104 -/

abbrev MPhase.idle : PhaseCode := 0x0#4
abbrev MPhase.acquire : PhaseCode := 0x1#4
abbrev MPhase.load : PhaseCode := 0x2#4
abbrev MPhase.driveMo : PhaseCode := 0x3#4
abbrev MPhase.waitSetup : PhaseCode := 0x4#4
abbrev MPhase.clkHi : PhaseCode := 0x5#4
abbrev MPhase.waitHigh : PhaseCode := 0x6#4
abbrev MPhase.clkLo : PhaseCode := 0x7#4
abbrev MPhase.waitLow : PhaseCode := 0x8#4
abbrev MPhase.waitSettle : PhaseCode := 0x9#4
abbrev MPhase.sample : PhaseCode := 0xA#4
abbrev MPhase.nextBit : PhaseCode := 0xB#4
abbrev MPhase.report : PhaseCode := 0xC#4

abbrev SPhase.idle : PhaseCode := 0x0#4
abbrev SPhase.acquire : PhaseCode := 0x1#4
abbrev SPhase.initial : PhaseCode := 0x2#4
abbrev SPhase.awaitEdge : PhaseCode := 0x3#4
abbrev SPhase.retry : PhaseCode := 0x4#4
abbrev SPhase.sample : PhaseCode := 0x5#4
abbrev SPhase.driveNext : PhaseCode := 0x6#4
abbrev SPhase.stabilize : PhaseCode := 0x7#4
abbrev SPhase.byteComplete : PhaseCode := 0x8#4

/-! ## Register addresses, 10_state.md R58 -/

abbrev Addr.mCtrl : HostAddr := 0x0000#16
abbrev Addr.mStatus : HostAddr := 0x0004#16
abbrev Addr.mMsgLen : HostAddr := 0x0008#16
abbrev Addr.mCursor : HostAddr := 0x000C#16
abbrev Addr.mTx : HostAddr := 0x0010#16
abbrev Addr.mRx : HostAddr := 0x0014#16
abbrev Addr.sCtrl : HostAddr := 0x0100#16
abbrev Addr.sStatus : HostAddr := 0x0104#16
abbrev Addr.sReplyLen : HostAddr := 0x0108#16
abbrev Addr.sCursor : HostAddr := 0x010C#16
abbrev Addr.sTx : HostAddr := 0x0110#16
abbrev Addr.sRx : HostAddr := 0x0114#16
abbrev Addr.tpBitPeriod : HostAddr := 0x0200#16
abbrev Addr.tpQuarter : HostAddr := 0x0204#16
abbrev Addr.tpHalf : HostAddr := 0x0208#16
abbrev Addr.tpSampleSettle : HostAddr := 0x020C#16
abbrev Addr.tpStabilize : HostAddr := 0x0210#16
abbrev Addr.tpEdgeWait : HostAddr := 0x0214#16
abbrev Addr.lines : HostAddr := 0x0300#16

/-- The window an address lies in, ADDR[15:12]: 1 for the message, 2 for the reply (R108 rows 12, 13). -/
def addrWindow (a : HostAddr) : BitVec 4 := a.extractLsb' 12 4

/-- The entry index a buffer address carries, ADDR[11:2] (R107). -/
def addrIndex (a : HostAddr) : BitVec 10 := a.extractLsb' 2 10

/-- Whether a host address is aligned, a[1:0] = 0 (20_memory.md R82). -/
def addrAligned (a : HostAddr) : Bool := a.extractLsb' 0 2 == 0#2

/-- The host address of entry `i` of the message, 0x1000 + 4i. -/
def msgAddr (i : BitVec 10) : HostAddr := 1#4 ++ i ++ 0#2

/-- The host address of entry `i` of the reply, 0x2000 + 4i. -/
def replyAddr (i : BitVec 10) : HostAddr := 2#4 ++ i ++ 0#2

/-! ## The decoder -/

/-- Why a word does not decode. -/
inductive DecodeError where
  /-- Master codes 0xD to 0xF (R105). -/
  | reservedMasterCode (code : PhaseCode)
  /-- Slave codes 0x9 to 0xF (R105). -/
  | reservedSlaveCode (code : PhaseCode)
deriving DecidableEq, Repr

/-- The master micro-operation of a code (R103). -/
def decodeMaster (code : PhaseCode) : Except DecodeError Instr :=
  match code.toNat with
  | 0x0 => .ok .mIdle
  | 0x1 => .ok .mAcquire
  | 0x2 => .ok .mLoad
  | 0x3 => .ok .mDriveMo
  | 0x4 => .ok .mWaitSetup
  | 0x5 => .ok .mClkHi
  | 0x6 => .ok .mWaitHigh
  | 0x7 => .ok .mClkLo
  | 0x8 => .ok .mWaitLow
  | 0x9 => .ok .mWaitSettle
  | 0xA => .ok .mSample
  | 0xB => .ok .mNextBit
  | 0xC => .ok .mReport
  | _ => .error (.reservedMasterCode code)

/-- The slave micro-operation of a code (R104). -/
def decodeSlave (code : PhaseCode) : Except DecodeError Instr :=
  match code.toNat with
  | 0x0 => .ok .sIdle
  | 0x1 => .ok .sAcquire
  | 0x2 => .ok .sInitial
  | 0x3 => .ok .sAwaitEdge
  | 0x4 => .ok .sRetry
  | 0x5 => .ok .sSample
  | 0x6 => .ok .sDriveNext
  | 0x7 => .ok .sStabilize
  | 0x8 => .ok .sByteComplete
  | _ => .error (.reservedSlaveCode code)

/-- The micro-operation a MOW names (R101, R103 to R105). -/
def decodeMow (w : Mow) : Except DecodeError Instr :=
  if w.extractLsb' 4 1 == 0#1 then decodeMaster (w.extractLsb' 0 4) else decodeSlave (w.extractLsb' 0 4)

/-- The write operation that `addr` and `data` select: rows 2 to 14 of R108 in table order. -/
def decodeWrite (addr : HostAddr) (data : Word) : Instr :=
  if addr == Addr.mCtrl && data.extractLsb' 1 1 == 1#1 then .hWrMStop
  else if addr == Addr.mCtrl && data.extractLsb' 0 1 == 1#1 then .hWrMStart
  else if addr == Addr.sCtrl && data.extractLsb' 1 1 == 1#1 then .hWrSStop
  else if addr == Addr.sCtrl && data.extractLsb' 0 1 == 1#1 then .hWrSStart
  else if addr == Addr.mMsgLen then .hWrMMsgLen data
  else if addr == Addr.sReplyLen then .hWrSReplyLen data
  else if addr == Addr.tpBitPeriod then .hWrTpBitPeriod data
  else if addr == Addr.tpSampleSettle then .hWrTpSampleSettle data
  else if addr == Addr.tpStabilize then .hWrTpStabilize data
  else if addr == Addr.tpEdgeWait then .hWrTpEdgeWait data
  else if addrWindow addr == 1#4 && addrAligned addr then .hWrMMsg (addrIndex addr) (data.extractLsb' 0 8)
  else if addrWindow addr == 2#4 && addrAligned addr then .hWrSReply (addrIndex addr) (data.extractLsb' 0 8)
  else .hWrIgnored addr data

/-- The host operation an HTW names: R102's fields, then R108. Every HTW names one (R109). -/
def decodeHtw (w : Htw) : Instr :=
  if w.extractLsb' 48 1 == 0#1 then .hRd (w.extractLsb' 32 16)
  else decodeWrite (w.extractLsb' 32 16) (w.extractLsb' 0 32)

/-- A word of one of the two forms (R100); the form is known from the context. -/
inductive Encoded where
  | mow (w : Mow)
  | htw (w : Htw)
deriving DecidableEq, Repr

/-- The instruction a word of either form names. -/
def decode : Encoded → Except DecodeError Instr
  | .mow w => decodeMow w
  | .htw w => .ok (decodeHtw w)

/-- The word of a numbered table row: rows of up to 8 bits are MOWs and longer ones HTWs (log 20); bits above the form's width must be 0. -/
def tableWord (nbits w : Nat) : Option Encoded :=
  if nbits ≤ 8 then
    if w < 2 ^ 5 then some (.mow (BitVec.ofNat 5 w)) else none
  else
    if w < 2 ^ 49 then some (.htw (BitVec.ofNat 49 w)) else none

/-- The instruction the decoder reads from a word numbered as spec/opcode_table.json numbers it. -/
def decodeTableWord (nbits w : Nat) : Option Instr :=
  match tableWord nbits w with
  | some e => (decode e).toOption
  | none => none

/-! ## The encoder -/

/-- The MOW with these fields (R101). -/
def mowOf (engine : BitVec 1) (code : PhaseCode) : Mow := engine ++ code

/-- The HTW with these fields (R102). -/
def htwOf (wr : BitVec 1) (addr : HostAddr) (data : Word) : Htw := wr ++ addr ++ data

/-- A host write. -/
def writeOf (addr : HostAddr) (data : Word) : Encoded := .htw (htwOf 1#1 addr data)

/-- The word of an instruction, from R101 to R104 and R108.
Bits the row ignores are written 0: R102 says so for a read's DATA, and the same is taken for the others (log 7). -/
def encode : Instr → Encoded
  | .mIdle => .mow (mowOf 0#1 MPhase.idle)
  | .mAcquire => .mow (mowOf 0#1 MPhase.acquire)
  | .mLoad => .mow (mowOf 0#1 MPhase.load)
  | .mDriveMo => .mow (mowOf 0#1 MPhase.driveMo)
  | .mWaitSetup => .mow (mowOf 0#1 MPhase.waitSetup)
  | .mClkHi => .mow (mowOf 0#1 MPhase.clkHi)
  | .mWaitHigh => .mow (mowOf 0#1 MPhase.waitHigh)
  | .mClkLo => .mow (mowOf 0#1 MPhase.clkLo)
  | .mWaitLow => .mow (mowOf 0#1 MPhase.waitLow)
  | .mWaitSettle => .mow (mowOf 0#1 MPhase.waitSettle)
  | .mSample => .mow (mowOf 0#1 MPhase.sample)
  | .mNextBit => .mow (mowOf 0#1 MPhase.nextBit)
  | .mReport => .mow (mowOf 0#1 MPhase.report)
  | .sIdle => .mow (mowOf 1#1 SPhase.idle)
  | .sAcquire => .mow (mowOf 1#1 SPhase.acquire)
  | .sInitial => .mow (mowOf 1#1 SPhase.initial)
  | .sAwaitEdge => .mow (mowOf 1#1 SPhase.awaitEdge)
  | .sRetry => .mow (mowOf 1#1 SPhase.retry)
  | .sSample => .mow (mowOf 1#1 SPhase.sample)
  | .sDriveNext => .mow (mowOf 1#1 SPhase.driveNext)
  | .sStabilize => .mow (mowOf 1#1 SPhase.stabilize)
  | .sByteComplete => .mow (mowOf 1#1 SPhase.byteComplete)
  | .hRd addr => .htw (htwOf 0#1 addr 0#32)
  | .hWrMStop => writeOf Addr.mCtrl 2#32
  | .hWrMStart => writeOf Addr.mCtrl 1#32
  | .hWrSStop => writeOf Addr.sCtrl 2#32
  | .hWrSStart => writeOf Addr.sCtrl 1#32
  | .hWrMMsgLen n => writeOf Addr.mMsgLen n
  | .hWrSReplyLen n => writeOf Addr.sReplyLen n
  | .hWrTpBitPeriod p => writeOf Addr.tpBitPeriod p
  | .hWrTpSampleSettle e => writeOf Addr.tpSampleSettle e
  | .hWrTpStabilize d => writeOf Addr.tpStabilize d
  | .hWrTpEdgeWait w => writeOf Addr.tpEdgeWait w
  | .hWrMMsg i v => writeOf (msgAddr i) (v.setWidth 32)
  | .hWrSReply i v => writeOf (replyAddr i) (v.setWidth 32)
  | .hWrIgnored addr data => writeOf addr data

/-! ## Assembly, R110 and R111 -/

/-- The pseudo-instructions of R111; `poll` is one round of its loop, which the host repeats. -/
inductive Pseudo where
  | startM
  | stopM
  | startS
  | stopS
  | setTp (p e s w : Word)
  | loadMsg (bytes : List Byte)
  | loadReply (bytes : List Byte)
  | pollOnce (reg : HostAddr)
deriving DecidableEq, Repr

/-- `wr` of each byte to consecutive entries of a buffer, starting at entry `i`. -/
def writeBytes (window : BitVec 10 → HostAddr) (i : Nat) : List Byte → List Encoded
  | [] => []
  | b :: bs => writeOf (window (BitVec.ofNat 10 i)) (b.setWidth 32) :: writeBytes window (i + 1) bs

/-- The expansion of a pseudo-instruction (R111). -/
def Pseudo.expand : Pseudo → List Encoded
  | .startM => [writeOf Addr.mCtrl 1#32]
  | .stopM => [writeOf Addr.mCtrl 2#32]
  | .startS => [writeOf Addr.sCtrl 1#32]
  | .stopS => [writeOf Addr.sCtrl 2#32]
  | .setTp p e s w =>
    [writeOf Addr.tpBitPeriod p, writeOf Addr.tpSampleSettle e, writeOf Addr.tpStabilize s,
      writeOf Addr.tpEdgeWait w]
  | .loadMsg bytes => writeBytes msgAddr 0 bytes ++ [writeOf Addr.mMsgLen (BitVec.ofNat 32 bytes.length)]
  | .loadReply bytes => writeBytes replyAddr 0 bytes ++ [writeOf Addr.sReplyLen (BitVec.ofNat 32 bytes.length)]
  | .pollOnce reg => [.htw (htwOf 0#1 reg 0#32)]

/-- Whether the loop of `poll reg, mask, value` ends on a returned word (R111). -/
def pollDone (mask value returned : Word) : Bool := (returned &&& mask) == value

/-- The name an instruction has in assembly and in spec/opcode_table.json (R110). -/
def Instr.mnemonic : Instr → String
  | .mIdle => "M.IDLE"
  | .mAcquire => "M.ACQUIRE"
  | .mLoad => "M.LOAD"
  | .mDriveMo => "M.DRIVE_MO"
  | .mWaitSetup => "M.WAIT_SETUP"
  | .mClkHi => "M.CLK_HI"
  | .mWaitHigh => "M.WAIT_HIGH"
  | .mClkLo => "M.CLK_LO"
  | .mWaitLow => "M.WAIT_LOW"
  | .mWaitSettle => "M.WAIT_SETTLE"
  | .mSample => "M.SAMPLE"
  | .mNextBit => "M.NEXT_BIT"
  | .mReport => "M.REPORT"
  | .sIdle => "S.IDLE"
  | .sAcquire => "S.ACQUIRE"
  | .sInitial => "S.INITIAL"
  | .sAwaitEdge => "S.AWAIT_EDGE"
  | .sRetry => "S.RETRY"
  | .sSample => "S.SAMPLE"
  | .sDriveNext => "S.DRIVE_NEXT"
  | .sStabilize => "S.STABILIZE"
  | .sByteComplete => "S.BYTE_COMPLETE"
  | .hRd _ => "H.RD"
  | .hWrMStop => "H.WR_M_STOP"
  | .hWrMStart => "H.WR_M_START"
  | .hWrSStop => "H.WR_S_STOP"
  | .hWrSStart => "H.WR_S_START"
  | .hWrMMsgLen _ => "H.WR_M_MSG_LEN"
  | .hWrSReplyLen _ => "H.WR_S_REPLY_LEN"
  | .hWrTpBitPeriod _ => "H.WR_TP_BIT_PERIOD"
  | .hWrTpSampleSettle _ => "H.WR_TP_SAMPLE_SETTLE"
  | .hWrTpStabilize _ => "H.WR_TP_STABILIZE"
  | .hWrTpEdgeWait _ => "H.WR_TP_EDGE_WAIT"
  | .hWrMMsg _ _ => "H.WR_M_MSG"
  | .hWrSReply _ _ => "H.WR_S_REPLY"
  | .hWrIgnored _ _ => "H.WR_IGNORED"

/-! ## Which agent's instruction it is (20_memory.md R85) -/

/-- A master micro-operation (R103). -/
def Instr.isMasterOp : Instr → Bool
  | .mIdle | .mAcquire | .mLoad | .mDriveMo | .mWaitSetup | .mClkHi | .mWaitHigh | .mClkLo | .mWaitLow
  | .mWaitSettle | .mSample | .mNextBit | .mReport => true
  | .sIdle | .sAcquire | .sInitial | .sAwaitEdge | .sRetry | .sSample | .sDriveNext | .sStabilize
  | .sByteComplete => false
  | .hRd _ | .hWrMStop | .hWrMStart | .hWrSStop | .hWrSStart => false
  | .hWrMMsgLen _ | .hWrSReplyLen _ | .hWrTpBitPeriod _ | .hWrTpSampleSettle _ | .hWrTpStabilize _
  | .hWrTpEdgeWait _ => false
  | .hWrMMsg _ _ | .hWrSReply _ _ | .hWrIgnored _ _ => false

/-- A slave micro-operation (R104). -/
def Instr.isSlaveOp : Instr → Bool
  | .mIdle | .mAcquire | .mLoad | .mDriveMo | .mWaitSetup | .mClkHi | .mWaitHigh | .mClkLo | .mWaitLow
  | .mWaitSettle | .mSample | .mNextBit | .mReport => false
  | .sIdle | .sAcquire | .sInitial | .sAwaitEdge | .sRetry | .sSample | .sDriveNext | .sStabilize
  | .sByteComplete => true
  | .hRd _ | .hWrMStop | .hWrMStart | .hWrSStop | .hWrSStart => false
  | .hWrMMsgLen _ | .hWrSReplyLen _ | .hWrTpBitPeriod _ | .hWrTpSampleSettle _ | .hWrTpStabilize _
  | .hWrTpEdgeWait _ => false
  | .hWrMMsg _ _ | .hWrSReply _ _ | .hWrIgnored _ _ => false

/-- A host operation (R108). -/
def Instr.isHostOp (i : Instr) : Bool := !i.isMasterOp && !i.isSlaveOp

end Sys2Proof
end

