-- ==== Sys2Proof/Config.lean ====
section
/-! DEFINITION. The implementation parameters (00_scope.md R9), the choices the agents and the environment make (20_memory.md R86, R90), and the free values: constants without a body, of which nothing can be proved. -/

namespace Sys2Proof

/-- The parameters of 00_scope.md R9, in its order.
They are arguments of the model; the field `cfg` of State carries them and no step changes it (log 3). -/
structure Params where
  /-- TICK: the real time of one tick, in nanoseconds; no rule reads it (log 4). -/
  tick : Nat
  /-- LAT_MIN. -/
  latMin : Nat
  /-- LAT_MAX, `none` for ∞. -/
  latMax : Option Nat
  /-- M_JITTER_MAX. -/
  jitterMax : Nat
  /-- MSG_CAP. -/
  msgCap : Nat
  /-- REPLY_CAP. -/
  replyCap : Nat
  /-- TP_RESET_BIT_PERIOD. -/
  tpResetBitPeriod : Word
  /-- TP_RESET_SAMPLE_SETTLE. -/
  tpResetSampleSettle : Word
  /-- TP_RESET_STABILIZE. -/
  tpResetStabilize : Word
  /-- TP_RESET_EDGE_WAIT. -/
  tpResetEdgeWait : Word
  /-- SETUP_FAULTS. -/
  setupFaults : Bool
  /-- IO_FAULTS. -/
  ioFaults : Bool
  /-- LINE_GLITCH. -/
  lineGlitch : Bool
deriving DecidableEq, Repr

/-- The bounds 00_scope.md R9 puts on the parameters: LAT_MIN ≤ LAT_MAX, and both capacities in 1..1024. -/
abbrev Params.Legal (p : Params) : Prop :=
  (∀ x ∈ p.latMax, p.latMin ≤ x) ∧ (1 ≤ p.msgCap ∧ p.msgCap ≤ 1024) ∧ (1 ≤ p.replyCap ∧ p.replyCap ≤ 1024)

/-- Which of the two actions of S.AWAIT_EDGE is meant (41_slave.md R163). -/
inductive Completion where
  | edge
  | timeout
deriving DecidableEq, Repr, Inhabited

/-- Whose action comes next (20_memory.md R85, R87). -/
inductive Turn where
  /-- The master's micro-operation at M.PHASE. -/
  | master
  /-- The slave's micro-operation at S.PHASE. -/
  | slave
  /-- One host access, with its transaction word. -/
  | host (w : Htw)
  /-- The environment's time step (R89). -/
  | time
  /-- The environment's glitch of line `l` to level `v` (R77). -/
  | glitch (l : Line) (v : Bool)
deriving DecidableEq, Repr, Inhabited

/-- One choice: whose action is next and what the environment draws for it (20_memory.md R90).
A field that the action does not draw is not read. -/
structure Choice where
  turn : Turn
  /-- Whether the line operation or acquisition fails (R90 c, d); read only under IO_FAULTS or SETUP_FAULTS. -/
  fail : Bool
  /-- The line a failing acquisition names (R90 d). -/
  failLine : Line
  /-- The jitter of a master wait entry (R90 a), cut to M_JITTER_MAX where it is read (log 23). -/
  jitter : Nat
  /-- Which completion of S.AWAIT_EDGE fires (R90 b, R163). -/
  completion : Completion
deriving DecidableEq, Repr, Inhabited

/-- LAT_MIN is OPEN (D7): a free value. -/
opaque Config.latMin : Nat
/-- LAT_MAX − LAT_MIN, `none` for LAT_MAX = ∞; OPEN (D7): a free value. -/
opaque Config.latSpan : Option Nat
/-- MSG_CAP − 1, so that MSG_CAP is in 1..1024; OPEN (D19): a free value. -/
opaque Config.msgCapPred : Fin 1024
/-- REPLY_CAP − 1, so that REPLY_CAP is in 1..1024; OPEN (D19): a free value. -/
opaque Config.replyCapPred : Fin 1024
/-- TICK is OPEN (D2): a free value (log 4). -/
opaque Config.tick : Nat
/-- TP_RESET_BIT_PERIOD is OPEN (D22): a free value. -/
opaque Config.tpResetBitPeriod : Word
/-- TP_RESET_SAMPLE_SETTLE is OPEN (D22): a free value. -/
opaque Config.tpResetSampleSettle : Word
/-- TP_RESET_STABILIZE is OPEN (D22): a free value. -/
opaque Config.tpResetStabilize : Word
/-- TP_RESET_EDGE_WAIT is OPEN (D22): a free value. -/
opaque Config.tpResetEdgeWait : Word

/-- The parameters of this hardware: the defaults the spec states (M_JITTER_MAX = 0, D8; the three flags false, D10 to D12), and a free value for each OPEN one (log 3). -/
def Config.params : Params where
  tick := Config.tick
  latMin := Config.latMin
  latMax := Config.latSpan.map (Config.latMin + ·)
  jitterMax := 0
  msgCap := Config.msgCapPred.val + 1
  replyCap := Config.replyCapPred.val + 1
  tpResetBitPeriod := Config.tpResetBitPeriod
  tpResetSampleSettle := Config.tpResetSampleSettle
  tpResetStabilize := Config.tpResetStabilize
  tpResetEdgeWait := Config.tpResetEdgeWait
  setupFaults := false
  ioFaults := false
  lineGlitch := false

/-- The choice of action number `n` when the script is used up: free (log 1). -/
opaque Config.freeChoice : Nat → Choice

/-- What a host read of an unwritten buffer entry returns, per engine, entry and action number: free, and drawn anew at every read (93_implementation_defined.md I5; log 5). -/
opaque Config.unwrittenByte : Engine → Nat → Nat → Byte

/-- `c mod 0`, which the spec does not state because S.REPLY_LEN ≥ 1 while the slave runs (00_scope.md R18): free, a function of the dividend (log 10). -/
opaque Config.cursorModZero : Word → Word

/-- `S.BIT − 1` at S.BIT = 0, which the spec does not state because S.DRIVE_NEXT is entered only with S.BIT ≥ 1 (41_slave.md R168): free, per action number (log 11). -/
opaque Config.bitBelowZero : Nat → BitIndex

end Sys2Proof
end

