-- ==== Sys2Proof/Machine/State.lean ====
section
/-! DEFINITION. The state of one block instance (10_state.md R30), plain data, its reset value (70_reset_and_hazards.md R261), and the ways a step can stop. -/

namespace Sys2Proof.Machine

/-- M.STATE (10_state.md R32). -/
inductive MState where
  | idle
  | running
  | done
  | fault
deriving DecidableEq, Repr

/-- S.STATE (10_state.md R42); the reserved value 2 has no constructor (93_implementation_defined.md I18; log 6). -/
inductive SState where
  | idle
  | running
  | fault
deriving DecidableEq, Repr

/-- CAUSE of an engine (60_exceptions.md R231); the reserved value 3 has no constructor (I16; log 6). -/
inductive Cause where
  | none
  | setupError
  | ioError
deriving DecidableEq, Repr

/-- A byte buffer: the entries written since reset as (index, byte) pairs, indices strictly rising.
An index that is not listed is an entry not written since reset (20_memory.md R79; log 5). -/
abbrev Memory := List Host.Cell

/-- A report record (10_state.md R52); `t` is the spec's model annotation. -/
structure Report where
  idx : Word
  tx : Byte
  rx : Byte
  t : Nat
deriving DecidableEq, Repr

/-- The levels of the three lines (R31). -/
structure Lines where
  clk : Bool
  mo : Bool
  so : Bool
deriving DecidableEq, Repr

/-- The master engine's registers (R32 to R39) and its report stream, oldest first (R52). -/
structure Master where
  state : MState
  phase : PhaseCode
  bit : BitIndex
  cursor : Word
  tx : Byte
  rx : Byte
  /-- M.TIMER, a natural number as 00_scope.md R18 asks (log 9). -/
  timer : Nat
  cause : Cause
  /-- M.FLINE, `none` for the code 3. -/
  fline : Option Line
  msgLen : Word
  msg : Memory
  reports : List Report
deriving DecidableEq, Repr

/-- The slave engine's registers (R42 to R47) and its report stream, oldest first (R52). -/
structure Slave where
  state : SState
  phase : PhaseCode
  bit : BitIndex
  cursor : Word
  tx : Byte
  rx : Byte
  timer : Word
  totimer : Word
  cause : Cause
  /-- S.FLINE, `none` for the code 3. -/
  fline : Option Line
  replyLen : Word
  reply : Memory
  edgePend : Bool
  /-- S.EDGE_T, the spec's model-only latch time (R47). -/
  edgeT : Nat
  reports : List Report
deriving DecidableEq, Repr

/-- The timing policy registers that have storage (R48, R50, R51). -/
structure Timing where
  bitPeriod : Word
  sampleSettle : Word
  stabilize : Word
  edgeWait : Word
deriving DecidableEq, Repr

/-- The ghost events of the spec's event history (R55). -/
inductive GhostEvent where
  /-- An edge lost to a full latch at tick `t` (41_slave.md R161). -/
  | edgeLost (t : Nat)
deriving DecidableEq, Repr

/-- The state of one block instance.
`rdata`, `script` and `seq` are the model's own fields (log 1, log 8). -/
structure State where
  lines : Lines
  master : Master
  slave : Slave
  tp : Timing
  /-- The tick number (20_memory.md R88). -/
  now : Nat
  /-- The event history, oldest first (R55; log 17). -/
  history : List GhostEvent
  /-- The parameters of this machine (00_scope.md R9; log 3). -/
  cfg : Params
  /-- The word the last host read returned (42_host_interface.md R191; log 8). -/
  rdata : Word
  /-- The choices of the next actions, next one first (20_memory.md R86, R90; log 1). -/
  script : List Choice
  /-- The number of actions so far, the argument of the free values (log 1). -/
  seq : Nat
deriving DecidableEq, Repr

/-- Why the model ends a run. -/
inductive Fault where
  /-- UnwrittenBuffer: engine `e`'s M.LOAD or S.INITIAL reads entry `index` of its buffer, which the host has not written since reset (20_memory.md R79, 70_reset_and_hazards.md R286).
  Safe: the hardware goes on with an unspecified byte, the model proves nothing about that run (log 5). -/
  | unwrittenBuffer (e : Engine) (index : Nat)
deriving DecidableEq, Repr

/-- Why the model gives a state no next state. -/
inductive Refusal where
  /-- An instruction without a meaning in this model; none is left. Safe: nothing is claimed about it. -/
  | notModelled (mnemonic : String)
  /-- `step` at a state whose M.PHASE is a reserved code (30_encoding.md R105). Safe: no state of the hardware holds one (log 6). -/
  | reservedMasterCode (code : PhaseCode)
  /-- `step` at a state whose S.PHASE is a reserved code (30_encoding.md R105). Safe: no state of the hardware holds one (log 6). -/
  | reservedSlaveCode (code : PhaseCode)
deriving DecidableEq, Repr

/-- What a meaning or a step answers. -/
abbrev Result := Host.Outcome State Fault Refusal

/-- The master's registers after reset (R261). -/
def Master.reset : Master where
  state := .idle
  phase := 0
  bit := 0
  cursor := 0
  tx := 0
  rx := 0
  timer := 0
  cause := .none
  fline := none
  msgLen := 0
  msg := []
  reports := []

/-- The slave's registers after reset (R261). -/
def Slave.reset : Slave where
  state := .idle
  phase := 0
  bit := 0
  cursor := 0
  tx := 0
  rx := 0
  timer := 0
  totimer := 0
  cause := .none
  fline := none
  replyLen := 0
  reply := []
  edgePend := false
  edgeT := 0
  reports := []

/-- The state after reset of a machine with parameters `p` (R261): the TP registers take the reset parameters.
The model's own fields start at `rdata` 0, no script, `seq` 0: DESIGN CHOICE (log 1, log 8). -/
def State.resetWith (p : Params) : State where
  lines := { clk := false, mo := false, so := false }
  master := Master.reset
  slave := Slave.reset
  tp :=
    { bitPeriod := p.tpResetBitPeriod
      sampleSettle := p.tpResetSampleSettle
      stabilize := p.tpResetStabilize
      edgeWait := p.tpResetEdgeWait }
  now := 0
  history := []
  cfg := p
  rdata := 0
  script := []
  seq := 0

/-- The state after reset of this hardware, with the parameters of Config (70_reset_and_hazards.md R260, R261). -/
def State.reset : State := State.resetWith Config.params

end Sys2Proof.Machine
end

