-- ==== Sys2Proof/Machine/Operands.lean ====
section
/-! DEFINITION. The core's operations on values (00_scope.md R18) and the operands of the micro-operations (30_encoding.md R106, R107). -/

namespace Sys2Proof.Machine

/-- Bit extract: `v[b]`, the source's `(byte >> b) & 1` (R18). -/
def byteBit (v : Byte) (b : BitIndex) : Bool := v.getLsbD b.toNat

/-- Bit insert: `v[b] <- x`, that is `(v & ~(1 << b)) | (x << b)`; the bit is written, not ORed (R18). -/
def setByteBit (v : Byte) (b : BitIndex) (x : Bool) : Byte :=
  (v &&& ~~~(1#8 <<< b.toNat)) ||| ((BitVec.ofBool x).setWidth 8 <<< b.toNat)

/-- `S.BIT − 1` (41_slave.md R168); at 0 the spec states no value and `n` picks a free one (log 11). -/
def bitBelow (b : BitIndex) (n : Nat) : BitIndex :=
  if b = 0#3 then Config.bitBelowZero n else b - 1#3

/-- `(S.CURSOR + 1) mod S.REPLY_LEN` (41_slave.md R170), taken on numbers so that the sum does not wrap; a free value for a modulus of 0 (log 10). -/
def cursorNext (c len : Word) : Word :=
  if len = 0#32 then Config.cursorModZero c else BitVec.ofNat 32 ((c.toNat + 1) % len.toNat)

/-- TP.QUARTER, derived at every read (10_state.md R49). -/
def Timing.quarter (tp : Timing) : Word := tp.bitPeriod / 4#32

/-- TP.HALF, derived at every read (10_state.md R49). -/
def Timing.half (tp : Timing) : Word := tp.bitPeriod / 2#32

/-- The edge-wait timeout `max(TP.EDGE_WAIT, 1)` (10_state.md R41). -/
def Timing.edgeTimeout (tp : Timing) : Word := if tp.edgeWait = 0#32 then 1#32 else tp.edgeWait

/-- The id of a line (10_state.md R31). -/
def lineCode : Line → BitVec 2
  | .clk => 0#2
  | .mo => 1#2
  | .so => 2#2

end Sys2Proof.Machine
end

