-- ==== Sys2Proof/Machine/Flags.lean ====
section
/-! DEFINITION. The status fields (10_state.md R54: the core's only flags) as the host reads them, and the assembly of the status and LINES words (42_host_interface.md R191, R192). -/

namespace Sys2Proof.Machine

/-- The value of M.STATE (10_state.md R32). -/
def mStateCode : MState → BitVec 2
  | .idle => 0#2
  | .running => 1#2
  | .done => 2#2
  | .fault => 3#2

/-- The value of S.STATE (10_state.md R42). -/
def sStateCode : SState → BitVec 2
  | .idle => 0#2
  | .running => 1#2
  | .fault => 3#2

/-- The cause code (60_exceptions.md R231). -/
def causeCode : Cause → BitVec 2
  | .none => 0#2
  | .setupError => 1#2
  | .ioError => 2#2

/-- The value of FLINE, 3 for none (10_state.md R38). -/
def flineCode : Option Line → BitVec 2
  | none => 3#2
  | some l => lineCode l

/-- The common layout of both status words (R192): [17:16] FLINE, [13:12] CAUSE, [10:8] BIT, [7:4] PHASE, [1:0] STATE, zero elsewhere. -/
def statusWord (fline cause : BitVec 2) (bit : BitIndex) (phase : PhaseCode) (state : BitVec 2) : Word :=
  (fline ++ 0#2 ++ cause ++ 0#1 ++ bit ++ phase ++ 0#2 ++ state).setWidth 32

/-- M_STATUS (R192). -/
def masterStatus (m : Master) : Word :=
  statusWord (flineCode m.fline) (causeCode m.cause) m.bit m.phase (mStateCode m.state)

/-- S_STATUS (R192): the same layout, and bit 20 is S.EDGE_PEND. -/
def slaveStatus (v : Slave) : Word :=
  statusWord (flineCode v.fline) (causeCode v.cause) v.bit v.phase (sStateCode v.state)
    ||| ((BitVec.ofBool v.edgePend).setWidth 32 <<< 20)

/-- LINES (R191): {LINE[2], LINE[1], LINE[0]}. -/
def linesWord (l : Lines) : Word :=
  (BitVec.ofBool l.so ++ BitVec.ofBool l.mo ++ BitVec.ofBool l.clk).setWidth 32

end Sys2Proof.Machine
end

