-- ==== Sys2Proof/Machine/Ops.lean ====
section
/-! DEFINITION. The named operations over buffers, lines, engines and time that the meanings call: buffer access (20_memory.md R79), line access and the edge detector (R74, R75; 41_slave.md R160), fault entry (60_exceptions.md R233) and the way out of it, `enter` (10_state.md R41), `Emit` (R52), the draws (20_memory.md R90) and the time step (R89). -/

namespace Sys2Proof.Machine

/-! ## Byte buffers -/

/-- The byte of entry `a`, `none` if it has not been written since reset. -/
def Memory.read (m : Memory) (a : Nat) : Option Byte :=
  match m with
  | [] => none
  | (b, v) :: rest => if a = b then some v else Memory.read rest a

/-- Entry `a` becomes `v`; the list stays strictly rising. -/
def Memory.write (m : Memory) (a : Nat) (v : Byte) : Memory :=
  match m with
  | [] => [(a, v)]
  | (b, w) :: rest =>
    if a < b then (a, v) :: (b, w) :: rest
    else if a = b then (a, v) :: rest
    else (b, w) :: Memory.write rest a v

/-- Every listed index is above `a`, and the list rises strictly. -/
def Memory.risesAbove (a : Nat) : Memory → Bool
  | [] => true
  | (b, _) :: rest => decide (a < b) && Memory.risesAbove b rest

/-- The canonical form: indices strictly rising. An unlisted entry has no value, so no entry can equal it. -/
def Memory.wf : Memory → Bool
  | [] => true
  | (b, _) :: rest => Memory.risesAbove b rest

/-- Every listed index is below the capacity `cap` (10_state.md R39, R46). -/
def Memory.below (cap : Nat) (m : Memory) : Bool := m.all (fun c => decide (c.1 < cap))

/-- The buffer an engine reads: M.MSG or S.REPLY. -/
def State.buffer (e : Engine) (s : State) : Memory :=
  match e with
  | .master => s.master.msg
  | .slave => s.slave.reply

/-- BufRead (20_memory.md R79): `none` for an entry not written since reset. -/
def bufRead (e : Engine) (i : Nat) (s : State) : Option Byte := (s.buffer e).read i

/-- What a host read of entry `i` returns: the byte, or a free value for an unwritten entry (42_host_interface.md R191, 93_implementation_defined.md I5; log 5). -/
def bufHostRead (e : Engine) (i : Nat) (s : State) : Byte :=
  ((s.buffer e).read i).getD (Config.unwrittenByte e i s.seq)

/-! ## The choice of the current action -/

/-- The choice of the next action: the script's first, or a free one (20_memory.md R86, R90; log 1). -/
def State.choice (s : State) : Choice :=
  match s.script with
  | c :: _ => c
  | [] => Config.freeChoice s.seq

/-- The choice is used up. -/
def State.advance (s : State) : State := { s with script := s.script.tail, seq := s.seq + 1 }

/-- A line operation of the current action fails (R74, R75, R90 c). -/
def ioFails (s : State) : Bool := s.cfg.ioFaults && s.choice.fail

/-- The acquisition of the current action fails (40_master.md R131, R90 d). -/
def setupFails (s : State) : Bool := s.cfg.setupFaults && s.choice.fail

/-- The jitter draw `j` of a master wait entry, in [0, M_JITTER_MAX] (10_state.md R41; log 23). -/
def jitter (s : State) : Nat := min s.choice.jitter s.cfg.jitterMax

/-! ## Lines -/

/-- The level of a line. -/
def Lines.get (ls : Lines) : Line → Bool
  | .clk => ls.clk
  | .mo => ls.mo
  | .so => ls.so

/-- A line takes a level. -/
def Lines.set (ls : Lines) (l : Line) (v : Bool) : Lines :=
  match l with
  | .clk => { ls with clk := v }
  | .mo => { ls with mo := v }
  | .so => { ls with so := v }

/-- EdgeDetect() (41_slave.md R160, R161). -/
def edgeDetect (s : State) : State :=
  if s.slave.state ≠ .running then s
  else if s.slave.edgePend then { s with history := s.history ++ [.edgeLost s.now] }
  else { s with slave.edgePend := true, slave.edgeT := s.now }

/-- A line goes to a level, and a rising transition of CLK runs the edge detector in the same action (20_memory.md R74, R77). -/
def driveLine (l : Line) (v : Bool) (s : State) : State :=
  let driven := { s with lines := s.lines.set l v }
  if l = .clk ∧ s.lines.clk = false ∧ v = true then edgeDetect driven else driven

/-! ## Taking an exception, and the way out of it -/

/-- Fault entry (60_exceptions.md R233): `raise K(l)` by engine `e` at the state the action began in, so the action's other writes are discarded. -/
def raise (e : Engine) (k : Cause) (l : Line) (s : State) : State :=
  match e with
  | .master => { s with master.state := .fault, master.cause := k, master.fline := some l }
  | .slave => { s with slave.state := .fault, slave.cause := k, slave.fline := some l }

/-- The master leaves any state for IDLE (42_host_interface.md R195); with `stopSlave` the only way out of FAULT during a run (60_exceptions.md R236, R243). -/
def stopMaster (s : State) : State :=
  { s with master.state := .idle, master.phase := MPhase.idle, master.cause := .none, master.fline := none,
           master.timer := 0 }

/-- The slave leaves any state for IDLE (42_host_interface.md R197). -/
def stopSlave (s : State) : State :=
  { s with slave.state := .idle, slave.phase := SPhase.idle, slave.cause := .none, slave.fline := none,
           slave.timer := 0#32, slave.totimer := 0#32, slave.edgePend := false }

/-- A line operation on `l` inside an action of engine `e`: the action's result `t`, or fault entry if the operation fails (20_memory.md R74, R75; 60_exceptions.md R233). -/
def unlessIoError (e : Engine) (l : Line) (s t : State) : State :=
  if ioFails s then raise e .ioError l s else t

/-- The acquisition at a session's start: the action's result `t`, or SetupError on the drawn line (40_master.md R131, 41_slave.md R165). -/
def unlessSetupError (e : Engine) (s t : State) : State :=
  if setupFails s then raise e .setupError s.choice.failLine s else t

/-! ## Phases -/

/-- Whether a master phase is a wait phase (30_encoding.md R103). -/
def isMasterWait (p : PhaseCode) : Bool :=
  p == MPhase.waitSetup || p == MPhase.waitHigh || p == MPhase.waitLow || p == MPhase.waitSettle

/-- What M.TIMER holds on entry to a phase; entering a phase that is no wait loads nothing (10_state.md R41). -/
def masterTimerOn (p : PhaseCode) (s : State) : Nat :=
  if p = MPhase.waitSetup then s.tp.quarter.toNat + jitter s
  else if p = MPhase.waitHigh then s.tp.half.toNat + jitter s
  else if p = MPhase.waitLow then s.tp.quarter.toNat + jitter s
  else if p = MPhase.waitSettle then s.tp.sampleSettle.toNat + jitter s
  else s.master.timer

/-- enter(M, p) (10_state.md R41). -/
def enterMaster (p : PhaseCode) (s : State) : State :=
  { s with master.phase := p, master.timer := masterTimerOn p s }

/-- enter(S, p) (10_state.md R41). -/
def enterSlave (p : PhaseCode) (s : State) : State :=
  { s with slave.phase := p,
           slave.timer := if p = SPhase.stabilize then s.tp.stabilize else s.slave.timer,
           slave.totimer := if p = SPhase.awaitEdge then s.tp.edgeTimeout else s.slave.totimer }

/-- The master's session is over: DONE, phase M.IDLE (40_master.md R131, R142). -/
def finishMaster (s : State) : State := { s with master.state := .done, master.phase := MPhase.idle }

/-- An action of the master: only while M.STATE = RUNNING (20_memory.md R87; log 13). -/
def whileMaster (s t : State) : State := if s.master.state = .running then t else s

/-- An action of the slave: only while S.STATE = RUNNING (20_memory.md R87; log 13). -/
def whileSlave (s t : State) : State := if s.slave.state = .running then t else s

/-- A master wait phase: `when M.TIMER = 0: enter(M, p)` (40_master.md R134, R136, R138, R139; log 13). -/
def masterWaitThen (p : PhaseCode) (s : State) : State :=
  whileMaster s (if s.master.timer = 0 then enterMaster p s else s)

/-! ## Reports -/

/-- Emit(M, {idx: M.CURSOR, tx: M.TX, rx: M.RX, t: now}) (10_state.md R52). -/
def emitMaster (s : State) : State :=
  { s with master.reports := s.master.reports ++
      [{ idx := s.master.cursor, tx := s.master.tx, rx := s.master.rx, t := s.now }] }

/-- Emit(S, {idx: S.CURSOR, rx: S.RX, tx: S.TX, t: now}) (10_state.md R52). -/
def emitSlave (s : State) : State :=
  { s with slave.reports := s.slave.reports ++
      [{ idx := s.slave.cursor, tx := s.slave.tx, rx := s.slave.rx, t := s.now }] }

/-! ## The edge wait -/

/-- The edge completion of S.AWAIT_EDGE is enabled: S.EDGE_PEND = 1 and now − S.EDGE_T ≥ LAT_MIN, on integers (20_memory.md R89; log 16). -/
def edgeReady (s : State) : Bool := s.slave.edgePend && decide (s.slave.edgeT + s.cfg.latMin ≤ s.now)

/-- The edge completion is urgent: S.EDGE_PEND = 1 and now − S.EDGE_T ≥ LAT_MAX, never if LAT_MAX = ∞ (20_memory.md R89; log 16). -/
def edgeDue (s : State) : Bool :=
  s.slave.edgePend &&
    match s.cfg.latMax with
    | none => false
    | some x => decide (s.slave.edgeT + x ≤ s.now)

/-! ## Time -/

/-- Whether a master phase acts at once (30_encoding.md R103, kind "instant"). -/
def isMasterInstant (p : PhaseCode) : Bool :=
  p == MPhase.acquire || p == MPhase.load || p == MPhase.driveMo || p == MPhase.clkHi || p == MPhase.clkLo
    || p == MPhase.sample || p == MPhase.nextBit || p == MPhase.report

/-- Whether a slave phase acts at once (30_encoding.md R104, kind "instant"). -/
def isSlaveInstant (p : PhaseCode) : Bool :=
  p == SPhase.acquire || p == SPhase.initial || p == SPhase.retry || p == SPhase.sample || p == SPhase.driveNext
    || p == SPhase.byteComplete

/-- The master has an urgent action (20_memory.md R89). -/
def masterUrgent (s : State) : Bool :=
  decide (s.master.state = .running) &&
    (isMasterInstant s.master.phase || (isMasterWait s.master.phase && decide (s.master.timer = 0)))

/-- The slave has an urgent action (20_memory.md R89). -/
def slaveUrgent (s : State) : Bool :=
  decide (s.slave.state = .running) &&
    (isSlaveInstant s.slave.phase
      || (s.slave.phase == SPhase.stabilize && s.slave.timer == 0#32)
      || (s.slave.phase == SPhase.awaitEdge && (edgeDue s || s.slave.totimer == 0#32)))

/-- The effect of one time step (20_memory.md R89). -/
def tick (s : State) : State :=
  { s with
    now := s.now + 1
    master.timer :=
      if s.master.state = .running ∧ isMasterWait s.master.phase = true ∧ s.master.timer > 0 then s.master.timer - 1
      else s.master.timer
    slave.timer :=
      if s.slave.state = .running ∧ s.slave.phase = SPhase.stabilize ∧ s.slave.timer ≠ 0#32 then s.slave.timer - 1#32
      else s.slave.timer
    slave.totimer :=
      if s.slave.state = .running ∧ s.slave.phase = SPhase.awaitEdge ∧ s.slave.totimer ≠ 0#32 then
        s.slave.totimer - 1#32
      else s.slave.totimer }

/-- The environment's time step: enabled exactly when no urgent action is enabled (20_memory.md R89); a choice of it while it is not enabled does nothing (log 2). -/
def timeStep (s : State) : State := if masterUrgent s || slaveUrgent s then s else tick s

/-- The environment's glitch (20_memory.md R77): it does not exist unless LINE_GLITCH (log 2). -/
def glitchStep (l : Line) (v : Bool) (s : State) : State := if s.cfg.lineGlitch then driveLine l v s else s

end Sys2Proof.Machine
end

