-- ==== Sys2Proof/Machine/HostBus.lean ====
section
/-! DEFINITION. The meanings of the host operations (42_host_interface.md R191 to R207). -/

namespace Sys2Proof.Machine

/-- The word a host read of address `a` returns (R191). -/
def hostRead (a : HostAddr) (s : State) : Word :=
  if !addrAligned a then 0#32
  else if a = Addr.mCtrl ∨ a = Addr.sCtrl then 0#32
  else if a = Addr.mStatus then masterStatus s.master
  else if a = Addr.sStatus then slaveStatus s.slave
  else if a = Addr.mMsgLen then s.master.msgLen
  else if a = Addr.mCursor then s.master.cursor
  else if a = Addr.mTx then s.master.tx.setWidth 32
  else if a = Addr.mRx then s.master.rx.setWidth 32
  else if a = Addr.sReplyLen then s.slave.replyLen
  else if a = Addr.sCursor then s.slave.cursor
  else if a = Addr.sTx then s.slave.tx.setWidth 32
  else if a = Addr.sRx then s.slave.rx.setWidth 32
  else if a = Addr.tpBitPeriod then s.tp.bitPeriod
  else if a = Addr.tpQuarter then s.tp.quarter
  else if a = Addr.tpHalf then s.tp.half
  else if a = Addr.tpSampleSettle then s.tp.sampleSettle
  else if a = Addr.tpStabilize then s.tp.stabilize
  else if a = Addr.tpEdgeWait then s.tp.edgeWait
  else if a = Addr.lines then linesWord s.lines
  else if addrWindow a = 1#4 ∧ (addrIndex a).toNat < s.cfg.msgCap then
    (bufHostRead .master (addrIndex a).toNat s).setWidth 32
  else if addrWindow a = 2#4 ∧ (addrIndex a).toNat < s.cfg.replyCap then
    (bufHostRead .slave (addrIndex a).toNat s).setWidth 32
  else 0#32

/-- The timing policy may be written: neither engine is RUNNING (R203). -/
def tpWritable (s : State) : Bool := decide (s.master.state ≠ .running) && decide (s.slave.state ≠ .running)

/-- H.RD (R191): the word goes to `rdata` and nothing else changes (20_memory.md R83; log 8). -/
def execHRd (a : HostAddr) (s : State) : Result := .next { s with rdata := hostRead a s }

/-- H.WR_M_STOP (R195). -/
def execHWrMStop (s : State) : Result := .next (stopMaster s)

/-- H.WR_M_START (R194). -/
def execHWrMStart (s : State) : Result :=
  .next (if s.master.state = .idle ∨ s.master.state = .done then
      enterMaster MPhase.acquire
        { s with master.state := .running, master.cause := .none, master.fline := none }
    else s)

/-- H.WR_S_STOP (R197). -/
def execHWrSStop (s : State) : Result := .next (stopSlave s)

/-- H.WR_S_START (R196). -/
def execHWrSStart (s : State) : Result :=
  .next (if s.slave.state = .idle ∧ s.slave.replyLen ≠ 0#32 then
      enterSlave SPhase.acquire
        { s with slave.state := .running, slave.cause := .none, slave.fline := none }
    else s)

/-- H.WR_M_MSG_LEN (R199). -/
def execHWrMMsgLen (n : Word) (s : State) : Result :=
  .next (if s.master.state ≠ .running ∧ n.toNat ≤ s.cfg.msgCap then { s with master.msgLen := n } else s)

/-- H.WR_S_REPLY_LEN (R201). -/
def execHWrSReplyLen (n : Word) (s : State) : Result :=
  .next (if s.slave.state ≠ .running ∧ n.toNat ≤ s.cfg.replyCap then { s with slave.replyLen := n } else s)

/-- H.WR_TP_BIT_PERIOD (R204). -/
def execHWrTpBitPeriod (p : Word) (s : State) : Result :=
  .next (if tpWritable s then { s with tp.bitPeriod := p } else s)

/-- H.WR_TP_SAMPLE_SETTLE (R205). -/
def execHWrTpSampleSettle (e : Word) (s : State) : Result :=
  .next (if tpWritable s then { s with tp.sampleSettle := e } else s)

/-- H.WR_TP_STABILIZE (R206). -/
def execHWrTpStabilize (d : Word) (s : State) : Result :=
  .next (if tpWritable s then { s with tp.stabilize := d } else s)

/-- H.WR_TP_EDGE_WAIT (R207). -/
def execHWrTpEdgeWait (w : Word) (s : State) : Result :=
  .next (if tpWritable s then { s with tp.edgeWait := w } else s)

/-- H.WR_M_MSG (R200). -/
def execHWrMMsg (i : BitVec 10) (v : Byte) (s : State) : Result :=
  .next (if s.master.state ≠ .running ∧ i.toNat < s.cfg.msgCap then
      { s with master.msg := s.master.msg.write i.toNat v }
    else s)

/-- H.WR_S_REPLY (R202). -/
def execHWrSReply (i : BitVec 10) (v : Byte) (s : State) : Result :=
  .next (if s.slave.state ≠ .running ∧ i.toNat < s.cfg.replyCap then
      { s with slave.reply := s.slave.reply.write i.toNat v }
    else s)

/-- H.WR_IGNORED (R198): nothing, whatever the address and the data. -/
def execHWrIgnored (_addr : HostAddr) (_data : Word) (s : State) : Result := .next s

end Sys2Proof.Machine
end

