-- ==== Sys2Proof/Machine/Master.lean ====
section
/-! DEFINITION. The meanings of the master micro-operations (40_master.md R131 to R143). -/

namespace Sys2Proof.Machine

/-- M.IDLE (R143): no action. -/
def execMIdle (s : State) : Result := .next s

/-- M.ACQUIRE (R131). -/
def execMAcquire (s : State) : Result :=
  let begun : State := { s with master.cursor := 0#32 }
  .next (whileMaster s (unlessSetupError .master s
    (if s.master.msgLen = 0#32 then finishMaster begun else enterMaster MPhase.load begun)))

/-- M.LOAD (R132); an entry not written since reset ends the run (20_memory.md R79; log 5). -/
def execMLoad (s : State) : Result :=
  if s.master.state = .running then
    match bufRead .master s.master.cursor.toNat s with
    | none => .fault (.unwrittenBuffer .master s.master.cursor.toNat)
    | some b => .next (enterMaster MPhase.driveMo { s with master.tx := b, master.rx := 0#8, master.bit := 7#3 })
  else .next s

/-- M.DRIVE_MO (R133). -/
def execMDriveMo (s : State) : Result :=
  .next (whileMaster s (unlessIoError .master .mo s
    (enterMaster MPhase.waitSetup (driveLine .mo (byteBit s.master.tx s.master.bit) s))))

/-- M.WAIT_SETUP (R134). -/
def execMWaitSetup (s : State) : Result := .next (masterWaitThen MPhase.clkHi s)

/-- M.CLK_HI (R135). -/
def execMClkHi (s : State) : Result :=
  .next (whileMaster s (unlessIoError .master .clk s (enterMaster MPhase.waitHigh (driveLine .clk true s))))

/-- M.WAIT_HIGH (R136). -/
def execMWaitHigh (s : State) : Result := .next (masterWaitThen MPhase.clkLo s)

/-- M.CLK_LO (R137). -/
def execMClkLo (s : State) : Result :=
  .next (whileMaster s (unlessIoError .master .clk s (enterMaster MPhase.waitLow (driveLine .clk false s))))

/-- M.WAIT_LOW (R138). -/
def execMWaitLow (s : State) : Result := .next (masterWaitThen MPhase.waitSettle s)

/-- M.WAIT_SETTLE (R139). -/
def execMWaitSettle (s : State) : Result := .next (masterWaitThen MPhase.sample s)

/-- M.SAMPLE (R140). -/
def execMSample (s : State) : Result :=
  .next (whileMaster s (unlessIoError .master .so s
    (enterMaster MPhase.nextBit
      { s with master.rx := setByteBit s.master.rx s.master.bit (s.lines.get .so) })))

/-- M.NEXT_BIT (R141). -/
def execMNextBit (s : State) : Result :=
  .next (whileMaster s
    (if s.master.bit = 0#3 then enterMaster MPhase.report s
     else enterMaster MPhase.driveMo { s with master.bit := s.master.bit - 1#3 }))

/-- M.REPORT (R142). -/
def execMReport (s : State) : Result :=
  let c := s.master.cursor + 1#32
  let reported : State := { emitMaster s with master.cursor := c }
  .next (whileMaster s (if c < s.master.msgLen then enterMaster MPhase.load reported else finishMaster reported))

end Sys2Proof.Machine
end

