-- ==== Sys2Proof/Machine/Slave.lean ====
section
/-! DEFINITION. The meanings of the slave micro-operations (41_slave.md R163 to R171). -/

namespace Sys2Proof.Machine

/-- S.IDLE (R171): no action. -/
def execSIdle (s : State) : Result := .next s

/-- S.ACQUIRE (R165). -/
def execSAcquire (s : State) : Result :=
  .next (whileSlave s (unlessSetupError .slave s
    (enterSlave SPhase.initial { s with slave.cursor := 0#32, slave.edgePend := false })))

/-- S.INITIAL (R166); an entry not written since reset ends the run (20_memory.md R79; log 5, log 22). -/
def execSInitial (s : State) : Result :=
  if s.slave.state = .running then
    match bufRead .slave s.slave.cursor.toNat s with
    | none => .fault (.unwrittenBuffer .slave s.slave.cursor.toNat)
    | some b => .next (unlessIoError .slave .so s
        (enterSlave SPhase.awaitEdge
          (driveLine .so (byteBit b 7#3) { s with slave.tx := b, slave.rx := 0#8, slave.bit := 7#3 })))
  else .next s

/-- The edge completion of S.AWAIT_EDGE (R163). -/
def edgeCompletion (s : State) : State :=
  if edgeReady s then unlessIoError .slave .clk s (enterSlave SPhase.sample { s with slave.edgePend := false }) else s

/-- The timeout completion of S.AWAIT_EDGE (R163). -/
def timeoutCompletion (s : State) : State :=
  if s.slave.totimer = 0#32 then unlessIoError .slave .clk s (enterSlave SPhase.retry s) else s

/-- S.AWAIT_EDGE (R163): the completion the environment drew, if it is enabled (log 2). -/
def execSAwaitEdge (s : State) : Result :=
  .next (whileSlave s
    (match s.choice.completion with
     | .edge => edgeCompletion s
     | .timeout => timeoutCompletion s))

/-- S.RETRY (R164). -/
def execSRetry (s : State) : Result := .next (whileSlave s (enterSlave SPhase.awaitEdge s))

/-- S.SAMPLE (R167). -/
def execSSample (s : State) : Result :=
  .next (whileSlave s (unlessIoError .slave .mo s
    (enterSlave (if s.slave.bit = 0#3 then SPhase.byteComplete else SPhase.driveNext)
      { s with slave.rx := setByteBit s.slave.rx s.slave.bit (s.lines.get .mo) })))

/-- S.DRIVE_NEXT (R168; log 11). -/
def execSDriveNext (s : State) : Result :=
  let b := bitBelow s.slave.bit s.seq
  .next (whileSlave s (unlessIoError .slave .so s
    (enterSlave SPhase.stabilize (driveLine .so (byteBit s.slave.tx b) { s with slave.bit := b }))))

/-- S.STABILIZE (R169; log 13). -/
def execSStabilize (s : State) : Result :=
  .next (whileSlave s (if s.slave.timer = 0#32 then enterSlave SPhase.awaitEdge s else s))

/-- S.BYTE_COMPLETE (R170; log 10). -/
def execSByteComplete (s : State) : Result :=
  .next (whileSlave s
    (enterSlave SPhase.initial { emitSlave s with slave.cursor := cursorNext s.slave.cursor s.slave.replyLen }))

end Sys2Proof.Machine
end

