-- ==== Sys2Proof/Machine/Dispatch.lean ====
section
/-! DEFINITION. exec: the meaning of every instruction, one arm per row of spec/opcode_table.json. -/

namespace Sys2Proof.Machine

def exec (i : Instr) (s : State) : Host.Outcome State Fault Refusal :=
  match i with
  | .mIdle => Sys2Proof.Machine.execMIdle s
  | .mAcquire => Sys2Proof.Machine.execMAcquire s
  | .mLoad => Sys2Proof.Machine.execMLoad s
  | .mDriveMo => Sys2Proof.Machine.execMDriveMo s
  | .mWaitSetup => Sys2Proof.Machine.execMWaitSetup s
  | .mClkHi => Sys2Proof.Machine.execMClkHi s
  | .mWaitHigh => Sys2Proof.Machine.execMWaitHigh s
  | .mClkLo => Sys2Proof.Machine.execMClkLo s
  | .mWaitLow => Sys2Proof.Machine.execMWaitLow s
  | .mWaitSettle => Sys2Proof.Machine.execMWaitSettle s
  | .mSample => Sys2Proof.Machine.execMSample s
  | .mNextBit => Sys2Proof.Machine.execMNextBit s
  | .mReport => Sys2Proof.Machine.execMReport s
  | .sIdle => Sys2Proof.Machine.execSIdle s
  | .sAcquire => Sys2Proof.Machine.execSAcquire s
  | .sInitial => Sys2Proof.Machine.execSInitial s
  | .sAwaitEdge => Sys2Proof.Machine.execSAwaitEdge s
  | .sRetry => Sys2Proof.Machine.execSRetry s
  | .sSample => Sys2Proof.Machine.execSSample s
  | .sDriveNext => Sys2Proof.Machine.execSDriveNext s
  | .sStabilize => Sys2Proof.Machine.execSStabilize s
  | .sByteComplete => Sys2Proof.Machine.execSByteComplete s
  | .hRd addr => Sys2Proof.Machine.execHRd addr s
  | .hWrMStop => Sys2Proof.Machine.execHWrMStop s
  | .hWrMStart => Sys2Proof.Machine.execHWrMStart s
  | .hWrSStop => Sys2Proof.Machine.execHWrSStop s
  | .hWrSStart => Sys2Proof.Machine.execHWrSStart s
  | .hWrMMsgLen n => Sys2Proof.Machine.execHWrMMsgLen n s
  | .hWrSReplyLen n => Sys2Proof.Machine.execHWrSReplyLen n s
  | .hWrTpBitPeriod p => Sys2Proof.Machine.execHWrTpBitPeriod p s
  | .hWrTpSampleSettle e => Sys2Proof.Machine.execHWrTpSampleSettle e s
  | .hWrTpStabilize d => Sys2Proof.Machine.execHWrTpStabilize d s
  | .hWrTpEdgeWait w => Sys2Proof.Machine.execHWrTpEdgeWait w s
  | .hWrMMsg idx v => Sys2Proof.Machine.execHWrMMsg idx v s
  | .hWrSReply idx v => Sys2Proof.Machine.execHWrSReply idx v s
  | .hWrIgnored addr data => Sys2Proof.Machine.execHWrIgnored addr data s

end Sys2Proof.Machine
end

