-- ==== Sys2Proof/Machine/Fetch.lean ====
section
/-! DEFINITION. Which action comes next (20_memory.md R86, R87): the micro-operation at an engine's phase (10_state.md R40), a host access, the time step or a glitch; and how a single word is put in the place where it is fetched from. -/

namespace Sys2Proof.Machine

/-- One action of a run. -/
inductive Action where
  /-- An engine's micro-operation or a host operation. -/
  | instr (i : Instr)
  /-- The environment's time step (R89). -/
  | time
  /-- The environment's glitch (R77). -/
  | glitch (l : Line) (v : Bool)
deriving DecidableEq, Repr

/-- The micro-operation word at the master's phase. -/
def masterWord (s : State) : Mow := mowOf 0#1 s.master.phase

/-- The micro-operation word at the slave's phase. -/
def slaveWord (s : State) : Mow := mowOf 1#1 s.slave.phase

/-- The action the choice names; a state whose M.PHASE or S.PHASE is a reserved code is refused (30_encoding.md R105; log 6). -/
def fetch (s : State) : Except Refusal Action :=
  match decodeMow (masterWord s), decodeMow (slaveWord s) with
  | .error _, _ => .error (.reservedMasterCode s.master.phase)
  | .ok _, .error _ => .error (.reservedSlaveCode s.slave.phase)
  | .ok im, .ok is =>
    match s.choice.turn with
    | .master => .ok (.instr im)
    | .slave => .ok (.instr is)
    | .host w => .ok (.instr (decodeHtw w))
    | .time => .ok .time
    | .glitch l v => .ok (.glitch l v)

/-- A choice of this turn that draws no failure, no jitter and the timeout completion. -/
def plainChoice (t : Turn) : Choice :=
  { turn := t, fail := false, failLine := .clk, jitter := 0, completion := .timeout }

/-- The master is at the micro-operation `code`: RUNNING there, or not running for M.IDLE (10_state.md R33). -/
def placeMaster (code : PhaseCode) (s : State) : State :=
  { s with master.state := if code = MPhase.idle then .idle else .running, master.phase := code }

/-- The slave is at the micro-operation `code`. -/
def placeSlave (code : PhaseCode) (s : State) : State :=
  { s with slave.state := if code = SPhase.idle then .idle else .running, slave.phase := code }

/-- The next action is that of turn `t`. -/
def chooseNext (t : Turn) (s : State) : State := { s with script := plainChoice t :: s.script }

/-- `s` with a word where the next action is taken from (log 14): a MOW in its engine's PHASE, with that engine's turn next; an HTW on the host bus, with the host's turn next. -/
def placeWord (e : Encoded) (s : State) : State :=
  match e with
  | .mow w =>
    if w.extractLsb' 4 1 == 0#1 then chooseNext .master (placeMaster (w.extractLsb' 0 4) s)
    else chooseNext .slave (placeSlave (w.extractLsb' 0 4) s)
  | .htw w => chooseNext (.host w) s

end Sys2Proof.Machine
end

