-- ==== Sys2Proof/Machine/Step.lean ====
section
/-! DEFINITION. step: one action of one agent (20_memory.md R86), and the placing of a word that the very next step runs. -/

namespace Sys2Proof.Machine

/-- An action done: the choice it was taken from is used up. -/
def settle (r : Result) : Result :=
  match r with
  | .next t => .next t.advance
  | .fault f => .fault f
  | .refused f => .refused f

/-- What an action does. -/
def perform (a : Action) (s : State) : Result :=
  match a with
  | .instr i => exec i s
  | .time => .next (timeStep s)
  | .glitch l v => .next (glitchStep l v s)

/-- One action of the agent that the choice names (20_memory.md R85 to R90; log 1). -/
def step (s : State) : Host.Outcome State Fault Refusal :=
  match fetch s with
  | .error r => .refused r
  | .ok a => settle (perform a s)

/-- `s` with the table's word where the next step takes its instruction from; a number that is no word of its form changes nothing (log 14, log 20). -/
def State.withFetchWord (s : State) (nbits w : Nat) : State :=
  match tableWord nbits w with
  | some e => placeWord e s
  | none => s

end Sys2Proof.Machine
end

