-- ==== Sys2Proof/Safety.lean ====
section
/-! DEFINITION. The terms claims about runs use: the legal states of the hardware (10_state.md R33, R38, R42, R43, R59), runs that stop nowhere, and the premises and results of the timing contract (70_reset_and_hazards.md R274). -/

namespace Sys2Proof

open Sys2Proof.Machine

/-! ## Legal states -/

/-- The registers of the master obey the rules that name their legal values.
The cursor's bound holds while a session runs, after M.ACQUIRE has set it (log 15). -/
structure Machine.Master.Legal (cfg : Params) (m : Master) : Prop where
  /-- R59: PHASE is 0x0 to 0xC. -/
  phase_code : m.phase.toNat ≤ 0xC
  /-- R33: PHASE is 0 exactly when STATE is IDLE or DONE. -/
  phase_idle : m.phase = 0#4 ↔ (m.state = .idle ∨ m.state = .done)
  /-- R33, R232: a FAULT master's PHASE is a micro-operation that can raise. -/
  phase_fault : m.state = .fault → m.phase ∈ [0x1#4, 0x3#4, 0x5#4, 0x7#4, 0xA#4]
  /-- R231: CAUSE is none exactly when there is no fault. -/
  cause_fault : m.cause ≠ .none ↔ m.state = .fault
  /-- R232: SETUP_ERROR comes from M.ACQUIRE and from nothing else. -/
  cause_setup : m.state = .fault → (m.cause = .setupError ↔ m.phase = 0x1#4)
  /-- R38, I22: FLINE is none exactly when there is no fault. -/
  fline_fault : m.fline ≠ none ↔ m.state = .fault
  /-- R39: M.MSG_LEN is at most MSG_CAP. -/
  len_cap : m.msgLen.toNat ≤ cfg.msgCap
  /-- R35, R132: the cursor of a running session is below the length. -/
  cursor_len : m.state = .running → m.phase ≠ 0x1#4 → m.cursor.toNat < m.msgLen.toNat
  /-- R18: without jitter the counter fits its 32 bits. -/
  timer_width : cfg.jitterMax = 0 → m.timer < 2 ^ 32
  /-- The buffer's canonical form, and R39: only entries below MSG_CAP. -/
  msg_form : m.msg.wf = true ∧ m.msg.below cfg.msgCap = true

/-- The registers of the slave obey the rules that name their legal values. -/
structure Machine.Slave.Legal (cfg : Params) (now : Nat) (v : Slave) : Prop where
  /-- R59: PHASE is 0x0 to 0x8. -/
  phase_code : v.phase.toNat ≤ 0x8
  /-- R43: PHASE is 0 exactly when STATE is IDLE. -/
  phase_idle : v.phase = 0#4 ↔ v.state = .idle
  /-- R43, R232: a FAULT slave's PHASE is a micro-operation that can raise. -/
  phase_fault : v.state = .fault → v.phase ∈ [0x1#4, 0x2#4, 0x3#4, 0x5#4, 0x6#4]
  /-- R231: CAUSE is none exactly when there is no fault. -/
  cause_fault : v.cause ≠ .none ↔ v.state = .fault
  /-- R232: SETUP_ERROR comes from S.ACQUIRE and from nothing else. -/
  cause_setup : v.state = .fault → (v.cause = .setupError ↔ v.phase = 0x1#4)
  /-- R45, I22: FLINE is none exactly when there is no fault. -/
  fline_fault : v.fline ≠ none ↔ v.state = .fault
  /-- R46: S.REPLY_LEN is at most REPLY_CAP. -/
  len_cap : v.replyLen.toNat ≤ cfg.replyCap
  /-- R18: S.REPLY_LEN ≥ 1 while the slave runs. -/
  len_running : v.state = .running → v.replyLen ≠ 0#32
  /-- R43: the cursor of a running session is below the length. -/
  cursor_len : v.state = .running → v.phase ≠ 0x1#4 → v.cursor.toNat < v.replyLen.toNat
  /-- R168: S.DRIVE_NEXT is entered only with S.BIT ≥ 1. -/
  bit_drive : v.state = .running → v.phase = 0x6#4 → v.bit ≠ 0#3
  /-- R170: the byte is complete when S.BIT has reached 0. -/
  bit_complete : v.state = .running → v.phase = 0x8#4 → v.bit = 0#3
  /-- R47, R197: the latch of an IDLE slave is empty. -/
  latch_idle : v.state = .idle → v.edgePend = false
  /-- R47: the latch was set in the past. -/
  latch_past : v.edgeT ≤ now
  /-- The buffer's canonical form, and R46: only entries below REPLY_CAP. -/
  reply_form : v.reply.wf = true ∧ v.reply.below cfg.replyCap = true

/-- The legal states: both engines' registers are legal and the history lies in the past. -/
structure Machine.State.Legal (s : State) : Prop where
  master : Master.Legal s.cfg s.master
  slave : Slave.Legal s.cfg s.now s.slave
  master_reports : ∀ r ∈ s.master.reports, r.t ≤ s.now
  slave_reports : ∀ r ∈ s.slave.reports, r.t ≤ s.now
  history : ∀ e ∈ s.history, ∃ t, e = .edgeLost t ∧ t ≤ s.now

/-- Every entry below each length has been written (the host duty of 70_reset_and_hazards.md R286). -/
def Machine.State.EntriesWritten (s : State) : Prop :=
  (∀ i, i < s.master.msgLen.toNat → s.master.msg.read i ≠ none) ∧
  (∀ i, i < s.slave.replyLen.toNat → s.slave.reply.read i ≠ none)

/-! ## Runs -/

/-- `k` actions from `s` lead to `t`, stopping nowhere. -/
def Runs (k : Nat) (s t : State) : Prop := Host.Core.run core k s = .next t

/-- The host operation a choice performs, if it is the host's turn. -/
def Choice.hostOp (c : Choice) : Option Instr :=
  match c.turn with
  | .host w => some (decodeHtw w)
  | _ => none

/-- A choice that neither stops nor starts an engine (the premise P4 of R274). -/
def Choice.noControl (c : Choice) : Prop :=
  c.hostOp ≠ some .hWrMStop ∧ c.hostOp ≠ some .hWrMStart ∧ c.hostOp ≠ some .hWrSStop ∧ c.hostOp ≠ some .hWrSStart

/-- A choice that neither stops nor starts the master. -/
def Choice.noMasterControl (c : Choice) : Prop := c.hostOp ≠ some .hWrMStop ∧ c.hostOp ≠ some .hWrMStart

/-- A report without its tick annotation: idx, tx, rx. -/
def Machine.Report.body (r : Report) : Word × Byte × Byte := (r.idx, r.tx, r.rx)

/-! ## What the engines put on the lines -/

/-- While an engine runs, its lines show its registers: MO the current bit from its drive to the end of the round, CLK the pulse, SO the bit the slave is at (40_master.md R133 to R137, 41_slave.md R166, R168, R172). -/
structure Machine.State.LinesDriven (s : State) : Prop where
  mo : s.master.state = .running → 0x4 ≤ s.master.phase.toNat → s.master.phase.toNat ≤ 0xB →
    s.lines.mo = byteBit s.master.tx s.master.bit
  clk_high : s.master.state = .running → s.master.phase ∈ [0x6#4, 0x7#4] → s.lines.clk = true
  clk_low : s.master.state = .running → 0x8 ≤ s.master.phase.toNat → s.lines.clk = false
  so : s.slave.state = .running → 0x3 ≤ s.slave.phase.toNat → s.lines.so = byteBit s.slave.tx s.slave.bit

/-! ## The order of the phases (10_state.md R56) -/

/-- The phases that may follow a master phase by the master's own actions (40_master.md R130 to R142). -/
def masterSuccessors (p : PhaseCode) : List PhaseCode :=
  match p.toNat with
  | 0x1 => [0x2#4, 0x0#4]
  | 0x2 => [0x3#4]
  | 0x3 => [0x4#4]
  | 0x4 => [0x5#4]
  | 0x5 => [0x6#4]
  | 0x6 => [0x7#4]
  | 0x7 => [0x8#4]
  | 0x8 => [0x9#4]
  | 0x9 => [0xA#4]
  | 0xA => [0xB#4]
  | 0xB => [0x3#4, 0xC#4]
  | 0xC => [0x2#4, 0x0#4]
  | _ => []

/-- The phases that may follow a slave phase by the slave's own actions (41_slave.md R163 to R170). -/
def slaveSuccessors (p : PhaseCode) : List PhaseCode :=
  match p.toNat with
  | 0x1 => [0x2#4]
  | 0x2 => [0x3#4]
  | 0x3 => [0x5#4, 0x4#4]
  | 0x4 => [0x3#4]
  | 0x5 => [0x6#4, 0x8#4]
  | 0x6 => [0x7#4]
  | 0x7 => [0x3#4]
  | 0x8 => [0x2#4]
  | _ => []

/-! ## What the master does by itself (40_master.md R144, R145) -/

/-- The master as its own inputs determine it: its registers without M.RX, its reports without `rx`, and the lines it drives. -/
structure MasterView where
  state : MState
  phase : PhaseCode
  bit : BitIndex
  cursor : Word
  tx : Byte
  timer : Nat
  cause : Cause
  fline : Option Line
  reports : List (Word × Byte × Nat)
  clk : Bool
  mo : Bool
deriving DecidableEq, Repr

def Machine.State.masterView (s : State) : MasterView where
  state := s.master.state
  phase := s.master.phase
  bit := s.master.bit
  cursor := s.master.cursor
  tx := s.master.tx
  timer := s.master.timer
  cause := s.master.cause
  fline := s.master.fline
  reports := s.master.reports.map (fun r => (r.idx, r.tx, r.t))
  clk := s.lines.clk
  mo := s.lines.mo

/-- A machine in which nothing outside the master touches what it does: no fault, no jitter, no glitch. -/
def Params.Quiet (p : Params) : Prop :=
  p.setupFaults = false ∧ p.ioFaults = false ∧ p.lineGlitch = false ∧ p.jitterMax = 0

/-! ## The timing contract, R274 -/

/-- A buffer holds these bytes from entry 0 on. -/
def HoldsBytes (m : Memory) (bytes : List Byte) : Prop :=
  ∀ i (h : i < bytes.length), m.read i = some bytes[i]

/-- `R[(c0 + k) mod L]`. -/
def replyByte (reply : List Byte) (k : Nat) : Byte := (reply[k % reply.length]?).getD 0#8

/-- `D = 2Q + H + E` (40_master.md R144). -/
def roundTicks (tp : Timing) : Nat :=
  2 * (tp.bitPeriod.toNat / 4) + tp.bitPeriod.toNat / 2 + tp.sampleSettle.toNat

/-- The master's report `j` under the contract (K1): the reply byte rotated left by one bit into the next reply byte. -/
def contractMasterReport (msg reply : List Byte) (c0 j : Nat) : Word × Byte × Byte :=
  (BitVec.ofNat 32 j, (msg[j]?).getD 0#8,
    (replyByte reply (c0 + j) <<< 1) ||| (replyByte reply (c0 + j + 1) >>> 7))

/-- The slave's report `j` under the contract (K2). -/
def contractSlaveReport (msg reply : List Byte) (c0 j : Nat) : Word × Byte × Byte :=
  (BitVec.ofNat 32 ((c0 + j) % reply.length), replyByte reply (c0 + j), (msg[j]?).getD 0#8)

/-- The state in which the master's first M.CLK_HI of a session is due, under the premises P1 to P3, P5 and P6 of R274.
`msg` is the session's message, `reply` the slave's reply and `c0` its cursor.
Besides the premises' own words it asks what the rules leave in such a state: the master's registers after M.LOAD and M.DRIVE_MO, the slave's transfer byte, and buffers that hold the bytes named. -/
structure ContractStart (s : State) (msg reply : List Byte) (c0 : Nat) : Prop where
  p1_setup : s.cfg.setupFaults = false
  p1_io : s.cfg.ioFaults = false
  p1_glitch : s.cfg.lineGlitch = false
  p2_clk : s.lines.clk = false
  p3_slave : s.slave.state = .running
  p3_phase : s.slave.phase = SPhase.awaitEdge ∨ s.slave.phase = SPhase.retry
  p3_bit : s.slave.bit = 7#3
  p3_latch : s.slave.edgePend = false
  p3_cursor : s.slave.cursor = BitVec.ofNat 32 c0
  p3_tx : s.slave.tx = replyByte reply c0
  p5 : ∃ x, s.cfg.latMax = some x ∧
    x < s.tp.bitPeriod.toNat / 4 + s.tp.bitPeriod.toNat / 2 + s.tp.sampleSettle.toNat ∧
    x + s.tp.stabilize.toNat ≤ roundTicks s.tp
  master : s.master.state = .running
  master_phase : s.master.phase = MPhase.clkHi
  master_bit : s.master.bit = 7#3
  master_cursor : s.master.cursor = 0#32
  master_tx : some s.master.tx = msg[0]?
  mo : s.lines.mo = byteBit s.master.tx 7#3
  msg_len : s.master.msgLen.toNat = msg.length ∧ msg.length ≤ 1024
  msg_bytes : HoldsBytes s.master.msg msg
  reply_len : s.slave.replyLen.toNat = reply.length ∧ reply.length ≤ 1024
  reply_bytes : HoldsBytes s.slave.reply reply
  c0_lt : c0 < reply.length

end Sys2Proof
end

