-- ==== Sys2Proof/Certificates/Slice0/Obligations.lean ====
section
/-! DEFINITION. The statements for the provers, each about every state of the model. Where a statement's clause rests on a choice of the model, its docstring names the log entry. -/

open Sys2Proof Sys2Proof.Machine

/-! ## Encoding -/

/-- Decoding the word of a well-formed instruction gives it back, with every operand (30_encoding.md R101 to R104, R108). -/
def Obligations.DecodeEncodeRoundTrip : Prop :=
  ∀ i : Instr, i.wellFormed = true → decode (encode i) = .ok i

/-- R108, row by row: which host words name which operation, with which operands.
R109: every host word decodes to one row, and to a well-formed operation. -/
def Obligations.HostDecodeTable : Prop :=
  ∀ w : Htw,
    let wr := w.extractLsb' 48 1
    let a := w.extractLsb' 32 16
    let d := w.extractLsb' 0 32
    (∀ x, decodeHtw w = .hRd x ↔ wr = 0#1 ∧ x = a) ∧
    (decodeHtw w = .hWrMStop ↔ wr = 1#1 ∧ a = 0x0000#16 ∧ d.getLsbD 1 = true) ∧
    (decodeHtw w = .hWrMStart ↔ wr = 1#1 ∧ a = 0x0000#16 ∧ d.getLsbD 1 = false ∧ d.getLsbD 0 = true) ∧
    (decodeHtw w = .hWrSStop ↔ wr = 1#1 ∧ a = 0x0100#16 ∧ d.getLsbD 1 = true) ∧
    (decodeHtw w = .hWrSStart ↔ wr = 1#1 ∧ a = 0x0100#16 ∧ d.getLsbD 1 = false ∧ d.getLsbD 0 = true) ∧
    (∀ n, decodeHtw w = .hWrMMsgLen n ↔ wr = 1#1 ∧ a = 0x0008#16 ∧ n = d) ∧
    (∀ n, decodeHtw w = .hWrSReplyLen n ↔ wr = 1#1 ∧ a = 0x0108#16 ∧ n = d) ∧
    (∀ x, decodeHtw w = .hWrTpBitPeriod x ↔ wr = 1#1 ∧ a = 0x0200#16 ∧ x = d) ∧
    (∀ x, decodeHtw w = .hWrTpSampleSettle x ↔ wr = 1#1 ∧ a = 0x020C#16 ∧ x = d) ∧
    (∀ x, decodeHtw w = .hWrTpStabilize x ↔ wr = 1#1 ∧ a = 0x0210#16 ∧ x = d) ∧
    (∀ x, decodeHtw w = .hWrTpEdgeWait x ↔ wr = 1#1 ∧ a = 0x0214#16 ∧ x = d) ∧
    (∀ i v, decodeHtw w = .hWrMMsg i v ↔ wr = 1#1 ∧ a.toNat = 0x1000 + 4 * i.toNat ∧ v = d.extractLsb' 0 8) ∧
    (∀ i v, decodeHtw w = .hWrSReply i v ↔ wr = 1#1 ∧ a.toNat = 0x2000 + 4 * i.toNat ∧ v = d.extractLsb' 0 8) ∧
    (∀ x y, decodeHtw w = .hWrIgnored x y ↔ wr = 1#1 ∧ x = a ∧ y = d ∧
      ¬ (a ∈ [0x0000#16, 0x0100#16] ∧ (d.getLsbD 1 = true ∨ d.getLsbD 0 = true)) ∧
      a ∉ [0x0008#16, 0x0108#16, 0x0200#16, 0x020C#16, 0x0210#16, 0x0214#16] ∧
      ¬ (a.toNat % 4 = 0 ∧ 0x1000 ≤ a.toNat ∧ a.toNat < 0x3000)) ∧
    (decodeHtw w).wellFormed = true

/-- R105: a reserved code is invalid to the decoder, a state that holds one is refused, and no step enters one. -/
def Obligations.ReservedCodesRefused : Prop :=
  (∀ p : PhaseCode, (∃ i, decodeMow (mowOf 0#1 p) = .ok i) ↔ p.toNat ≤ 0xC) ∧
  (∀ p : PhaseCode, (∃ i, decodeMow (mowOf 1#1 p) = .ok i) ↔ p.toNat ≤ 0x8) ∧
  (∀ p : PhaseCode, 0xC < p.toNat → decodeMow (mowOf 0#1 p) = .error (.reservedMasterCode p)) ∧
  (∀ p : PhaseCode, 0x8 < p.toNat → decodeMow (mowOf 1#1 p) = .error (.reservedSlaveCode p)) ∧
  (∀ s : State, 0xC < s.master.phase.toNat → step s = .refused (.reservedMasterCode s.master.phase)) ∧
  (∀ s : State, s.master.phase.toNat ≤ 0xC → 0x8 < s.slave.phase.toNat →
    step s = .refused (.reservedSlaveCode s.slave.phase)) ∧
  (∀ s t : State, step s = .next t → t.master.phase.toNat ≤ 0xC ∧ t.slave.phase.toNat ≤ 0x8)

/-- The worked encodings of R112, in both directions. -/
def Obligations.WorkedEncodings : Prop :=
  decode (.htw 0x1_0200_0000_03E8#49) = .ok (.hWrTpBitPeriod 1000#32) ∧
  encode (.hWrTpBitPeriod 1000#32) = .htw 0x1_0200_0000_03E8#49 ∧
  decode (.htw 0x1_0000_0000_0001#49) = .ok .hWrMStart ∧ encode .hWrMStart = .htw 0x1_0000_0000_0001#49 ∧
  decode (.htw 0x1_0100_0000_0002#49) = .ok .hWrSStop ∧ encode .hWrSStop = .htw 0x1_0100_0000_0002#49 ∧
  decode (.htw 0x1_1004_0000_0049#49) = .ok (.hWrMMsg 1#10 0x49#8) ∧
  encode (.hWrMMsg 1#10 0x49#8) = .htw 0x1_1004_0000_0049#49 ∧
  decode (.htw 0x0_0004_0000_0000#49) = .ok (.hRd 0x0004#16) ∧ encode (.hRd 0x0004#16) = .htw 0x0_0004_0000_0000#49 ∧
  decode (.mow 0b0_1010#5) = .ok .mSample ∧ encode .mSample = .mow 0b0_1010#5 ∧
  decode (.mow 0b1_0110#5) = .ok .sDriveNext ∧ encode .sDriveNext = .mow 0b1_0110#5

/-- The expansions of R111. A `poll` is given as one round of its loop, with the test that ends it. -/
def Obligations.PseudoExpansions : Prop :=
  Pseudo.startM.expand = [.htw (htwOf 1#1 0x0000#16 1#32)] ∧
  Pseudo.stopM.expand = [.htw (htwOf 1#1 0x0000#16 2#32)] ∧
  Pseudo.startS.expand = [.htw (htwOf 1#1 0x0100#16 1#32)] ∧
  Pseudo.stopS.expand = [.htw (htwOf 1#1 0x0100#16 2#32)] ∧
  (∀ p e s w, (Pseudo.setTp p e s w).expand =
    [.htw (htwOf 1#1 0x0200#16 p), .htw (htwOf 1#1 0x020C#16 e), .htw (htwOf 1#1 0x0210#16 s),
      .htw (htwOf 1#1 0x0214#16 w)]) ∧
  (∀ bytes : List Byte, bytes.length ≤ 1024 →
    (Pseudo.loadMsg bytes).expand =
      (bytes.zipIdx.map fun (b, i) => .htw (htwOf 1#1 (BitVec.ofNat 16 (0x1000 + 4 * i)) (b.setWidth 32)))
        ++ [.htw (htwOf 1#1 0x0008#16 (BitVec.ofNat 32 bytes.length))] ∧
    (Pseudo.loadReply bytes).expand =
      (bytes.zipIdx.map fun (b, i) => .htw (htwOf 1#1 (BitVec.ofNat 16 (0x2000 + 4 * i)) (b.setWidth 32)))
        ++ [.htw (htwOf 1#1 0x0108#16 (BitVec.ofNat 32 bytes.length))]) ∧
  (∀ reg, (Pseudo.pollOnce reg).expand = [.htw (htwOf 0#1 reg 0#32)]) ∧
  (∀ mask value returned : Word, pollDone mask value returned = true ↔ returned &&& mask = value)

/-! ## The step -/

/-- A step performs the action of the agent whose turn it is (R40, R86, R87): the instruction that the word at the engine's phase, or the host's word, decodes to.
Around `exec` the step only uses up the choice: the script moves on and the action is counted (log 1). -/
def Obligations.StepRunsDecoded : Prop :=
  ∀ (s : State) (im iv : Instr),
    decode (.mow (mowOf 0#1 s.master.phase)) = .ok im → decode (.mow (mowOf 1#1 s.slave.phase)) = .ok iv →
    ∀ i : Instr,
      (s.choice.turn = .master ∧ i = im ∨ s.choice.turn = .slave ∧ i = iv ∨
        ∃ w, s.choice.turn = .host w ∧ decode (.htw w) = .ok i) →
      step s = match exec i s with
        | .next t => .next { t with script := t.script.tail, seq := t.seq + 1 }
        | .fault f => .fault f
        | .refused r => .refused r

/-- The time step (R89): enabled exactly when no urgent action is enabled, and its effect.
A choice of the time step while it is not enabled changes nothing but the script (log 2); the age of a latched edge is compared on integers, also in a state whose latch time is after `now` (log 16). -/
def Obligations.TimeStepEffect : Prop :=
  ∀ s : State, s.choice.turn = .time → s.master.phase.toNat ≤ 0xC → s.slave.phase.toNat ≤ 0x8 →
    let urgent : Prop :=
      (s.master.state = .running ∧
        (s.master.phase ∈ [0x1#4, 0x2#4, 0x3#4, 0x5#4, 0x7#4, 0xA#4, 0xB#4, 0xC#4] ∨
          s.master.phase ∈ [0x4#4, 0x6#4, 0x8#4, 0x9#4] ∧ s.master.timer = 0)) ∨
      (s.slave.state = .running ∧
        (s.slave.phase ∈ [0x1#4, 0x2#4, 0x4#4, 0x5#4, 0x6#4, 0x8#4] ∨
          s.slave.phase = 0x7#4 ∧ s.slave.timer = 0#32 ∨
          s.slave.phase = 0x3#4 ∧
            (s.slave.totimer = 0#32 ∨
              s.slave.edgePend = true ∧ ∃ x, s.cfg.latMax = some x ∧ s.slave.edgeT + x ≤ s.now)))
    (urgent → step s = .next { s with script := s.script.tail, seq := s.seq + 1 }) ∧
    (¬ urgent → step s = .next
      { s with
        now := s.now + 1
        master.timer :=
          if s.master.state = .running ∧ s.master.phase ∈ [0x4#4, 0x6#4, 0x8#4, 0x9#4] then s.master.timer - 1
          else s.master.timer
        slave.timer :=
          if s.slave.state = .running ∧ s.slave.phase = 0x7#4 ∧ s.slave.timer ≠ 0#32 then s.slave.timer - 1#32
          else s.slave.timer
        slave.totimer :=
          if s.slave.state = .running ∧ s.slave.phase = 0x3#4 ∧ s.slave.totimer ≠ 0#32 then s.slave.totimer - 1#32
          else s.slave.totimer
        script := s.script.tail
        seq := s.seq + 1 })

/-- R88: `now` is 0 at reset, an enabled time step increases it by 1, and no other action changes it.
A time step is enabled when neither engine has an urgent action (R89; the age of a latched edge is compared on integers, log 16). -/
def Obligations.NowOnlyByTimeStep : Prop :=
  (∀ p, (State.resetWith p).now = 0) ∧
  (∀ s : State, s.choice.turn = .time → s.master.phase.toNat ≤ 0xC → s.slave.phase.toNat ≤ 0x8 →
    masterUrgent s = false → slaveUrgent s = false → ∃ t, step s = .next t ∧ t.now = s.now + 1) ∧
  (∀ s t : State, step s = .next t → t.now ≠ s.now → s.choice.turn = .time ∧ t.now = s.now + 1)

/-- R77: with LINE_GLITCH the environment may set any line to any level at any time, and a rise of CLK runs the edge detector; without it there is no such action.
A choice of the glitch without LINE_GLITCH changes nothing but the script (log 2). -/
def Obligations.GlitchEffect : Prop :=
  ∀ (s : State) (l : Line) (v : Bool), s.choice.turn = .glitch l v → s.master.phase.toNat ≤ 0xC →
    s.slave.phase.toNat ≤ 0x8 →
    ∃ t, step s = .next t ∧ t.master = s.master ∧ t.tp = s.tp ∧ t.now = s.now ∧
      (s.cfg.lineGlitch = false → t = { s with script := s.script.tail, seq := s.seq + 1 }) ∧
      (s.cfg.lineGlitch = true →
        t.lines.get l = v ∧ (∀ k, k ≠ l → t.lines.get k = s.lines.get k) ∧
        (¬ (l = .clk ∧ s.lines.clk = false ∧ v = true) → t.slave = s.slave ∧ t.history = s.history) ∧
        (l = .clk ∧ s.lines.clk = false ∧ v = true →
          (s.slave.state ≠ .running → t.slave = s.slave ∧ t.history = s.history) ∧
          (s.slave.state = .running → s.slave.edgePend = false →
            t.slave = { s.slave with edgePend := true, edgeT := s.now } ∧ t.history = s.history) ∧
          (s.slave.state = .running → s.slave.edgePend = true →
            t.slave = s.slave ∧ t.history = s.history ++ [.edgeLost s.now])))

/-- R160, R161, R47 over every action: an edge is latched exactly by a rise of CLK while the slave runs with an empty latch, a rise on a full latch is lost and recorded, and nothing else sets the latch or records a lost edge. -/
def Obligations.EdgeLatch : Prop :=
  ∀ s t : State, step s = .next t →
    (s.lines.clk = false → t.lines.clk = true →
      (s.slave.state ≠ .running → t.slave = s.slave ∧ t.history = s.history) ∧
      (s.slave.state = .running → s.slave.edgePend = false →
        t.slave = { s.slave with edgePend := true, edgeT := s.now } ∧ t.history = s.history) ∧
      (s.slave.state = .running → s.slave.edgePend = true →
        t.slave = s.slave ∧ t.history = s.history ++ [.edgeLost s.now])) ∧
    (¬ (s.lines.clk = false ∧ t.lines.clk = true) →
      t.history = s.history ∧ t.slave.edgeT = s.slave.edgeT ∧
      (t.slave.edgePend = true → s.slave.edgePend = true) ∧
      (s.slave.edgePend = true → t.slave.edgePend = false →
        (s.choice.turn = .slave ∧ s.slave.phase ∈ [0x1#4, 0x3#4]) ∨ s.choice.hostOp = some .hWrSStop))

/-! ## The master micro-operations -/

/-- R143, R171: the idle phases have no action. -/
def Obligations.IdlePhases : Prop :=
  encode .mIdle = .mow 0x00#5 ∧ encode .sIdle = .mow 0x10#5 ∧
  ∀ s : State, exec .mIdle s = .next s ∧ exec .sIdle s = .next s

/-- R87: an engine that is not RUNNING has no action.
In the model its turn changes nothing (log 13). -/
def Obligations.StoppedEngineDoesNothing : Prop :=
  (∀ (i : Instr) (s : State), i.isMasterOp = true → s.master.state ≠ .running → exec i s = .next s) ∧
  (∀ (i : Instr) (s : State), i.isSlaveOp = true → s.slave.state ≠ .running → exec i s = .next s)

/-- R131, with fault entry (R233). -/
def Obligations.MAcquireResult : Prop :=
  encode .mAcquire = .mow 0x01#5 ∧
  ∀ s : State, s.master.state = .running →
    exec .mAcquire s = .next (
      if s.cfg.setupFaults = true ∧ s.choice.fail = true then
        { s with master.state := .fault, master.cause := .setupError, master.fline := some s.choice.failLine }
      else if s.master.msgLen = 0#32 then
        { s with master.cursor := 0#32, master.state := .done, master.phase := 0x0#4 }
      else { s with master.cursor := 0#32, master.phase := 0x2#4 })

/-- R132; R79 for an entry not written since reset, where the model stops (log 5). -/
def Obligations.MLoadResult : Prop :=
  encode .mLoad = .mow 0x02#5 ∧
  (∀ (s : State) (b : Byte), s.master.state = .running → s.master.msg.read s.master.cursor.toNat = some b →
    exec .mLoad s = .next
      { s with master.tx := b, master.rx := 0#8, master.bit := 7#3, master.phase := 0x3#4 }) ∧
  (∀ s : State, s.master.state = .running → s.master.msg.read s.master.cursor.toNat = none →
    exec .mLoad s = .fault (.unwrittenBuffer .master s.master.cursor.toNat))

/-- R133, with fault entry (R233) and the counter load of R41 (jitter: log 23). -/
def Obligations.MDriveMoResult : Prop :=
  encode .mDriveMo = .mow 0x03#5 ∧
  ∀ s : State, s.master.state = .running →
    exec .mDriveMo s = .next (
      if s.cfg.ioFaults = true ∧ s.choice.fail = true then
        { s with master.state := .fault, master.cause := .ioError, master.fline := some .mo }
      else
        { s with lines.mo := s.master.tx.getLsbD s.master.bit.toNat
                 master.phase := 0x4#4
                 master.timer := s.tp.bitPeriod.toNat / 4 + min s.choice.jitter s.cfg.jitterMax })

/-- R134, R136, R138, R139: a wait phase goes on at `M.TIMER = 0`, and does nothing before (log 13).
M.WAIT_LOW loads the counter of M.WAIT_SETTLE (R41). -/
def Obligations.MWaitResults : Prop :=
  encode .mWaitSetup = .mow 0x04#5 ∧ encode .mWaitHigh = .mow 0x06#5 ∧
  encode .mWaitLow = .mow 0x08#5 ∧ encode .mWaitSettle = .mow 0x09#5 ∧
  (∀ s : State, s.master.state = .running → s.master.timer = 0 →
    exec .mWaitSetup s = .next { s with master.phase := 0x5#4 } ∧
    exec .mWaitHigh s = .next { s with master.phase := 0x7#4 } ∧
    exec .mWaitLow s = .next
      { s with master.phase := 0x9#4
               master.timer := s.tp.sampleSettle.toNat + min s.choice.jitter s.cfg.jitterMax } ∧
    exec .mWaitSettle s = .next { s with master.phase := 0xA#4 }) ∧
  (∀ s : State, s.master.timer ≠ 0 →
    exec .mWaitSetup s = .next s ∧ exec .mWaitHigh s = .next s ∧ exec .mWaitLow s = .next s ∧
    exec .mWaitSettle s = .next s)

/-- R135, with the edge detector (R160, R161), fault entry (R233) and the counter load of R41 (jitter: log 23). -/
def Obligations.MClkHiResult : Prop :=
  encode .mClkHi = .mow 0x05#5 ∧
  ∀ s : State, s.master.state = .running →
    let up : State :=
      { s with lines.clk := true
               master.phase := 0x6#4
               master.timer := s.tp.bitPeriod.toNat / 2 + min s.choice.jitter s.cfg.jitterMax }
    exec .mClkHi s = .next (
      if s.cfg.ioFaults = true ∧ s.choice.fail = true then
        { s with master.state := .fault, master.cause := .ioError, master.fline := some .clk }
      else if s.lines.clk = true ∨ s.slave.state ≠ .running then up
      else if s.slave.edgePend = true then { up with history := s.history ++ [.edgeLost s.now] }
      else { up with slave.edgePend := true, slave.edgeT := s.now })

/-- R137, with fault entry (R233) and the counter load of R41 (jitter: log 23). -/
def Obligations.MClkLoResult : Prop :=
  encode .mClkLo = .mow 0x07#5 ∧
  ∀ s : State, s.master.state = .running →
    exec .mClkLo s = .next (
      if s.cfg.ioFaults = true ∧ s.choice.fail = true then
        { s with master.state := .fault, master.cause := .ioError, master.fline := some .clk }
      else
        { s with lines.clk := false
                 master.phase := 0x8#4
                 master.timer := s.tp.bitPeriod.toNat / 4 + min s.choice.jitter s.cfg.jitterMax })

/-- R140, with fault entry (R233): the bit is written, the others are kept (R18). -/
def Obligations.MSampleResult : Prop :=
  encode .mSample = .mow 0x0A#5 ∧
  ∀ s : State, s.master.state = .running →
    ∃ rx : Byte, rx.getLsbD s.master.bit.toNat = s.lines.so ∧
      (∀ i, i ≠ s.master.bit.toNat → rx.getLsbD i = s.master.rx.getLsbD i) ∧
      exec .mSample s = .next (
        if s.cfg.ioFaults = true ∧ s.choice.fail = true then
          { s with master.state := .fault, master.cause := .ioError, master.fline := some .so }
        else { s with master.rx := rx, master.phase := 0xB#4 })

/-- R141. -/
def Obligations.MNextBitResult : Prop :=
  encode .mNextBit = .mow 0x0B#5 ∧
  ∀ s : State, s.master.state = .running →
    (∀ b : BitIndex, b.toNat + 1 = s.master.bit.toNat →
      exec .mNextBit s = .next { s with master.bit := b, master.phase := 0x3#4 }) ∧
    (s.master.bit = 0#3 → exec .mNextBit s = .next { s with master.phase := 0xC#4 })

/-- R142; the report carries the tick (R52).
The 32-bit sum wraps only at a cursor that no run reaches (log 12). -/
def Obligations.MReportResult : Prop :=
  encode .mReport = .mow 0x0C#5 ∧
  ∀ s : State, s.master.state = .running →
    let c := s.master.cursor + 1#32
    exec .mReport s = .next
      { s with master.reports := s.master.reports ++ [⟨s.master.cursor, s.master.tx, s.master.rx, s.now⟩]
               master.cursor := c
               master.state := if c.toNat < s.master.msgLen.toNat then .running else .done
               master.phase := if c.toNat < s.master.msgLen.toNat then 0x2#4 else 0x0#4 }

/-! ## The slave micro-operations -/

/-- R165, with fault entry (R233). -/
def Obligations.SAcquireResult : Prop :=
  encode .sAcquire = .mow 0x11#5 ∧
  ∀ s : State, s.slave.state = .running →
    exec .sAcquire s = .next (
      if s.cfg.setupFaults = true ∧ s.choice.fail = true then
        { s with slave.state := .fault, slave.cause := .setupError, slave.fline := some s.choice.failLine }
      else { s with slave.cursor := 0#32, slave.edgePend := false, slave.phase := 0x2#4 })

/-- R166, with fault entry (R233) and the counter load of R41; R79 for an entry not written since reset, where the model stops (log 5, log 22). -/
def Obligations.SInitialResult : Prop :=
  encode .sInitial = .mow 0x12#5 ∧
  (∀ (s : State) (b : Byte), s.slave.state = .running → s.slave.reply.read s.slave.cursor.toNat = some b →
    exec .sInitial s = .next (
      if s.cfg.ioFaults = true ∧ s.choice.fail = true then
        { s with slave.state := .fault, slave.cause := .ioError, slave.fline := some .so }
      else
        { s with lines.so := b.getLsbD 7
                 slave.tx := b
                 slave.rx := 0#8
                 slave.bit := 7#3
                 slave.phase := 0x3#4
                 slave.totimer := if s.tp.edgeWait = 0#32 then 1#32 else s.tp.edgeWait })) ∧
  (∀ s : State, s.slave.state = .running → s.slave.reply.read s.slave.cursor.toNat = none →
    exec .sInitial s = .fault (.unwrittenBuffer .slave s.slave.cursor.toNat))

/-- R163: each completion when it is enabled, with fault entry (R233).
A completion that is drawn while it is not enabled does nothing (log 2); the age of the edge is compared on integers (log 16). -/
def Obligations.SAwaitEdgeResult : Prop :=
  encode .sAwaitEdge = .mow 0x13#5 ∧
  ∀ s : State, s.slave.state = .running →
    (s.choice.completion = .edge →
      exec .sAwaitEdge s = .next (
        if s.slave.edgePend = true ∧ s.slave.edgeT + s.cfg.latMin ≤ s.now then
          if s.cfg.ioFaults = true ∧ s.choice.fail = true then
            { s with slave.state := .fault, slave.cause := .ioError, slave.fline := some .clk }
          else { s with slave.edgePend := false, slave.phase := 0x5#4 }
        else s)) ∧
    (s.choice.completion = .timeout →
      exec .sAwaitEdge s = .next (
        if s.slave.totimer = 0#32 then
          if s.cfg.ioFaults = true ∧ s.choice.fail = true then
            { s with slave.state := .fault, slave.cause := .ioError, slave.fline := some .clk }
          else { s with slave.phase := 0x4#4 }
        else s))

/-- R164, with the counter load of R41: the retry changes no data and keeps the latch. -/
def Obligations.SRetryResult : Prop :=
  encode .sRetry = .mow 0x14#5 ∧
  ∀ s : State, s.slave.state = .running →
    exec .sRetry s = .next
      { s with slave.phase := 0x3#4
               slave.totimer := if s.tp.edgeWait = 0#32 then 1#32 else s.tp.edgeWait }

/-- R167, with fault entry (R233): the bit is written, the others are kept (R18). -/
def Obligations.SSampleResult : Prop :=
  encode .sSample = .mow 0x15#5 ∧
  ∀ s : State, s.slave.state = .running →
    ∃ rx : Byte, rx.getLsbD s.slave.bit.toNat = s.lines.mo ∧
      (∀ i, i ≠ s.slave.bit.toNat → rx.getLsbD i = s.slave.rx.getLsbD i) ∧
      exec .sSample s = .next (
        if s.cfg.ioFaults = true ∧ s.choice.fail = true then
          { s with slave.state := .fault, slave.cause := .ioError, slave.fline := some .mo }
        else { s with slave.rx := rx, slave.phase := if s.slave.bit = 0#3 then 0x8#4 else 0x6#4 })

/-- R168, with fault entry (R233) and the counter load of R41.
At S.BIT = 0, where the rule states no value, the operation still goes on, with some bit index (log 11). -/
def Obligations.SDriveNextResult : Prop :=
  encode .sDriveNext = .mow 0x16#5 ∧
  ∀ s : State, s.slave.state = .running → ∃ b : BitIndex,
    (s.slave.bit ≠ 0#3 → b.toNat + 1 = s.slave.bit.toNat) ∧
    exec .sDriveNext s = .next (
      if s.cfg.ioFaults = true ∧ s.choice.fail = true then
        { s with slave.state := .fault, slave.cause := .ioError, slave.fline := some .so }
      else
        { s with lines.so := s.slave.tx.getLsbD b.toNat
                 slave.bit := b
                 slave.phase := 0x7#4
                 slave.timer := s.tp.stabilize })

/-- R169, with the counter load of R41: S.STABILIZE goes on at `S.TIMER = 0`, and does nothing before (log 13). -/
def Obligations.SStabilizeResult : Prop :=
  encode .sStabilize = .mow 0x17#5 ∧
  ∀ s : State,
    (s.slave.state = .running → s.slave.timer = 0#32 →
      exec .sStabilize s = .next
        { s with slave.phase := 0x3#4
                 slave.totimer := if s.tp.edgeWait = 0#32 then 1#32 else s.tp.edgeWait }) ∧
    (s.slave.timer ≠ 0#32 → exec .sStabilize s = .next s)

/-- R170; the report carries the tick (R52).
At S.REPLY_LEN = 0, where the rule states no value, the operation still goes on, with some cursor (log 10). -/
def Obligations.SByteCompleteResult : Prop :=
  encode .sByteComplete = .mow 0x18#5 ∧
  ∀ s : State, s.slave.state = .running → ∃ c : Word,
    (s.slave.replyLen ≠ 0#32 → c.toNat = (s.slave.cursor.toNat + 1) % s.slave.replyLen.toNat) ∧
    exec .sByteComplete s = .next
      { s with slave.reports := s.slave.reports ++ [⟨s.slave.cursor, s.slave.tx, s.slave.rx, s.now⟩]
               slave.cursor := c
               slave.phase := 0x2#4 }

/-! ## The host operations -/

/-- R191: what a read of each address returns, and that it changes nothing else (R83).
The word goes to the model's field `rdata` (log 8); an entry not written since reset reads as some byte (log 5); the status words are the statement StatusWords. -/
def Obligations.ReadResults : Prop :=
  (∀ a, encode (.hRd a) = .htw (htwOf 0#1 a 0#32)) ∧
  ∀ s : State,
    (∀ a, ∃ v, exec (.hRd a) s = .next { s with rdata := v }) ∧
    (∀ a : HostAddr, a.toNat % 4 ≠ 0 → exec (.hRd a) s = .next { s with rdata := 0#32 }) ∧
    (∀ a ∈ [0x0000#16, 0x0100#16], exec (.hRd a) s = .next { s with rdata := 0#32 }) ∧
    exec (.hRd 0x0008#16) s = .next { s with rdata := s.master.msgLen } ∧
    exec (.hRd 0x000C#16) s = .next { s with rdata := s.master.cursor } ∧
    exec (.hRd 0x0010#16) s = .next { s with rdata := s.master.tx.setWidth 32 } ∧
    exec (.hRd 0x0014#16) s = .next { s with rdata := s.master.rx.setWidth 32 } ∧
    exec (.hRd 0x0108#16) s = .next { s with rdata := s.slave.replyLen } ∧
    exec (.hRd 0x010C#16) s = .next { s with rdata := s.slave.cursor } ∧
    exec (.hRd 0x0110#16) s = .next { s with rdata := s.slave.tx.setWidth 32 } ∧
    exec (.hRd 0x0114#16) s = .next { s with rdata := s.slave.rx.setWidth 32 } ∧
    exec (.hRd 0x0200#16) s = .next { s with rdata := s.tp.bitPeriod } ∧
    exec (.hRd 0x0204#16) s = .next { s with rdata := BitVec.ofNat 32 (s.tp.bitPeriod.toNat / 4) } ∧
    exec (.hRd 0x0208#16) s = .next { s with rdata := BitVec.ofNat 32 (s.tp.bitPeriod.toNat / 2) } ∧
    exec (.hRd 0x020C#16) s = .next { s with rdata := s.tp.sampleSettle } ∧
    exec (.hRd 0x0210#16) s = .next { s with rdata := s.tp.stabilize } ∧
    exec (.hRd 0x0214#16) s = .next { s with rdata := s.tp.edgeWait } ∧
    exec (.hRd 0x0300#16) s = .next
      { s with rdata := BitVec.ofNat 32 (4 * s.lines.so.toNat + 2 * s.lines.mo.toNat + s.lines.clk.toNat) } ∧
    (∀ i : Nat, i < s.cfg.msgCap → i < 1024 → ∃ v : Byte,
      (∀ b, s.master.msg.read i = some b → v = b) ∧
      exec (.hRd (BitVec.ofNat 16 (0x1000 + 4 * i))) s = .next { s with rdata := v.setWidth 32 }) ∧
    (∀ i : Nat, i < s.cfg.replyCap → i < 1024 → ∃ v : Byte,
      (∀ b, s.slave.reply.read i = some b → v = b) ∧
      exec (.hRd (BitVec.ofNat 16 (0x2000 + 4 * i))) s = .next { s with rdata := v.setWidth 32 }) ∧
    (∀ a : HostAddr,
      a ∉ [0x0004#16, 0x0104#16, 0x0008#16, 0x000C#16, 0x0010#16, 0x0014#16, 0x0108#16, 0x010C#16, 0x0110#16,
        0x0114#16, 0x0200#16, 0x0204#16, 0x0208#16, 0x020C#16, 0x0210#16, 0x0214#16, 0x0300#16] →
      ¬ (0x1000 ≤ a.toNat ∧ a.toNat < 0x2000 ∧ (a.toNat - 0x1000) / 4 < s.cfg.msgCap) →
      ¬ (0x2000 ≤ a.toNat ∧ a.toNat < 0x3000 ∧ (a.toNat - 0x2000) / 4 < s.cfg.replyCap) →
      exec (.hRd a) s = .next { s with rdata := 0#32 })

/-- R192: the fields of the two status words, and zero elsewhere. -/
def Obligations.StatusWords : Prop :=
  ∀ s : State,
    (∃ w : Word, exec (.hRd 0x0004#16) s = .next { s with rdata := w } ∧
      w.extractLsb' 0 2 = (match s.master.state with | .idle => 0#2 | .running => 1#2 | .done => 2#2 | .fault => 3#2) ∧
      w.extractLsb' 2 2 = 0#2 ∧
      w.extractLsb' 4 4 = s.master.phase ∧
      w.extractLsb' 8 3 = s.master.bit ∧
      w.extractLsb' 11 1 = 0#1 ∧
      w.extractLsb' 12 2 = (match s.master.cause with | .none => 0#2 | .setupError => 1#2 | .ioError => 2#2) ∧
      w.extractLsb' 14 2 = 0#2 ∧
      w.extractLsb' 16 2 =
        (match s.master.fline with | some .clk => 0#2 | some .mo => 1#2 | some .so => 2#2 | none => 3#2) ∧
      w.extractLsb' 18 14 = 0#14) ∧
    (∃ w : Word, exec (.hRd 0x0104#16) s = .next { s with rdata := w } ∧
      w.extractLsb' 0 2 = (match s.slave.state with | .idle => 0#2 | .running => 1#2 | .fault => 3#2) ∧
      w.extractLsb' 2 2 = 0#2 ∧
      w.extractLsb' 4 4 = s.slave.phase ∧
      w.extractLsb' 8 3 = s.slave.bit ∧
      w.extractLsb' 11 1 = 0#1 ∧
      w.extractLsb' 12 2 = (match s.slave.cause with | .none => 0#2 | .setupError => 1#2 | .ioError => 2#2) ∧
      w.extractLsb' 14 2 = 0#2 ∧
      w.extractLsb' 16 2 =
        (match s.slave.fline with | some .clk => 0#2 | some .mo => 1#2 | some .so => 2#2 | none => 3#2) ∧
      w.extractLsb' 18 2 = 0#2 ∧
      w.extractLsb' 20 1 = BitVec.ofBool s.slave.edgePend ∧
      w.extractLsb' 21 11 = 0#11)

/-- R194: START of an IDLE or DONE master begins a session, and of a RUNNING or FAULT one does nothing. -/
def Obligations.MStartResult : Prop :=
  encode .hWrMStart = .htw (htwOf 1#1 0x0000#16 1#32) ∧
  ∀ s : State, exec .hWrMStart s = .next (
    if s.master.state = .idle ∨ s.master.state = .done then
      { s with master.state := .running, master.cause := .none, master.fline := none, master.phase := 0x1#4 }
    else s)

/-- R195: STOP takes the master from any state to IDLE; its transfer registers and the lines keep their values. -/
def Obligations.MStopResult : Prop :=
  encode .hWrMStop = .htw (htwOf 1#1 0x0000#16 2#32) ∧
  ∀ s : State, exec .hWrMStop s = .next
    { s with master.state := .idle, master.phase := 0x0#4, master.cause := .none, master.fline := none,
             master.timer := 0 }

/-- R196: START of an IDLE slave with a reply begins a session, and otherwise does nothing. -/
def Obligations.SStartResult : Prop :=
  encode .hWrSStart = .htw (htwOf 1#1 0x0100#16 1#32) ∧
  ∀ s : State, exec .hWrSStart s = .next (
    if s.slave.state = .idle ∧ 1 ≤ s.slave.replyLen.toNat then
      { s with slave.state := .running, slave.cause := .none, slave.fline := none, slave.phase := 0x1#4 }
    else s)

/-- R197: STOP takes the slave from any state to IDLE and empties the latch; the lines keep their levels. -/
def Obligations.SStopResult : Prop :=
  encode .hWrSStop = .htw (htwOf 1#1 0x0100#16 2#32) ∧
  ∀ s : State, exec .hWrSStop s = .next
    { s with slave.state := .idle, slave.phase := 0x0#4, slave.cause := .none, slave.fline := none,
             slave.timer := 0#32, slave.totimer := 0#32, slave.edgePend := false }

/-- R199, R201: the lengths. -/
def Obligations.LengthWriteResults : Prop :=
  (∀ n, encode (.hWrMMsgLen n) = .htw (htwOf 1#1 0x0008#16 n) ∧
    encode (.hWrSReplyLen n) = .htw (htwOf 1#1 0x0108#16 n)) ∧
  ∀ (n : Word) (s : State),
    exec (.hWrMMsgLen n) s = .next (
      if s.master.state ≠ .running ∧ n.toNat ≤ s.cfg.msgCap then { s with master.msgLen := n } else s) ∧
    exec (.hWrSReplyLen n) s = .next (
      if s.slave.state ≠ .running ∧ n.toNat ≤ s.cfg.replyCap then { s with slave.replyLen := n } else s)

/-- R200, R202: the buffers, at the entry that the address carries.
Only that entry changes, the buffer keeps its canonical form, and a write that is not accepted changes nothing. -/
def Obligations.BufferWriteResults : Prop :=
  (∀ (i : BitVec 10) (v : Byte),
    encode (.hWrMMsg i v) = .htw (htwOf 1#1 (BitVec.ofNat 16 (0x1000 + 4 * i.toNat)) (v.setWidth 32)) ∧
    encode (.hWrSReply i v) = .htw (htwOf 1#1 (BitVec.ofNat 16 (0x2000 + 4 * i.toNat)) (v.setWidth 32))) ∧
  ∀ (i : BitVec 10) (v : Byte) (s : State),
    (s.master.state ≠ .running → i.toNat < s.cfg.msgCap → ∃ m : Memory,
      exec (.hWrMMsg i v) s = .next { s with master.msg := m } ∧
      m.read i.toNat = some v ∧ (∀ a, a ≠ i.toNat → m.read a = s.master.msg.read a) ∧
      (s.master.msg.wf = true → m.wf = true)) ∧
    (¬ (s.master.state ≠ .running ∧ i.toNat < s.cfg.msgCap) → exec (.hWrMMsg i v) s = .next s) ∧
    (s.slave.state ≠ .running → i.toNat < s.cfg.replyCap → ∃ m : Memory,
      exec (.hWrSReply i v) s = .next { s with slave.reply := m } ∧
      m.read i.toNat = some v ∧ (∀ a, a ≠ i.toNat → m.read a = s.slave.reply.read a) ∧
      (s.slave.reply.wf = true → m.wf = true)) ∧
    (¬ (s.slave.state ≠ .running ∧ i.toNat < s.cfg.replyCap) → exec (.hWrSReply i v) s = .next s)

/-- R203 to R207: the timing policy is written only while neither engine is RUNNING. -/
def Obligations.TimingWriteResults : Prop :=
  (∀ x : Word, encode (.hWrTpBitPeriod x) = .htw (htwOf 1#1 0x0200#16 x) ∧
    encode (.hWrTpSampleSettle x) = .htw (htwOf 1#1 0x020C#16 x) ∧
    encode (.hWrTpStabilize x) = .htw (htwOf 1#1 0x0210#16 x) ∧
    encode (.hWrTpEdgeWait x) = .htw (htwOf 1#1 0x0214#16 x)) ∧
  ∀ (x : Word) (s : State),
    (s.master.state ≠ .running → s.slave.state ≠ .running →
      exec (.hWrTpBitPeriod x) s = .next { s with tp.bitPeriod := x } ∧
      exec (.hWrTpSampleSettle x) s = .next { s with tp.sampleSettle := x } ∧
      exec (.hWrTpStabilize x) s = .next { s with tp.stabilize := x } ∧
      exec (.hWrTpEdgeWait x) s = .next { s with tp.edgeWait := x }) ∧
    (s.master.state = .running ∨ s.slave.state = .running →
      exec (.hWrTpBitPeriod x) s = .next s ∧ exec (.hWrTpSampleSettle x) s = .next s ∧
      exec (.hWrTpStabilize x) s = .next s ∧ exec (.hWrTpEdgeWait x) s = .next s)

/-- R198: a write that no other row selects does nothing: a read-only register, an unmapped or misaligned address, a control write with both bits 0. -/
def Obligations.IgnoredWriteResult : Prop :=
  (∀ a d s, exec (.hWrIgnored a d) s = .next s) ∧
  ∀ (a : HostAddr) (d : Word) (s : State),
    (a ∉ [0x0000#16, 0x0100#16, 0x0008#16, 0x0108#16, 0x0200#16, 0x020C#16, 0x0210#16, 0x0214#16] ∧
        ¬ (a.toNat % 4 = 0 ∧ 0x1000 ≤ a.toNat ∧ a.toNat < 0x3000)) ∨
      (a ∈ [0x0000#16, 0x0100#16] ∧ d.getLsbD 0 = false ∧ d.getLsbD 1 = false) →
    decode (.htw (htwOf 1#1 a d)) = .ok (.hWrIgnored a d) ∧ exec (.hWrIgnored a d) s = .next s

/-! ## Reset and invariants -/

/-- R261: the reset value of every piece of state the spec names, for any parameters; no buffer entry is written (R39, R46). -/
def Obligations.ResetValues : Prop :=
  State.reset = State.resetWith Config.params ∧
  ∀ p : Params,
    let s := State.resetWith p
    s.lines = ⟨false, false, false⟩ ∧
    s.master.state = .idle ∧ s.master.phase = 0#4 ∧ s.master.bit = 0#3 ∧ s.master.cursor = 0#32 ∧
    s.master.tx = 0#8 ∧ s.master.rx = 0#8 ∧ s.master.timer = 0 ∧ s.master.cause = .none ∧ s.master.fline = none ∧
    s.master.msgLen = 0#32 ∧ (∀ i, s.master.msg.read i = none) ∧
    s.slave.state = .idle ∧ s.slave.phase = 0#4 ∧ s.slave.bit = 0#3 ∧ s.slave.cursor = 0#32 ∧
    s.slave.tx = 0#8 ∧ s.slave.rx = 0#8 ∧ s.slave.timer = 0#32 ∧ s.slave.totimer = 0#32 ∧ s.slave.cause = .none ∧
    s.slave.fline = none ∧ s.slave.replyLen = 0#32 ∧ (∀ i, s.slave.reply.read i = none) ∧
    s.slave.edgePend = false ∧ s.slave.edgeT = 0 ∧
    s.tp = ⟨p.tpResetBitPeriod, p.tpResetSampleSettle, p.tpResetStabilize, p.tpResetEdgeWait⟩ ∧
    s.tp.quarter.toNat = p.tpResetBitPeriod.toNat / 4 ∧ s.tp.half.toNat = p.tpResetBitPeriod.toNat / 2 ∧
    s.master.reports = [] ∧ s.slave.reports = [] ∧ s.now = 0 ∧
    exec (.hRd 0x0004#16) s = .next { s with rdata := 0x00030000#32 } ∧
    exec (.hRd 0x0104#16) s = .next { s with rdata := 0x00030000#32 } ∧
    exec (.hRd 0x0300#16) s = .next { s with rdata := 0#32 }

/-- The parameters of this hardware are within the bounds of R9, with the defaults the spec states (log 3). -/
def Obligations.ParametersLegal : Prop :=
  Config.params.Legal ∧ Config.params.Quiet

/-- The two invariants below hold at reset, for any parameters.
That the event history lies in the past rests on the model's choice that it is empty at reset (log 17, DESIGN CHOICE: the spec gives no value). -/
def Obligations.ResetIsLegal : Prop :=
  ∀ p : Params, (State.resetWith p).Legal ∧ (State.resetWith p).LinesDriven ∧ (State.resetWith p).EntriesWritten

/-- Every step from a legal state leads to a legal state: the rules on the engines' registers (R33, R35, R38, R39, R43, R45 to R47, R59, R231, R232). -/
def Obligations.StepKeepsLegal : Prop :=
  ∀ s t : State, s.Legal → step s = .next t → t.Legal

/-- A legal state has a next one, whatever is chosen, unless an engine reads an entry that the host has not written (R79, R208; log 5).
A choice of an action that is not enabled (log 2), and a turn of an engine that is not RUNNING or whose wait is not over (log 13), have a next state that only uses up the choice. -/
def Obligations.LegalStateHasNext : Prop :=
  (∀ s : State, s.Legal → (∃ t, step s = .next t) ∨
    (s.choice.turn = .master ∧ s.master.state = .running ∧ s.master.phase = 0x2#4 ∧
      s.master.msg.read s.master.cursor.toNat = none ∧
      step s = .fault (.unwrittenBuffer .master s.master.cursor.toNat)) ∨
    (s.choice.turn = .slave ∧ s.slave.state = .running ∧ s.slave.phase = 0x2#4 ∧
      s.slave.reply.read s.slave.cursor.toNat = none ∧
      step s = .fault (.unwrittenBuffer .slave s.slave.cursor.toNat))) ∧
  (∀ s : State, s.Legal → s.EntriesWritten → ∃ t, step s = .next t)

/-- While an engine runs, the lines it owns show its registers: an invariant of every step without glitches (R76, R133 to R137, R166, R168, R172). -/
def Obligations.LinesFollowRegisters : Prop :=
  ∀ s t : State, s.cfg.lineGlitch = false → s.LinesDriven → step s = .next t → t.LinesDriven

/-! ## Frames -/

/-- What a master micro-operation leaves alone (R30, R31, R53, R106): each register changes only by the operations that the rules name, the slave only by the edge detector, and no entry of either buffer at all. -/
def Obligations.MasterFrame : Prop :=
  ∀ (i : Instr) (s t : State), i.isMasterOp = true → exec i s = .next t →
    t.tp = s.tp ∧ t.now = s.now ∧ t.cfg = s.cfg ∧ t.rdata = s.rdata ∧ t.script = s.script ∧ t.seq = s.seq ∧
    t.lines.so = s.lines.so ∧ t.master.msgLen = s.master.msgLen ∧
    (∀ a, t.master.msg.read a = s.master.msg.read a) ∧ (∀ a, t.slave.reply.read a = s.slave.reply.read a) ∧
    t.slave = { s.slave with edgePend := t.slave.edgePend, edgeT := t.slave.edgeT } ∧
    (i ≠ .mClkHi → t.slave = s.slave ∧ t.history = s.history) ∧
    (i ≠ .mDriveMo → t.lines.mo = s.lines.mo) ∧
    (i ≠ .mClkHi → i ≠ .mClkLo → t.lines.clk = s.lines.clk) ∧
    (i ≠ .mReport → t.master.reports = s.master.reports) ∧
    (i ≠ .mAcquire → i ≠ .mReport → t.master.cursor = s.master.cursor) ∧
    (i ≠ .mLoad → t.master.tx = s.master.tx) ∧
    (i ≠ .mLoad → i ≠ .mSample → t.master.rx = s.master.rx) ∧
    (i ≠ .mLoad → i ≠ .mNextBit → t.master.bit = s.master.bit) ∧
    (i ∉ [.mDriveMo, .mClkHi, .mClkLo, .mWaitLow] → t.master.timer = s.master.timer) ∧
    (i ≠ .mAcquire → i ≠ .mReport → t.master.state = s.master.state ∨ t.master.state = .fault) ∧
    (t.master.state ≠ .fault → t.master.cause = s.master.cause ∧ t.master.fline = s.master.fline) ∧
    (t.master.state = .fault → t.lines = s.lines ∧ t.slave = s.slave ∧ t.master.phase = s.master.phase)

/-- What a slave micro-operation leaves alone (R30, R31, R53, R106): the master, CLK and MO, every entry of either buffer, and each register that the operation's rule does not name. -/
def Obligations.SlaveFrame : Prop :=
  ∀ (i : Instr) (s t : State), i.isSlaveOp = true → exec i s = .next t →
    t.tp = s.tp ∧ t.now = s.now ∧ t.cfg = s.cfg ∧ t.rdata = s.rdata ∧ t.script = s.script ∧ t.seq = s.seq ∧
    t.master = s.master ∧ t.history = s.history ∧ t.lines.clk = s.lines.clk ∧ t.lines.mo = s.lines.mo ∧
    t.slave.replyLen = s.slave.replyLen ∧ t.slave.edgeT = s.slave.edgeT ∧
    (∀ a, t.slave.reply.read a = s.slave.reply.read a) ∧
    (i ≠ .sInitial → i ≠ .sDriveNext → t.lines.so = s.lines.so) ∧
    (i ≠ .sAcquire → i ≠ .sAwaitEdge → t.slave.edgePend = s.slave.edgePend) ∧
    (i ≠ .sByteComplete → t.slave.reports = s.slave.reports) ∧
    (i ≠ .sAcquire → i ≠ .sByteComplete → t.slave.cursor = s.slave.cursor) ∧
    (i ≠ .sInitial → t.slave.tx = s.slave.tx) ∧
    (i ≠ .sInitial → i ≠ .sSample → t.slave.rx = s.slave.rx) ∧
    (i ≠ .sInitial → i ≠ .sDriveNext → t.slave.bit = s.slave.bit) ∧
    (i ≠ .sDriveNext → t.slave.timer = s.slave.timer) ∧
    (i ∉ [.sInitial, .sRetry, .sStabilize] → t.slave.totimer = s.slave.totimer) ∧
    (t.slave.state = s.slave.state ∨ t.slave.state = .fault) ∧
    (t.slave.state ≠ .fault → t.slave.cause = s.slave.cause ∧ t.slave.fline = s.slave.fline) ∧
    (t.slave.state = .fault → t.lines = s.lines ∧ t.slave.phase = s.slave.phase)

/-- What a host operation leaves alone (R190, R83, R208): it never stops, takes no time, and touches no line, no report and no transfer register; a read changes nothing but the word it returns. -/
def Obligations.HostFrame : Prop :=
  (∀ (a : HostAddr) (s : State), ∃ v, exec (.hRd a) s = .next { s with rdata := v }) ∧
  ∀ (i : Instr) (s : State), i.isHostOp = true → (∀ a, i ≠ .hRd a) → ∃ t, exec i s = .next t ∧
    t.rdata = s.rdata ∧ t.now = s.now ∧ t.lines = s.lines ∧ t.history = s.history ∧ t.cfg = s.cfg ∧
    t.script = s.script ∧ t.seq = s.seq ∧
    t.master.bit = s.master.bit ∧ t.master.cursor = s.master.cursor ∧ t.master.tx = s.master.tx ∧
    t.master.rx = s.master.rx ∧ t.master.reports = s.master.reports ∧
    t.slave.bit = s.slave.bit ∧ t.slave.cursor = s.slave.cursor ∧ t.slave.tx = s.slave.tx ∧
    t.slave.rx = s.slave.rx ∧ t.slave.edgeT = s.slave.edgeT ∧ t.slave.reports = s.slave.reports ∧
    (i ∉ [.hWrMStop, .hWrMStart] → t.master.state = s.master.state ∧ t.master.phase = s.master.phase ∧
      t.master.cause = s.master.cause ∧ t.master.fline = s.master.fline ∧ t.master.timer = s.master.timer) ∧
    (i ∉ [.hWrSStop, .hWrSStart] → t.slave.state = s.slave.state ∧ t.slave.phase = s.slave.phase ∧
      t.slave.cause = s.slave.cause ∧ t.slave.fline = s.slave.fline ∧ t.slave.timer = s.slave.timer ∧
      t.slave.totimer = s.slave.totimer ∧ t.slave.edgePend = s.slave.edgePend) ∧
    ((∀ n, i ≠ .hWrMMsgLen n) → t.master.msgLen = s.master.msgLen) ∧
    ((∀ n, i ≠ .hWrSReplyLen n) → t.slave.replyLen = s.slave.replyLen) ∧
    (∀ a : Nat, (∀ (j : BitVec 10) v, i = .hWrMMsg j v → a ≠ j.toNat) → t.master.msg.read a = s.master.msg.read a) ∧
    (∀ a : Nat, (∀ (j : BitVec 10) v, i = .hWrSReply j v → a ≠ j.toNat) →
      t.slave.reply.read a = s.slave.reply.read a) ∧
    ((∀ x, i ≠ .hWrTpBitPeriod x) → t.tp.bitPeriod = s.tp.bitPeriod) ∧
    ((∀ x, i ≠ .hWrTpSampleSettle x) → t.tp.sampleSettle = s.tp.sampleSettle) ∧
    ((∀ x, i ≠ .hWrTpStabilize x) → t.tp.stabilize = s.tp.stabilize) ∧
    ((∀ x, i ≠ .hWrTpEdgeWait x) → t.tp.edgeWait = s.tp.edgeWait)

/-! ## Faults and states -/

/-- Fault entry over every action (R231 to R234): a fault is entered only by the engine's own micro-operation of R232, only under its parameter and the draw, and changes nothing but STATE, CAUSE and FLINE. -/
def Obligations.FaultEntry : Prop :=
  ∀ s t : State, step s = .next t →
    (s.master.state ≠ .fault → t.master.state = .fault →
      s.choice.turn = .master ∧ s.master.state = .running ∧ s.choice.fail = true ∧
      ∃ (k : Cause) (l : Line),
        ((s.master.phase = 0x1#4 ∧ s.cfg.setupFaults = true ∧ k = .setupError ∧ l = s.choice.failLine) ∨
         (s.master.phase = 0x3#4 ∧ s.cfg.ioFaults = true ∧ k = .ioError ∧ l = .mo) ∨
         (s.master.phase ∈ [0x5#4, 0x7#4] ∧ s.cfg.ioFaults = true ∧ k = .ioError ∧ l = .clk) ∨
         (s.master.phase = 0xA#4 ∧ s.cfg.ioFaults = true ∧ k = .ioError ∧ l = .so)) ∧
        t = { s with master.state := .fault, master.cause := k, master.fline := some l,
                     script := s.script.tail, seq := s.seq + 1 }) ∧
    (s.slave.state ≠ .fault → t.slave.state = .fault →
      s.choice.turn = .slave ∧ s.slave.state = .running ∧ s.choice.fail = true ∧
      ∃ (k : Cause) (l : Line),
        ((s.slave.phase = 0x1#4 ∧ s.cfg.setupFaults = true ∧ k = .setupError ∧ l = s.choice.failLine) ∨
         (s.slave.phase ∈ [0x2#4, 0x6#4] ∧ s.cfg.ioFaults = true ∧ k = .ioError ∧ l = .so) ∨
         (s.slave.phase = 0x3#4 ∧ s.cfg.ioFaults = true ∧ k = .ioError ∧ l = .clk) ∨
         (s.slave.phase = 0x5#4 ∧ s.cfg.ioFaults = true ∧ k = .ioError ∧ l = .mo)) ∧
        t = { s with slave.state := .fault, slave.cause := k, slave.fline := some l,
                     script := s.script.tail, seq := s.seq + 1 })

/-- R236, R235: a fault is sticky. Without glitches, a step from FAULT keeps the engine's registers, cause and lines, unless it is the engine's STOP, which clears the fault. -/
def Obligations.FaultSticky : Prop :=
  ∀ s t : State, step s = .next t →
    (s.master.state = .fault →
      (s.choice.hostOp = some .hWrMStop ∧ t.master.state = .idle ∧ t.master.cause = .none ∧ t.master.fline = none) ∨
      (t.master = { s.master with msgLen := t.master.msgLen, msg := t.master.msg } ∧
        (s.cfg.lineGlitch = false → t.lines.clk = s.lines.clk ∧ t.lines.mo = s.lines.mo))) ∧
    (s.slave.state = .fault →
      (s.choice.hostOp = some .hWrSStop ∧ t.slave.state = .idle ∧ t.slave.cause = .none ∧ t.slave.fline = none) ∨
      (t.slave = { s.slave with replyLen := t.slave.replyLen, reply := t.slave.reply } ∧
        (s.cfg.lineGlitch = false → t.lines.so = s.lines.so)))

/-- The only transitions of the two STATE fields (R32, R42, R173, R236): the slave in particular never ends by itself.
The master ends by itself when the 32-bit sum M.CURSOR + 1 is not below M.MSG_LEN; the sum wraps only at a cursor that no run reaches (log 12). -/
def Obligations.StateTransitions : Prop :=
  ∀ s t : State, step s = .next t →
    (t.master.state = s.master.state ∨
      (t.master.state = .running ∧ (s.master.state = .idle ∨ s.master.state = .done) ∧
        s.choice.hostOp = some .hWrMStart) ∨
      (t.master.state = .idle ∧ s.choice.hostOp = some .hWrMStop) ∨
      (t.master.state = .done ∧ s.master.state = .running ∧ s.choice.turn = .master ∧
        (s.master.phase = 0x1#4 ∧ s.master.msgLen = 0#32 ∨
          s.master.phase = 0xC#4 ∧ ¬ (s.master.cursor + 1#32 < s.master.msgLen))) ∨
      (t.master.state = .fault ∧ s.master.state = .running ∧ s.choice.turn = .master)) ∧
    (t.slave.state = s.slave.state ∨
      (t.slave.state = .running ∧ s.slave.state = .idle ∧ s.slave.replyLen ≠ 0#32 ∧
        s.choice.hostOp = some .hWrSStart) ∨
      (t.slave.state = .idle ∧ s.choice.hostOp = some .hWrSStop) ∨
      (t.slave.state = .fault ∧ s.slave.state = .running ∧ s.choice.turn = .slave))

/-- R232: with both fault parameters false no exception is ever raised. -/
def Obligations.NoFaultWithoutParameters : Prop :=
  ∀ (k : Nat) (s t : State), s.cfg.setupFaults = false → s.cfg.ioFaults = false → Runs k s t →
    t.cfg = s.cfg ∧ (s.master.state ≠ .fault → t.master.state ≠ .fault) ∧
      (s.slave.state ≠ .fault → t.slave.state ≠ .fault)

/-- R94, R203, R271: no action writes an engine's length or buffer while it runs, nor the timing policy while either runs. -/
def Obligations.FrozenWhileRunning : Prop :=
  ∀ s t : State, step s = .next t →
    (s.master.state = .running → t.master.msgLen = s.master.msgLen ∧ ∀ a, t.master.msg.read a = s.master.msg.read a) ∧
    (s.slave.state = .running →
      t.slave.replyLen = s.slave.replyLen ∧ ∀ a, t.slave.reply.read a = s.slave.reply.read a) ∧
    (s.master.state = .running ∨ s.slave.state = .running → t.tp = s.tp)

/-- The order of the phases (R56, R130): an engine's own action moves it to a phase that its current micro-operation names, and no other agent moves it but the host's START and STOP. -/
def Obligations.PhaseOrder : Prop :=
  ∀ s t : State, step s = .next t →
    (t.master.phase = s.master.phase ∨
      (s.choice.turn = .master ∧ s.master.state = .running ∧ t.master.phase ∈ masterSuccessors s.master.phase) ∨
      (s.choice.hostOp = some .hWrMStart ∧ t.master.phase = 0x1#4 ∧ t.master.state = .running) ∨
      (s.choice.hostOp = some .hWrMStop ∧ t.master.phase = 0x0#4)) ∧
    (t.slave.phase = s.slave.phase ∨
      (s.choice.turn = .slave ∧ s.slave.state = .running ∧ t.slave.phase ∈ slaveSuccessors s.slave.phase) ∨
      (s.choice.hostOp = some .hWrSStart ∧ t.slave.phase = 0x1#4 ∧ t.slave.state = .running) ∨
      (s.choice.hostOp = some .hWrSStop ∧ t.slave.phase = 0x0#4))

/-- R270, R83: a host write that its rule takes is seen by the next read: of a byte, by a read of its entry and by no read of another written entry (an unwritten one reads as any byte, log 5); of a length or a timing register, by a read of it.
A buffer or a length asks that its own engine is not RUNNING, the timing policy that neither is (R199 to R207). -/
def Obligations.HostReadsBack : Prop :=
  ∀ s : State,
    (s.master.state ≠ .running →
      (∀ (i j : BitVec 10) (v : Byte), i.toNat < s.cfg.msgCap → ∃ t,
        exec (.hWrMMsg i v) s = .next t ∧ hostRead (msgAddr i) t = v.setWidth 32 ∧
        (j ≠ i → s.master.msg.read j.toNat ≠ none → hostRead (msgAddr j) t = hostRead (msgAddr j) s) ∧
        (s.slave.reply.read j.toNat ≠ none → hostRead (replyAddr j) t = hostRead (replyAddr j) s)) ∧
      (∀ n : Word, n.toNat ≤ s.cfg.msgCap → ∃ t, exec (.hWrMMsgLen n) s = .next t ∧ hostRead 0x0008#16 t = n)) ∧
    (s.slave.state ≠ .running →
      (∀ (i j : BitVec 10) (v : Byte), i.toNat < s.cfg.replyCap → ∃ t,
        exec (.hWrSReply i v) s = .next t ∧ hostRead (replyAddr i) t = v.setWidth 32 ∧
        (j ≠ i → s.slave.reply.read j.toNat ≠ none → hostRead (replyAddr j) t = hostRead (replyAddr j) s) ∧
        (s.master.msg.read j.toNat ≠ none → hostRead (msgAddr j) t = hostRead (msgAddr j) s)) ∧
      (∀ n : Word, n.toNat ≤ s.cfg.replyCap → ∃ t, exec (.hWrSReplyLen n) s = .next t ∧ hostRead 0x0108#16 t = n)) ∧
    (s.master.state ≠ .running → s.slave.state ≠ .running → ∀ x : Word,
      (∃ t, exec (.hWrTpBitPeriod x) s = .next t ∧ hostRead 0x0200#16 t = x ∧
        (hostRead 0x0204#16 t).toNat = x.toNat / 4 ∧ (hostRead 0x0208#16 t).toNat = x.toNat / 2) ∧
      (∃ t, exec (.hWrTpSampleSettle x) s = .next t ∧ hostRead 0x020C#16 t = x) ∧
      (∃ t, exec (.hWrTpStabilize x) s = .next t ∧ hostRead 0x0210#16 t = x) ∧
      (∃ t, exec (.hWrTpEdgeWait x) s = .next t ∧ hostRead 0x0214#16 t = x))

/-- R18, R49: the operations on bits and the derived periods. -/
def Obligations.ValueOperations : Prop :=
  (∀ (v : Byte) (b : BitIndex), (byteBit v b).toNat = v.toNat / 2 ^ b.toNat % 2) ∧
  (∀ (v : Byte) (b : BitIndex) (x : Bool),
    (setByteBit v b x).toNat + (byteBit v b).toNat * 2 ^ b.toNat = v.toNat + x.toNat * 2 ^ b.toNat) ∧
  (∀ tp : Timing, tp.quarter.toNat = tp.bitPeriod.toNat / 4 ∧ tp.half.toNat = tp.bitPeriod.toNat / 2 ∧
    tp.edgeTimeout.toNat = max tp.edgeWait.toNat 1) ∧
  (∀ c len : Word, len ≠ 0#32 → (cursorNext c len).toNat = (c.toNat + 1) % len.toNat)

/-! ## Sessions -/

/-- R144, R280: the master's timeline without jitter, from M.ACQUIRE at tick T0 for a message of N ≥ 1 bytes: the tick of every phase and of every report, whatever the slave, the host's other operations and the order of actions.
DONE comes not before T0 + 8·N·D, the tick of the last report, whose action ends the session; that choices take the session there is MessageCompletes. -/
def Obligations.MasterTimeline : Prop :=
  ∀ (k : Nat) (s t : State), s.cfg.Quiet → s.master.state = .running → s.master.phase = 0x1#4 →
    s.master.msgLen ≠ 0#32 → k ≤ s.script.length → (∀ c ∈ s.script.take k, c.noMasterControl) → Runs k s t →
    let q := s.tp.bitPeriod.toNat / 4
    let h := s.tp.bitPeriod.toNat / 2
    let d := 2 * q + h + s.tp.sampleSettle.toNat
    let n := s.master.msgLen.toNat
    let begun := s.now + 8 * d * t.master.cursor.toNat
    let round := begun + d * (7 - t.master.bit.toNat)
    (t.master.state = .running ∧ (
      (t.master.phase = 0x1#4 ∧ t.now = s.now ∧ t.master.reports = s.master.reports) ∨
      (t.master.cursor.toNat < n ∧
        (∃ rs, t.master.reports = s.master.reports ++ rs ∧ rs.length = t.master.cursor.toNat ∧
          ∀ j (hj : j < rs.length), rs[j].t = s.now + 8 * d * (j + 1) ∧ rs[j].idx.toNat = j) ∧
        ((t.master.phase = 0x2#4 ∧ t.now = begun) ∨
         (t.master.phase = 0x3#4 ∧ t.now = round) ∨
         (t.master.phase = 0x4#4 ∧ t.now + t.master.timer = round + q) ∨
         (t.master.phase = 0x5#4 ∧ t.now = round + q) ∨
         (t.master.phase = 0x6#4 ∧ t.now + t.master.timer = round + q + h) ∨
         (t.master.phase = 0x7#4 ∧ t.now = round + q + h) ∨
         (t.master.phase = 0x8#4 ∧ t.now + t.master.timer = round + 2 * q + h) ∨
         (t.master.phase = 0x9#4 ∧ t.now + t.master.timer = round + d) ∨
         (t.master.phase = 0xA#4 ∧ t.now = round + d) ∨
         (t.master.phase = 0xB#4 ∧ t.now = round + d) ∨
         (t.master.phase = 0xC#4 ∧ t.now = begun + 8 * d))))) ∨
    (t.master.state = .done ∧ s.now + 8 * d * n ≤ t.now ∧ t.master.cursor.toNat = n ∧
      (∃ rs, t.master.reports = s.master.reports ++ rs ∧ rs.length = n ∧
        ∀ j (hj : j < rs.length), rs[j].t = s.now + 8 * d * (j + 1) ∧ rs[j].idx.toNat = j))

/-- R144, R280, R274 (K1, "the master reaches DONE"): from every phase of a RUNNING master, beside a slave that runs or not, there are choices that take the session to DONE, by actions of the two engines and of time alone; from M.ACQUIRE at tick T0 they do so at tick T0 + 8·N·D with N reports more, from a later phase with a report for every byte left.
Whatever the parameters but LAT_MIN ≤ LAT_MAX: the choices draw no jitter and no failure.
The entries of the message are written, and while the slave runs those of its reply (log 5); the bounds on the cursors and phases are those of a legal state (log 15). -/
def Obligations.MessageCompletes : Prop :=
  ∀ s : State, s.master.state = .running → s.master.phase ≠ 0x0#4 → s.master.phase.toNat ≤ 0xC →
    (s.master.phase ≠ 0x1#4 → s.master.cursor.toNat < s.master.msgLen.toNat) →
    (∀ i, i < s.master.msgLen.toNat → s.master.msg.read i ≠ none) →
    s.slave.phase.toNat ≤ 0x8 → (∀ x, s.cfg.latMax = some x → s.cfg.latMin ≤ x) →
    (s.slave.state = .running → s.slave.replyLen ≠ 0#32 ∧
      (∀ i, i < s.slave.replyLen.toNat → s.slave.reply.read i ≠ none) ∧
      (s.slave.phase ≠ 0x1#4 → s.slave.cursor.toNat < s.slave.replyLen.toNat)) →
    let d := 2 * (s.tp.bitPeriod.toNat / 4) + s.tp.bitPeriod.toNat / 2 + s.tp.sampleSettle.toNat
    let n := s.master.msgLen.toNat
    ∃ script t, Runs script.length { s with script := script } t ∧
      (∀ c ∈ script, c.turn ∈ [Turn.master, Turn.slave, Turn.time]) ∧ t.master.state = .done ∧
      (s.master.phase = 0x1#4 →
        t.now = s.now + 8 * d * n ∧ t.master.reports.length = s.master.reports.length + n) ∧
      (s.master.phase ≠ 0x1#4 →
        t.master.reports.length = s.master.reports.length + (n - s.master.cursor.toNat))

/-- R145: the master does nothing that depends on the slave.
Two machines that agree on the master's own inputs (its registers, message, timing policy and lines, and the tick), whatever their slaves, SO, other host operations and orders of actions, agree at every tick's end on the master's registers but M.RX, on its reports but `rx`, and on CLK and MO. -/
def Obligations.MasterIndependentOfSlave : Prop :=
  ∀ (k₁ k₂ : Nat) (s₁ s₂ t₁ t₂ : State),
    s₁.cfg.Quiet → s₂.cfg.Quiet → s₁.master.state = .running → s₁.masterView = s₂.masterView → s₁.now = s₂.now →
    s₁.tp = s₂.tp → s₁.master.msgLen = s₂.master.msgLen → s₁.master.msg = s₂.master.msg →
    k₁ ≤ s₁.script.length → (∀ c ∈ s₁.script.take k₁, c.noMasterControl) →
    k₂ ≤ s₂.script.length → (∀ c ∈ s₂.script.take k₂, c.noMasterControl) →
    Runs k₁ s₁ t₁ → Runs k₂ s₂ t₂ → t₁.now = t₂.now → masterUrgent t₁ = false → masterUrgent t₂ = false →
    t₁.masterView = t₂.masterView

/-- R274, the timing contract: from the master's first M.CLK_HI under the premises P1 to P6, at every moment of every run, whatever the jitter, the latencies, TP.EDGE_WAIT and the order of actions, the reports so far are those of K1 and K2, the slave's report `j` comes no later than the master's, no edge is lost, and at DONE both have all N and K3 holds.
It does not say that the master gets there: MessageCompletes does, for the state it starts from and for every later one. -/
def Obligations.TimingContract : Prop :=
  ∀ (k : Nat) (s t : State) (msg reply : List Byte) (c0 : Nat), ContractStart s msg reply c0 →
    k ≤ s.script.length → (∀ c ∈ s.script.take k, c.noControl) → Runs k s t →
    ∃ m v : Nat, m ≤ v ∧ v ≤ msg.length ∧
      t.master.reports.map Report.body =
        s.master.reports.map Report.body ++ (List.range m).map (contractMasterReport msg reply c0) ∧
      t.slave.reports.map Report.body =
        s.slave.reports.map Report.body ++ (List.range v).map (contractSlaveReport msg reply c0) ∧
      t.history = s.history ∧ t.slave.state = .running ∧
      (t.master.state = .running ∨
        (t.master.state = .done ∧ m = msg.length ∧ v = msg.length ∧
          t.slave.phase ∈ [SPhase.awaitEdge, SPhase.retry] ∧ t.slave.bit = 7#3 ∧ t.slave.edgePend = false ∧
          t.slave.cursor = BitVec.ofNat 32 ((c0 + msg.length) % reply.length) ∧
          t.lines.so = byteBit (replyByte reply (c0 + msg.length)) 7#3))
end

