-- ==== Sys2Proof/Laws/Decode.lean ====
section
/-! SUPPORT. The fields of a word are where the encoder put them, and which codes the two engines' decoders accept. -/

namespace Sys2Proof

/-! ## The codes as numerals, so that simp compares them -/

@[simp] theorem MPhase.idle_code : MPhase.idle = 0x0#4 := rfl
@[simp] theorem MPhase.acquire_code : MPhase.acquire = 0x1#4 := rfl
@[simp] theorem MPhase.load_code : MPhase.load = 0x2#4 := rfl
@[simp] theorem MPhase.driveMo_code : MPhase.driveMo = 0x3#4 := rfl
@[simp] theorem MPhase.waitSetup_code : MPhase.waitSetup = 0x4#4 := rfl
@[simp] theorem MPhase.clkHi_code : MPhase.clkHi = 0x5#4 := rfl
@[simp] theorem MPhase.waitHigh_code : MPhase.waitHigh = 0x6#4 := rfl
@[simp] theorem MPhase.clkLo_code : MPhase.clkLo = 0x7#4 := rfl
@[simp] theorem MPhase.waitLow_code : MPhase.waitLow = 0x8#4 := rfl
@[simp] theorem MPhase.waitSettle_code : MPhase.waitSettle = 0x9#4 := rfl
@[simp] theorem MPhase.sample_code : MPhase.sample = 0xA#4 := rfl
@[simp] theorem MPhase.nextBit_code : MPhase.nextBit = 0xB#4 := rfl
@[simp] theorem MPhase.report_code : MPhase.report = 0xC#4 := rfl

@[simp] theorem SPhase.idle_code : SPhase.idle = 0x0#4 := rfl
@[simp] theorem SPhase.acquire_code : SPhase.acquire = 0x1#4 := rfl
@[simp] theorem SPhase.initial_code : SPhase.initial = 0x2#4 := rfl
@[simp] theorem SPhase.awaitEdge_code : SPhase.awaitEdge = 0x3#4 := rfl
@[simp] theorem SPhase.retry_code : SPhase.retry = 0x4#4 := rfl
@[simp] theorem SPhase.sample_code : SPhase.sample = 0x5#4 := rfl
@[simp] theorem SPhase.driveNext_code : SPhase.driveNext = 0x6#4 := rfl
@[simp] theorem SPhase.stabilize_code : SPhase.stabilize = 0x7#4 := rfl
@[simp] theorem SPhase.byteComplete_code : SPhase.byteComplete = 0x8#4 := rfl

/-! ## Fields -/

@[simp] theorem decodeMow_master (p : PhaseCode) : decodeMow (mowOf 0#1 p) = decodeMaster p := by
  revert p; decide

@[simp] theorem decodeMow_slave (p : PhaseCode) : decodeMow (mowOf 1#1 p) = decodeSlave p := by
  revert p; decide

@[simp] theorem htwOf_wr (wr : BitVec 1) (a : HostAddr) (d : Word) : (htwOf wr a d).extractLsb' 48 1 = wr := by
  ext i hi
  obtain rfl : i = 0 := by omega
  simp only [htwOf, BitVec.getElem_extractLsb', BitVec.getLsbD_append]
  simp

@[simp] theorem htwOf_addr (wr : BitVec 1) (a : HostAddr) (d : Word) : (htwOf wr a d).extractLsb' 32 16 = a := by
  ext i hi
  simp only [htwOf, BitVec.getElem_extractLsb', BitVec.getLsbD_append]
  simp [BitVec.getLsbD_eq_getElem, hi]

@[simp] theorem htwOf_data (wr : BitVec 1) (a : HostAddr) (d : Word) : (htwOf wr a d).extractLsb' 0 32 = d := by
  ext i hi
  simp only [htwOf, BitVec.getElem_extractLsb', BitVec.getLsbD_append]
  simp [hi, BitVec.getLsbD_eq_getElem]

/-- A write word decodes by its address and data (R108). -/
@[simp] theorem decodeHtw_write (a : HostAddr) (d : Word) : decodeHtw (htwOf 1#1 a d) = decodeWrite a d := by
  simp [decodeHtw]

/-- A read word decodes by its address (R108 row 1). -/
@[simp] theorem decodeHtw_read (a : HostAddr) (d : Word) : decodeHtw (htwOf 0#1 a d) = .hRd a := by
  simp [decodeHtw]

@[simp] theorem msgAddr_window (i : BitVec 10) : addrWindow (msgAddr i) = 1#4 := by
  revert i; decide

@[simp] theorem msgAddr_index (i : BitVec 10) : addrIndex (msgAddr i) = i := by
  revert i; decide

@[simp] theorem msgAddr_aligned (i : BitVec 10) : addrAligned (msgAddr i) = true := by
  revert i; decide

@[simp] theorem replyAddr_window (i : BitVec 10) : addrWindow (replyAddr i) = 2#4 := by
  revert i; decide

@[simp] theorem replyAddr_index (i : BitVec 10) : addrIndex (replyAddr i) = i := by
  revert i; decide

@[simp] theorem replyAddr_aligned (i : BitVec 10) : addrAligned (replyAddr i) = true := by
  revert i; decide

/-- The master's decoder accepts 0x0 to 0xC and refuses the rest by name (R103, R105). -/
theorem decodeMaster_accepts (p : PhaseCode) : (decodeMaster p).toOption.isSome = decide (p.toNat ≤ 0xC) := by
  revert p; decide

/-- The slave's decoder accepts 0x0 to 0x8 and refuses the rest by name (R104, R105). -/
theorem decodeSlave_accepts (p : PhaseCode) : (decodeSlave p).toOption.isSome = decide (p.toNat ≤ 0x8) := by
  revert p; decide

/-- A code in the master's range names a micro-operation. -/
theorem decodeMaster_ok (p : PhaseCode) (h : p.toNat ≤ 0xC) : ∃ i, decodeMaster p = .ok i := by
  have := decodeMaster_accepts p
  cases hd : decodeMaster p with
  | ok i => exact ⟨i, rfl⟩
  | error e => simp [hd, Except.toOption, h] at this

/-- A code in the slave's range names a micro-operation. -/
theorem decodeSlave_ok (p : PhaseCode) (h : p.toNat ≤ 0x8) : ∃ i, decodeSlave p = .ok i := by
  have := decodeSlave_accepts p
  cases hd : decodeSlave p with
  | ok i => exact ⟨i, rfl⟩
  | error e => simp [hd, Except.toOption, h] at this

/-- A code that names a micro-operation is in the master's range. -/
theorem decodeMaster_range {p : PhaseCode} {i : Instr} (h : decodeMaster p = .ok i) : p.toNat ≤ 0xC := by
  have := decodeMaster_accepts p
  simpa [h, Except.toOption] using this

/-- A code that names a micro-operation is in the slave's range. -/
theorem decodeSlave_range {p : PhaseCode} {i : Instr} (h : decodeSlave p = .ok i) : p.toNat ≤ 0x8 := by
  have := decodeSlave_accepts p
  simpa [h, Except.toOption] using this

/-- The master's codes and the micro-operations they name (R103). -/
inductive MasterCode (p : PhaseCode) : Instr → Prop
  | idle (hp : p = 0x0#4) : MasterCode p .mIdle
  | acquire (hp : p = 0x1#4) : MasterCode p .mAcquire
  | load (hp : p = 0x2#4) : MasterCode p .mLoad
  | driveMo (hp : p = 0x3#4) : MasterCode p .mDriveMo
  | waitSetup (hp : p = 0x4#4) : MasterCode p .mWaitSetup
  | clkHi (hp : p = 0x5#4) : MasterCode p .mClkHi
  | waitHigh (hp : p = 0x6#4) : MasterCode p .mWaitHigh
  | clkLo (hp : p = 0x7#4) : MasterCode p .mClkLo
  | waitLow (hp : p = 0x8#4) : MasterCode p .mWaitLow
  | waitSettle (hp : p = 0x9#4) : MasterCode p .mWaitSettle
  | sample (hp : p = 0xA#4) : MasterCode p .mSample
  | nextBit (hp : p = 0xB#4) : MasterCode p .mNextBit
  | report (hp : p = 0xC#4) : MasterCode p .mReport

/-- The slave's codes and the micro-operations they name (R104). -/
inductive SlaveCode (p : PhaseCode) : Instr → Prop
  | idle (hp : p = 0x0#4) : SlaveCode p .sIdle
  | acquire (hp : p = 0x1#4) : SlaveCode p .sAcquire
  | initial (hp : p = 0x2#4) : SlaveCode p .sInitial
  | awaitEdge (hp : p = 0x3#4) : SlaveCode p .sAwaitEdge
  | retry (hp : p = 0x4#4) : SlaveCode p .sRetry
  | sample (hp : p = 0x5#4) : SlaveCode p .sSample
  | driveNext (hp : p = 0x6#4) : SlaveCode p .sDriveNext
  | stabilize (hp : p = 0x7#4) : SlaveCode p .sStabilize
  | byteComplete (hp : p = 0x8#4) : SlaveCode p .sByteComplete

/-- What the master's decoder accepts is a code of the master. -/
theorem decodeMaster_code {p : PhaseCode} {i : Instr} (h : decodeMaster p = .ok i) : MasterCode p i := by
  have hp := decodeMaster_range h
  generalize hn : p.toNat = n at hp
  obtain rfl : p = BitVec.ofNat 4 n := by rw [← hn]; simp
  interval_cases n <;> (cases h; constructor; rfl)

/-- What the slave's decoder accepts is a code of the slave. -/
theorem decodeSlave_code {p : PhaseCode} {i : Instr} (h : decodeSlave p = .ok i) : SlaveCode p i := by
  have hp := decodeSlave_range h
  generalize hn : p.toNat = n at hp
  obtain rfl : p = BitVec.ofNat 4 n := by rw [← hn]; simp
  interval_cases n <;> (cases h; constructor; rfl)

/-- What holds of the operation of every row of R108 holds of what a host word names. -/
theorem decodeHtw_elim {P : Instr → Prop} (rd : ∀ a, P (.hRd a)) (mStop : P .hWrMStop) (mStart : P .hWrMStart)
    (sStop : P .hWrSStop) (sStart : P .hWrSStart) (mLen : ∀ n, P (.hWrMMsgLen n)) (sLen : ∀ n, P (.hWrSReplyLen n))
    (period : ∀ p, P (.hWrTpBitPeriod p)) (settle : ∀ e, P (.hWrTpSampleSettle e))
    (stabilize : ∀ d, P (.hWrTpStabilize d)) (edgeWait : ∀ x, P (.hWrTpEdgeWait x)) (msg : ∀ i v, P (.hWrMMsg i v))
    (reply : ∀ i v, P (.hWrSReply i v)) (ignored : ∀ a d, P (.hWrIgnored a d)) (w : Htw) : P (decodeHtw w) := by
  unfold decodeHtw decodeWrite
  repeat' refine iteInduction (fun _ => ?_) (fun _ => ?_)
  · exact rd _
  · exact mStop
  · exact mStart
  · exact sStop
  · exact sStart
  · exact mLen _
  · exact sLen _
  · exact period _
  · exact settle _
  · exact stabilize _
  · exact edgeWait _
  · exact msg _ _
  · exact reply _ _
  · exact ignored _ _

/-- A host word names a host operation, never a micro-operation (R109). -/
theorem decodeHtw_isHostOp (w : Htw) : (decodeHtw w).isHostOp = true := by
  apply decodeHtw_elim (P := fun i => i.isHostOp = true) <;> intros <;> rfl

end Sys2Proof
end

