-- ==== Sys2Proof/Laws/Memory.lean ====
section
/-! SUPPORT. Buffers: a write keeps the canonical form and the capacity, a read after a write gives the value written, and a write leaves every other entry alone. -/

namespace Sys2Proof.Machine

@[simp] theorem memory_read_nil (a : Nat) : Memory.read [] a = none := rfl

@[simp] theorem memory_read_write_same (m : Memory) (a : Nat) (v : Byte) : (Memory.write m a v).read a = some v := by
  induction m with
  | nil => simp [Memory.write, Memory.read]
  | cons c rest ih =>
    obtain ⟨b, w⟩ := c
    simp only [Memory.write]
    split
    · simp [Memory.read]
    · split
      · simp [Memory.read]
      · simp [Memory.read, *]

theorem memory_read_risesAbove {m : Memory} {b a : Nat} (h : Memory.risesAbove b m = true) (hab : a ≤ b) :
    m.read a = none := by
  induction m generalizing b with
  | nil => rfl
  | cons c rest ih =>
    obtain ⟨x, w⟩ := c
    simp only [Memory.risesAbove, Bool.and_eq_true, decide_eq_true_eq] at h
    have hne : a ≠ x := by omega
    simp only [Memory.read, hne, if_false]
    exact ih h.2 (by omega)

theorem memory_read_write_other (m : Memory) (a b : Nat) (v : Byte) (h : b ≠ a) :
    (Memory.write m a v).read b = m.read b := by
  induction m with
  | nil => simp [Memory.write, Memory.read, h]
  | cons c rest ih =>
    obtain ⟨x, w⟩ := c
    simp only [Memory.write]
    split
    · simp [Memory.read, h]
    · split
      · subst_vars; simp [Memory.read, h]
      · simp [Memory.read, ih]

theorem memory_risesAbove_write {m : Memory} {k a : Nat} (v : Byte) (h : Memory.risesAbove k m = true) (hk : k < a) :
    Memory.risesAbove k (Memory.write m a v) = true := by
  induction m generalizing k with
  | nil => simp [Memory.write, Memory.risesAbove, hk]
  | cons c rest ih =>
    obtain ⟨x, w⟩ := c
    simp only [Memory.risesAbove, Bool.and_eq_true, decide_eq_true_eq] at h
    simp only [Memory.write]
    split
    · simp [Memory.risesAbove, *]
    · split
      · subst_vars; simp [Memory.risesAbove, *]
      · simp only [Memory.risesAbove, Bool.and_eq_true, decide_eq_true_eq]
        exact ⟨h.1, ih h.2 (by omega)⟩

/-- A write keeps the canonical form. -/
theorem memory_wf_write {m : Memory} (a : Nat) (v : Byte) (h : m.wf = true) : (Memory.write m a v).wf = true := by
  cases m with
  | nil => simp [Memory.write, Memory.wf, Memory.risesAbove]
  | cons c rest =>
    obtain ⟨x, w⟩ := c
    simp only [Memory.wf] at h
    simp only [Memory.write]
    split
    · simp [Memory.wf, Memory.risesAbove, *]
    · split
      · subst_vars; simpa [Memory.wf] using h
      · exact memory_risesAbove_write v h (by omega)

/-- A write below the capacity keeps every entry below it. -/
theorem memory_below_write {m : Memory} {cap a : Nat} (v : Byte) (h : m.below cap = true) (ha : a < cap) :
    (Memory.write m a v).below cap = true := by
  induction m with
  | nil => simp [Memory.write, Memory.below, ha]
  | cons c rest ih =>
    obtain ⟨x, w⟩ := c
    simp only [Memory.below, List.all_cons, Bool.and_eq_true, decide_eq_true_eq] at h ih
    simp only [Memory.write]
    split
    · simp [Memory.below, ha, h.1, h.2]
    · split
      · simp [Memory.below, ha, h.2]
      · simp only [Memory.below, List.all_cons, Bool.and_eq_true, decide_eq_true_eq]
        exact ⟨h.1, ih h.2⟩

/-- The empty buffer of reset has the canonical form. -/
@[simp] theorem memory_wf_nil : Memory.wf [] = true := rfl

@[simp] theorem memory_below_nil (cap : Nat) : Memory.below cap [] = true := rfl

end Sys2Proof.Machine
end

