-- ==== Sys2Proof/Laws/State.lean ====
section
/-! SUPPORT. What each shared update leaves in each field of State: one lemma per field, tagged simp, so that no proof unfolds an update. -/

namespace Sys2Proof.Machine

/-! ## advance -/

@[simp] theorem advance_lines (s : State) : (s.advance).lines = s.lines := rfl
@[simp] theorem advance_master (s : State) : (s.advance).master = s.master := rfl
@[simp] theorem advance_slave (s : State) : (s.advance).slave = s.slave := rfl
@[simp] theorem advance_tp (s : State) : (s.advance).tp = s.tp := rfl
@[simp] theorem advance_now (s : State) : (s.advance).now = s.now := rfl
@[simp] theorem advance_history (s : State) : (s.advance).history = s.history := rfl
@[simp] theorem advance_cfg (s : State) : (s.advance).cfg = s.cfg := rfl
@[simp] theorem advance_rdata (s : State) : (s.advance).rdata = s.rdata := rfl
@[simp] theorem advance_script (s : State) : (s.advance).script = s.script.tail := rfl
@[simp] theorem advance_seq (s : State) : (s.advance).seq = s.seq + 1 := rfl

/-! ## edgeDetect (41_slave.md R160): only the latch and the history -/

@[simp] theorem edgeDetect_lines (s : State) : (edgeDetect s).lines = s.lines := by
  unfold edgeDetect; split
  · rfl
  · split <;> rfl
@[simp] theorem edgeDetect_master (s : State) : (edgeDetect s).master = s.master := by
  unfold edgeDetect; split
  · rfl
  · split <;> rfl
@[simp] theorem edgeDetect_slave_state (s : State) : (edgeDetect s).slave.state = s.slave.state := by
  unfold edgeDetect; split
  · rfl
  · split <;> rfl
@[simp] theorem edgeDetect_slave_phase (s : State) : (edgeDetect s).slave.phase = s.slave.phase := by
  unfold edgeDetect; split
  · rfl
  · split <;> rfl
@[simp] theorem edgeDetect_slave_bit (s : State) : (edgeDetect s).slave.bit = s.slave.bit := by
  unfold edgeDetect; split
  · rfl
  · split <;> rfl
@[simp] theorem edgeDetect_slave_cursor (s : State) : (edgeDetect s).slave.cursor = s.slave.cursor := by
  unfold edgeDetect; split
  · rfl
  · split <;> rfl
@[simp] theorem edgeDetect_slave_tx (s : State) : (edgeDetect s).slave.tx = s.slave.tx := by
  unfold edgeDetect; split
  · rfl
  · split <;> rfl
@[simp] theorem edgeDetect_slave_rx (s : State) : (edgeDetect s).slave.rx = s.slave.rx := by
  unfold edgeDetect; split
  · rfl
  · split <;> rfl
@[simp] theorem edgeDetect_slave_timer (s : State) : (edgeDetect s).slave.timer = s.slave.timer := by
  unfold edgeDetect; split
  · rfl
  · split <;> rfl
@[simp] theorem edgeDetect_slave_totimer (s : State) : (edgeDetect s).slave.totimer = s.slave.totimer := by
  unfold edgeDetect; split
  · rfl
  · split <;> rfl
@[simp] theorem edgeDetect_slave_cause (s : State) : (edgeDetect s).slave.cause = s.slave.cause := by
  unfold edgeDetect; split
  · rfl
  · split <;> rfl
@[simp] theorem edgeDetect_slave_fline (s : State) : (edgeDetect s).slave.fline = s.slave.fline := by
  unfold edgeDetect; split
  · rfl
  · split <;> rfl
@[simp] theorem edgeDetect_slave_replyLen (s : State) : (edgeDetect s).slave.replyLen = s.slave.replyLen := by
  unfold edgeDetect; split
  · rfl
  · split <;> rfl
@[simp] theorem edgeDetect_slave_reply (s : State) : (edgeDetect s).slave.reply = s.slave.reply := by
  unfold edgeDetect; split
  · rfl
  · split <;> rfl
@[simp] theorem edgeDetect_slave_reports (s : State) : (edgeDetect s).slave.reports = s.slave.reports := by
  unfold edgeDetect; split
  · rfl
  · split <;> rfl
@[simp] theorem edgeDetect_tp (s : State) : (edgeDetect s).tp = s.tp := by
  unfold edgeDetect; split
  · rfl
  · split <;> rfl
@[simp] theorem edgeDetect_now (s : State) : (edgeDetect s).now = s.now := by
  unfold edgeDetect; split
  · rfl
  · split <;> rfl
@[simp] theorem edgeDetect_cfg (s : State) : (edgeDetect s).cfg = s.cfg := by
  unfold edgeDetect; split
  · rfl
  · split <;> rfl
@[simp] theorem edgeDetect_rdata (s : State) : (edgeDetect s).rdata = s.rdata := by
  unfold edgeDetect; split
  · rfl
  · split <;> rfl
@[simp] theorem edgeDetect_script (s : State) : (edgeDetect s).script = s.script := by
  unfold edgeDetect; split
  · rfl
  · split <;> rfl
@[simp] theorem edgeDetect_seq (s : State) : (edgeDetect s).seq = s.seq := by
  unfold edgeDetect; split
  · rfl
  · split <;> rfl

/-! ## driveLine (20_memory.md R74): the line, the latch and the history -/

@[simp] theorem driveLine_master (l : Line) (v : Bool) (s : State) : (driveLine l v s).master = s.master := by
  unfold driveLine; dsimp only; split <;> simp
@[simp] theorem driveLine_slave_state (l : Line) (v : Bool) (s : State) : (driveLine l v s).slave.state = s.slave.state := by
  unfold driveLine; dsimp only; split <;> simp
@[simp] theorem driveLine_slave_phase (l : Line) (v : Bool) (s : State) : (driveLine l v s).slave.phase = s.slave.phase := by
  unfold driveLine; dsimp only; split <;> simp
@[simp] theorem driveLine_slave_bit (l : Line) (v : Bool) (s : State) : (driveLine l v s).slave.bit = s.slave.bit := by
  unfold driveLine; dsimp only; split <;> simp
@[simp] theorem driveLine_slave_cursor (l : Line) (v : Bool) (s : State) : (driveLine l v s).slave.cursor = s.slave.cursor := by
  unfold driveLine; dsimp only; split <;> simp
@[simp] theorem driveLine_slave_tx (l : Line) (v : Bool) (s : State) : (driveLine l v s).slave.tx = s.slave.tx := by
  unfold driveLine; dsimp only; split <;> simp
@[simp] theorem driveLine_slave_rx (l : Line) (v : Bool) (s : State) : (driveLine l v s).slave.rx = s.slave.rx := by
  unfold driveLine; dsimp only; split <;> simp
@[simp] theorem driveLine_slave_timer (l : Line) (v : Bool) (s : State) : (driveLine l v s).slave.timer = s.slave.timer := by
  unfold driveLine; dsimp only; split <;> simp
@[simp] theorem driveLine_slave_totimer (l : Line) (v : Bool) (s : State) : (driveLine l v s).slave.totimer = s.slave.totimer := by
  unfold driveLine; dsimp only; split <;> simp
@[simp] theorem driveLine_slave_cause (l : Line) (v : Bool) (s : State) : (driveLine l v s).slave.cause = s.slave.cause := by
  unfold driveLine; dsimp only; split <;> simp
@[simp] theorem driveLine_slave_fline (l : Line) (v : Bool) (s : State) : (driveLine l v s).slave.fline = s.slave.fline := by
  unfold driveLine; dsimp only; split <;> simp
@[simp] theorem driveLine_slave_replyLen (l : Line) (v : Bool) (s : State) : (driveLine l v s).slave.replyLen = s.slave.replyLen := by
  unfold driveLine; dsimp only; split <;> simp
@[simp] theorem driveLine_slave_reply (l : Line) (v : Bool) (s : State) : (driveLine l v s).slave.reply = s.slave.reply := by
  unfold driveLine; dsimp only; split <;> simp
@[simp] theorem driveLine_slave_reports (l : Line) (v : Bool) (s : State) : (driveLine l v s).slave.reports = s.slave.reports := by
  unfold driveLine; dsimp only; split <;> simp
@[simp] theorem driveLine_tp (l : Line) (v : Bool) (s : State) : (driveLine l v s).tp = s.tp := by
  unfold driveLine; dsimp only; split <;> simp
@[simp] theorem driveLine_now (l : Line) (v : Bool) (s : State) : (driveLine l v s).now = s.now := by
  unfold driveLine; dsimp only; split <;> simp
@[simp] theorem driveLine_cfg (l : Line) (v : Bool) (s : State) : (driveLine l v s).cfg = s.cfg := by
  unfold driveLine; dsimp only; split <;> simp
@[simp] theorem driveLine_rdata (l : Line) (v : Bool) (s : State) : (driveLine l v s).rdata = s.rdata := by
  unfold driveLine; dsimp only; split <;> simp
@[simp] theorem driveLine_script (l : Line) (v : Bool) (s : State) : (driveLine l v s).script = s.script := by
  unfold driveLine; dsimp only; split <;> simp
@[simp] theorem driveLine_seq (l : Line) (v : Bool) (s : State) : (driveLine l v s).seq = s.seq := by
  unfold driveLine; dsimp only; split <;> simp
@[simp] theorem driveLine_lines (l : Line) (v : Bool) (s : State) : (driveLine l v s).lines = s.lines.set l v := by
  unfold driveLine; dsimp only; split <;> simp

/-! ## raise (60_exceptions.md R233) -/

@[simp] theorem raise_master_lines (k : Cause) (l : Line) (s : State) : (raise .master k l s).lines = s.lines := rfl
@[simp] theorem raise_master_master_phase (k : Cause) (l : Line) (s : State) : (raise .master k l s).master.phase = s.master.phase := rfl
@[simp] theorem raise_master_master_bit (k : Cause) (l : Line) (s : State) : (raise .master k l s).master.bit = s.master.bit := rfl
@[simp] theorem raise_master_master_cursor (k : Cause) (l : Line) (s : State) : (raise .master k l s).master.cursor = s.master.cursor := rfl
@[simp] theorem raise_master_master_tx (k : Cause) (l : Line) (s : State) : (raise .master k l s).master.tx = s.master.tx := rfl
@[simp] theorem raise_master_master_rx (k : Cause) (l : Line) (s : State) : (raise .master k l s).master.rx = s.master.rx := rfl
@[simp] theorem raise_master_master_timer (k : Cause) (l : Line) (s : State) : (raise .master k l s).master.timer = s.master.timer := rfl
@[simp] theorem raise_master_master_msgLen (k : Cause) (l : Line) (s : State) : (raise .master k l s).master.msgLen = s.master.msgLen := rfl
@[simp] theorem raise_master_master_msg (k : Cause) (l : Line) (s : State) : (raise .master k l s).master.msg = s.master.msg := rfl
@[simp] theorem raise_master_master_reports (k : Cause) (l : Line) (s : State) : (raise .master k l s).master.reports = s.master.reports := rfl
@[simp] theorem raise_master_slave (k : Cause) (l : Line) (s : State) : (raise .master k l s).slave = s.slave := rfl
@[simp] theorem raise_master_tp (k : Cause) (l : Line) (s : State) : (raise .master k l s).tp = s.tp := rfl
@[simp] theorem raise_master_now (k : Cause) (l : Line) (s : State) : (raise .master k l s).now = s.now := rfl
@[simp] theorem raise_master_history (k : Cause) (l : Line) (s : State) : (raise .master k l s).history = s.history := rfl
@[simp] theorem raise_master_cfg (k : Cause) (l : Line) (s : State) : (raise .master k l s).cfg = s.cfg := rfl
@[simp] theorem raise_master_rdata (k : Cause) (l : Line) (s : State) : (raise .master k l s).rdata = s.rdata := rfl
@[simp] theorem raise_master_script (k : Cause) (l : Line) (s : State) : (raise .master k l s).script = s.script := rfl
@[simp] theorem raise_master_seq (k : Cause) (l : Line) (s : State) : (raise .master k l s).seq = s.seq := rfl
@[simp] theorem raise_master_master_state (k : Cause) (l : Line) (s : State) : (raise .master k l s).master.state = .fault := rfl
@[simp] theorem raise_master_master_cause (k : Cause) (l : Line) (s : State) : (raise .master k l s).master.cause = k := rfl
@[simp] theorem raise_master_master_fline (k : Cause) (l : Line) (s : State) : (raise .master k l s).master.fline = some l := rfl
@[simp] theorem raise_slave_lines (k : Cause) (l : Line) (s : State) : (raise .slave k l s).lines = s.lines := rfl
@[simp] theorem raise_slave_master (k : Cause) (l : Line) (s : State) : (raise .slave k l s).master = s.master := rfl
@[simp] theorem raise_slave_slave_phase (k : Cause) (l : Line) (s : State) : (raise .slave k l s).slave.phase = s.slave.phase := rfl
@[simp] theorem raise_slave_slave_bit (k : Cause) (l : Line) (s : State) : (raise .slave k l s).slave.bit = s.slave.bit := rfl
@[simp] theorem raise_slave_slave_cursor (k : Cause) (l : Line) (s : State) : (raise .slave k l s).slave.cursor = s.slave.cursor := rfl
@[simp] theorem raise_slave_slave_tx (k : Cause) (l : Line) (s : State) : (raise .slave k l s).slave.tx = s.slave.tx := rfl
@[simp] theorem raise_slave_slave_rx (k : Cause) (l : Line) (s : State) : (raise .slave k l s).slave.rx = s.slave.rx := rfl
@[simp] theorem raise_slave_slave_timer (k : Cause) (l : Line) (s : State) : (raise .slave k l s).slave.timer = s.slave.timer := rfl
@[simp] theorem raise_slave_slave_totimer (k : Cause) (l : Line) (s : State) : (raise .slave k l s).slave.totimer = s.slave.totimer := rfl
@[simp] theorem raise_slave_slave_replyLen (k : Cause) (l : Line) (s : State) : (raise .slave k l s).slave.replyLen = s.slave.replyLen := rfl
@[simp] theorem raise_slave_slave_reply (k : Cause) (l : Line) (s : State) : (raise .slave k l s).slave.reply = s.slave.reply := rfl
@[simp] theorem raise_slave_slave_edgePend (k : Cause) (l : Line) (s : State) : (raise .slave k l s).slave.edgePend = s.slave.edgePend := rfl
@[simp] theorem raise_slave_slave_edgeT (k : Cause) (l : Line) (s : State) : (raise .slave k l s).slave.edgeT = s.slave.edgeT := rfl
@[simp] theorem raise_slave_slave_reports (k : Cause) (l : Line) (s : State) : (raise .slave k l s).slave.reports = s.slave.reports := rfl
@[simp] theorem raise_slave_tp (k : Cause) (l : Line) (s : State) : (raise .slave k l s).tp = s.tp := rfl
@[simp] theorem raise_slave_now (k : Cause) (l : Line) (s : State) : (raise .slave k l s).now = s.now := rfl
@[simp] theorem raise_slave_history (k : Cause) (l : Line) (s : State) : (raise .slave k l s).history = s.history := rfl
@[simp] theorem raise_slave_cfg (k : Cause) (l : Line) (s : State) : (raise .slave k l s).cfg = s.cfg := rfl
@[simp] theorem raise_slave_rdata (k : Cause) (l : Line) (s : State) : (raise .slave k l s).rdata = s.rdata := rfl
@[simp] theorem raise_slave_script (k : Cause) (l : Line) (s : State) : (raise .slave k l s).script = s.script := rfl
@[simp] theorem raise_slave_seq (k : Cause) (l : Line) (s : State) : (raise .slave k l s).seq = s.seq := rfl
@[simp] theorem raise_slave_slave_state (k : Cause) (l : Line) (s : State) : (raise .slave k l s).slave.state = .fault := rfl
@[simp] theorem raise_slave_slave_cause (k : Cause) (l : Line) (s : State) : (raise .slave k l s).slave.cause = k := rfl
@[simp] theorem raise_slave_slave_fline (k : Cause) (l : Line) (s : State) : (raise .slave k l s).slave.fline = some l := rfl

/-! ## stopMaster, stopSlave (42_host_interface.md R195, R197) -/

@[simp] theorem stopMaster_lines (s : State) : (stopMaster s).lines = s.lines := rfl
@[simp] theorem stopMaster_master_bit (s : State) : (stopMaster s).master.bit = s.master.bit := rfl
@[simp] theorem stopMaster_master_cursor (s : State) : (stopMaster s).master.cursor = s.master.cursor := rfl
@[simp] theorem stopMaster_master_tx (s : State) : (stopMaster s).master.tx = s.master.tx := rfl
@[simp] theorem stopMaster_master_rx (s : State) : (stopMaster s).master.rx = s.master.rx := rfl
@[simp] theorem stopMaster_master_msgLen (s : State) : (stopMaster s).master.msgLen = s.master.msgLen := rfl
@[simp] theorem stopMaster_master_msg (s : State) : (stopMaster s).master.msg = s.master.msg := rfl
@[simp] theorem stopMaster_master_reports (s : State) : (stopMaster s).master.reports = s.master.reports := rfl
@[simp] theorem stopMaster_slave (s : State) : (stopMaster s).slave = s.slave := rfl
@[simp] theorem stopMaster_tp (s : State) : (stopMaster s).tp = s.tp := rfl
@[simp] theorem stopMaster_now (s : State) : (stopMaster s).now = s.now := rfl
@[simp] theorem stopMaster_history (s : State) : (stopMaster s).history = s.history := rfl
@[simp] theorem stopMaster_cfg (s : State) : (stopMaster s).cfg = s.cfg := rfl
@[simp] theorem stopMaster_rdata (s : State) : (stopMaster s).rdata = s.rdata := rfl
@[simp] theorem stopMaster_script (s : State) : (stopMaster s).script = s.script := rfl
@[simp] theorem stopMaster_seq (s : State) : (stopMaster s).seq = s.seq := rfl
@[simp] theorem stopMaster_master_state (s : State) : (stopMaster s).master.state = .idle := rfl
@[simp] theorem stopMaster_master_phase (s : State) : (stopMaster s).master.phase = 0#4 := rfl
@[simp] theorem stopMaster_master_cause (s : State) : (stopMaster s).master.cause = .none := rfl
@[simp] theorem stopMaster_master_fline (s : State) : (stopMaster s).master.fline = none := rfl
@[simp] theorem stopMaster_master_timer (s : State) : (stopMaster s).master.timer = 0 := rfl
@[simp] theorem stopSlave_lines (s : State) : (stopSlave s).lines = s.lines := rfl
@[simp] theorem stopSlave_master (s : State) : (stopSlave s).master = s.master := rfl
@[simp] theorem stopSlave_slave_bit (s : State) : (stopSlave s).slave.bit = s.slave.bit := rfl
@[simp] theorem stopSlave_slave_cursor (s : State) : (stopSlave s).slave.cursor = s.slave.cursor := rfl
@[simp] theorem stopSlave_slave_tx (s : State) : (stopSlave s).slave.tx = s.slave.tx := rfl
@[simp] theorem stopSlave_slave_rx (s : State) : (stopSlave s).slave.rx = s.slave.rx := rfl
@[simp] theorem stopSlave_slave_replyLen (s : State) : (stopSlave s).slave.replyLen = s.slave.replyLen := rfl
@[simp] theorem stopSlave_slave_reply (s : State) : (stopSlave s).slave.reply = s.slave.reply := rfl
@[simp] theorem stopSlave_slave_edgeT (s : State) : (stopSlave s).slave.edgeT = s.slave.edgeT := rfl
@[simp] theorem stopSlave_slave_reports (s : State) : (stopSlave s).slave.reports = s.slave.reports := rfl
@[simp] theorem stopSlave_tp (s : State) : (stopSlave s).tp = s.tp := rfl
@[simp] theorem stopSlave_now (s : State) : (stopSlave s).now = s.now := rfl
@[simp] theorem stopSlave_history (s : State) : (stopSlave s).history = s.history := rfl
@[simp] theorem stopSlave_cfg (s : State) : (stopSlave s).cfg = s.cfg := rfl
@[simp] theorem stopSlave_rdata (s : State) : (stopSlave s).rdata = s.rdata := rfl
@[simp] theorem stopSlave_script (s : State) : (stopSlave s).script = s.script := rfl
@[simp] theorem stopSlave_seq (s : State) : (stopSlave s).seq = s.seq := rfl
@[simp] theorem stopSlave_slave_state (s : State) : (stopSlave s).slave.state = .idle := rfl
@[simp] theorem stopSlave_slave_phase (s : State) : (stopSlave s).slave.phase = 0#4 := rfl
@[simp] theorem stopSlave_slave_cause (s : State) : (stopSlave s).slave.cause = .none := rfl
@[simp] theorem stopSlave_slave_fline (s : State) : (stopSlave s).slave.fline = none := rfl
@[simp] theorem stopSlave_slave_timer (s : State) : (stopSlave s).slave.timer = 0#32 := rfl
@[simp] theorem stopSlave_slave_totimer (s : State) : (stopSlave s).slave.totimer = 0#32 := rfl
@[simp] theorem stopSlave_slave_edgePend (s : State) : (stopSlave s).slave.edgePend = false := rfl

/-! ## enter (10_state.md R41): the phase and the counters -/

@[simp] theorem enterMaster_lines (p : PhaseCode) (s : State) : (enterMaster p s).lines = s.lines := rfl
@[simp] theorem enterMaster_master_state (p : PhaseCode) (s : State) : (enterMaster p s).master.state = s.master.state := rfl
@[simp] theorem enterMaster_master_bit (p : PhaseCode) (s : State) : (enterMaster p s).master.bit = s.master.bit := rfl
@[simp] theorem enterMaster_master_cursor (p : PhaseCode) (s : State) : (enterMaster p s).master.cursor = s.master.cursor := rfl
@[simp] theorem enterMaster_master_tx (p : PhaseCode) (s : State) : (enterMaster p s).master.tx = s.master.tx := rfl
@[simp] theorem enterMaster_master_rx (p : PhaseCode) (s : State) : (enterMaster p s).master.rx = s.master.rx := rfl
@[simp] theorem enterMaster_master_cause (p : PhaseCode) (s : State) : (enterMaster p s).master.cause = s.master.cause := rfl
@[simp] theorem enterMaster_master_fline (p : PhaseCode) (s : State) : (enterMaster p s).master.fline = s.master.fline := rfl
@[simp] theorem enterMaster_master_msgLen (p : PhaseCode) (s : State) : (enterMaster p s).master.msgLen = s.master.msgLen := rfl
@[simp] theorem enterMaster_master_msg (p : PhaseCode) (s : State) : (enterMaster p s).master.msg = s.master.msg := rfl
@[simp] theorem enterMaster_master_reports (p : PhaseCode) (s : State) : (enterMaster p s).master.reports = s.master.reports := rfl
@[simp] theorem enterMaster_slave (p : PhaseCode) (s : State) : (enterMaster p s).slave = s.slave := rfl
@[simp] theorem enterMaster_tp (p : PhaseCode) (s : State) : (enterMaster p s).tp = s.tp := rfl
@[simp] theorem enterMaster_now (p : PhaseCode) (s : State) : (enterMaster p s).now = s.now := rfl
@[simp] theorem enterMaster_history (p : PhaseCode) (s : State) : (enterMaster p s).history = s.history := rfl
@[simp] theorem enterMaster_cfg (p : PhaseCode) (s : State) : (enterMaster p s).cfg = s.cfg := rfl
@[simp] theorem enterMaster_rdata (p : PhaseCode) (s : State) : (enterMaster p s).rdata = s.rdata := rfl
@[simp] theorem enterMaster_script (p : PhaseCode) (s : State) : (enterMaster p s).script = s.script := rfl
@[simp] theorem enterMaster_seq (p : PhaseCode) (s : State) : (enterMaster p s).seq = s.seq := rfl
@[simp] theorem enterMaster_master_phase (p : PhaseCode) (s : State) : (enterMaster p s).master.phase = p := rfl
@[simp] theorem enterMaster_master_timer (p : PhaseCode) (s : State) : (enterMaster p s).master.timer = masterTimerOn p s := rfl
@[simp] theorem enterSlave_lines (p : PhaseCode) (s : State) : (enterSlave p s).lines = s.lines := rfl
@[simp] theorem enterSlave_master (p : PhaseCode) (s : State) : (enterSlave p s).master = s.master := rfl
@[simp] theorem enterSlave_slave_state (p : PhaseCode) (s : State) : (enterSlave p s).slave.state = s.slave.state := rfl
@[simp] theorem enterSlave_slave_bit (p : PhaseCode) (s : State) : (enterSlave p s).slave.bit = s.slave.bit := rfl
@[simp] theorem enterSlave_slave_cursor (p : PhaseCode) (s : State) : (enterSlave p s).slave.cursor = s.slave.cursor := rfl
@[simp] theorem enterSlave_slave_tx (p : PhaseCode) (s : State) : (enterSlave p s).slave.tx = s.slave.tx := rfl
@[simp] theorem enterSlave_slave_rx (p : PhaseCode) (s : State) : (enterSlave p s).slave.rx = s.slave.rx := rfl
@[simp] theorem enterSlave_slave_cause (p : PhaseCode) (s : State) : (enterSlave p s).slave.cause = s.slave.cause := rfl
@[simp] theorem enterSlave_slave_fline (p : PhaseCode) (s : State) : (enterSlave p s).slave.fline = s.slave.fline := rfl
@[simp] theorem enterSlave_slave_replyLen (p : PhaseCode) (s : State) : (enterSlave p s).slave.replyLen = s.slave.replyLen := rfl
@[simp] theorem enterSlave_slave_reply (p : PhaseCode) (s : State) : (enterSlave p s).slave.reply = s.slave.reply := rfl
@[simp] theorem enterSlave_slave_edgePend (p : PhaseCode) (s : State) : (enterSlave p s).slave.edgePend = s.slave.edgePend := rfl
@[simp] theorem enterSlave_slave_edgeT (p : PhaseCode) (s : State) : (enterSlave p s).slave.edgeT = s.slave.edgeT := rfl
@[simp] theorem enterSlave_slave_reports (p : PhaseCode) (s : State) : (enterSlave p s).slave.reports = s.slave.reports := rfl
@[simp] theorem enterSlave_tp (p : PhaseCode) (s : State) : (enterSlave p s).tp = s.tp := rfl
@[simp] theorem enterSlave_now (p : PhaseCode) (s : State) : (enterSlave p s).now = s.now := rfl
@[simp] theorem enterSlave_history (p : PhaseCode) (s : State) : (enterSlave p s).history = s.history := rfl
@[simp] theorem enterSlave_cfg (p : PhaseCode) (s : State) : (enterSlave p s).cfg = s.cfg := rfl
@[simp] theorem enterSlave_rdata (p : PhaseCode) (s : State) : (enterSlave p s).rdata = s.rdata := rfl
@[simp] theorem enterSlave_script (p : PhaseCode) (s : State) : (enterSlave p s).script = s.script := rfl
@[simp] theorem enterSlave_seq (p : PhaseCode) (s : State) : (enterSlave p s).seq = s.seq := rfl
@[simp] theorem enterSlave_slave_phase (p : PhaseCode) (s : State) : (enterSlave p s).slave.phase = p := rfl
@[simp] theorem enterSlave_slave_timer (p : PhaseCode) (s : State) : (enterSlave p s).slave.timer = (if p = SPhase.stabilize then s.tp.stabilize else s.slave.timer) := rfl
@[simp] theorem enterSlave_slave_totimer (p : PhaseCode) (s : State) : (enterSlave p s).slave.totimer = (if p = SPhase.awaitEdge then s.tp.edgeTimeout else s.slave.totimer) := rfl

/-! ## finishMaster (40_master.md R131, R142) -/

@[simp] theorem finishMaster_lines (s : State) : (finishMaster s).lines = s.lines := rfl
@[simp] theorem finishMaster_master_bit (s : State) : (finishMaster s).master.bit = s.master.bit := rfl
@[simp] theorem finishMaster_master_cursor (s : State) : (finishMaster s).master.cursor = s.master.cursor := rfl
@[simp] theorem finishMaster_master_tx (s : State) : (finishMaster s).master.tx = s.master.tx := rfl
@[simp] theorem finishMaster_master_rx (s : State) : (finishMaster s).master.rx = s.master.rx := rfl
@[simp] theorem finishMaster_master_timer (s : State) : (finishMaster s).master.timer = s.master.timer := rfl
@[simp] theorem finishMaster_master_cause (s : State) : (finishMaster s).master.cause = s.master.cause := rfl
@[simp] theorem finishMaster_master_fline (s : State) : (finishMaster s).master.fline = s.master.fline := rfl
@[simp] theorem finishMaster_master_msgLen (s : State) : (finishMaster s).master.msgLen = s.master.msgLen := rfl
@[simp] theorem finishMaster_master_msg (s : State) : (finishMaster s).master.msg = s.master.msg := rfl
@[simp] theorem finishMaster_master_reports (s : State) : (finishMaster s).master.reports = s.master.reports := rfl
@[simp] theorem finishMaster_slave (s : State) : (finishMaster s).slave = s.slave := rfl
@[simp] theorem finishMaster_tp (s : State) : (finishMaster s).tp = s.tp := rfl
@[simp] theorem finishMaster_now (s : State) : (finishMaster s).now = s.now := rfl
@[simp] theorem finishMaster_history (s : State) : (finishMaster s).history = s.history := rfl
@[simp] theorem finishMaster_cfg (s : State) : (finishMaster s).cfg = s.cfg := rfl
@[simp] theorem finishMaster_rdata (s : State) : (finishMaster s).rdata = s.rdata := rfl
@[simp] theorem finishMaster_script (s : State) : (finishMaster s).script = s.script := rfl
@[simp] theorem finishMaster_seq (s : State) : (finishMaster s).seq = s.seq := rfl
@[simp] theorem finishMaster_master_state (s : State) : (finishMaster s).master.state = .done := rfl
@[simp] theorem finishMaster_master_phase (s : State) : (finishMaster s).master.phase = 0#4 := rfl

/-! ## Emit (10_state.md R52) -/

@[simp] theorem emitMaster_lines (s : State) : (emitMaster s).lines = s.lines := rfl
@[simp] theorem emitMaster_master_state (s : State) : (emitMaster s).master.state = s.master.state := rfl
@[simp] theorem emitMaster_master_phase (s : State) : (emitMaster s).master.phase = s.master.phase := rfl
@[simp] theorem emitMaster_master_bit (s : State) : (emitMaster s).master.bit = s.master.bit := rfl
@[simp] theorem emitMaster_master_cursor (s : State) : (emitMaster s).master.cursor = s.master.cursor := rfl
@[simp] theorem emitMaster_master_tx (s : State) : (emitMaster s).master.tx = s.master.tx := rfl
@[simp] theorem emitMaster_master_rx (s : State) : (emitMaster s).master.rx = s.master.rx := rfl
@[simp] theorem emitMaster_master_timer (s : State) : (emitMaster s).master.timer = s.master.timer := rfl
@[simp] theorem emitMaster_master_cause (s : State) : (emitMaster s).master.cause = s.master.cause := rfl
@[simp] theorem emitMaster_master_fline (s : State) : (emitMaster s).master.fline = s.master.fline := rfl
@[simp] theorem emitMaster_master_msgLen (s : State) : (emitMaster s).master.msgLen = s.master.msgLen := rfl
@[simp] theorem emitMaster_master_msg (s : State) : (emitMaster s).master.msg = s.master.msg := rfl
@[simp] theorem emitMaster_slave (s : State) : (emitMaster s).slave = s.slave := rfl
@[simp] theorem emitMaster_tp (s : State) : (emitMaster s).tp = s.tp := rfl
@[simp] theorem emitMaster_now (s : State) : (emitMaster s).now = s.now := rfl
@[simp] theorem emitMaster_history (s : State) : (emitMaster s).history = s.history := rfl
@[simp] theorem emitMaster_cfg (s : State) : (emitMaster s).cfg = s.cfg := rfl
@[simp] theorem emitMaster_rdata (s : State) : (emitMaster s).rdata = s.rdata := rfl
@[simp] theorem emitMaster_script (s : State) : (emitMaster s).script = s.script := rfl
@[simp] theorem emitMaster_seq (s : State) : (emitMaster s).seq = s.seq := rfl
@[simp] theorem emitMaster_master_reports (s : State) : (emitMaster s).master.reports = s.master.reports ++ [⟨s.master.cursor, s.master.tx, s.master.rx, s.now⟩] := rfl
@[simp] theorem emitSlave_lines (s : State) : (emitSlave s).lines = s.lines := rfl
@[simp] theorem emitSlave_master (s : State) : (emitSlave s).master = s.master := rfl
@[simp] theorem emitSlave_slave_state (s : State) : (emitSlave s).slave.state = s.slave.state := rfl
@[simp] theorem emitSlave_slave_phase (s : State) : (emitSlave s).slave.phase = s.slave.phase := rfl
@[simp] theorem emitSlave_slave_bit (s : State) : (emitSlave s).slave.bit = s.slave.bit := rfl
@[simp] theorem emitSlave_slave_cursor (s : State) : (emitSlave s).slave.cursor = s.slave.cursor := rfl
@[simp] theorem emitSlave_slave_tx (s : State) : (emitSlave s).slave.tx = s.slave.tx := rfl
@[simp] theorem emitSlave_slave_rx (s : State) : (emitSlave s).slave.rx = s.slave.rx := rfl
@[simp] theorem emitSlave_slave_timer (s : State) : (emitSlave s).slave.timer = s.slave.timer := rfl
@[simp] theorem emitSlave_slave_totimer (s : State) : (emitSlave s).slave.totimer = s.slave.totimer := rfl
@[simp] theorem emitSlave_slave_cause (s : State) : (emitSlave s).slave.cause = s.slave.cause := rfl
@[simp] theorem emitSlave_slave_fline (s : State) : (emitSlave s).slave.fline = s.slave.fline := rfl
@[simp] theorem emitSlave_slave_replyLen (s : State) : (emitSlave s).slave.replyLen = s.slave.replyLen := rfl
@[simp] theorem emitSlave_slave_reply (s : State) : (emitSlave s).slave.reply = s.slave.reply := rfl
@[simp] theorem emitSlave_slave_edgePend (s : State) : (emitSlave s).slave.edgePend = s.slave.edgePend := rfl
@[simp] theorem emitSlave_slave_edgeT (s : State) : (emitSlave s).slave.edgeT = s.slave.edgeT := rfl
@[simp] theorem emitSlave_tp (s : State) : (emitSlave s).tp = s.tp := rfl
@[simp] theorem emitSlave_now (s : State) : (emitSlave s).now = s.now := rfl
@[simp] theorem emitSlave_history (s : State) : (emitSlave s).history = s.history := rfl
@[simp] theorem emitSlave_cfg (s : State) : (emitSlave s).cfg = s.cfg := rfl
@[simp] theorem emitSlave_rdata (s : State) : (emitSlave s).rdata = s.rdata := rfl
@[simp] theorem emitSlave_script (s : State) : (emitSlave s).script = s.script := rfl
@[simp] theorem emitSlave_seq (s : State) : (emitSlave s).seq = s.seq := rfl
@[simp] theorem emitSlave_slave_reports (s : State) : (emitSlave s).slave.reports = s.slave.reports ++ [⟨s.slave.cursor, s.slave.tx, s.slave.rx, s.now⟩] := rfl

/-! ## tick (20_memory.md R89): now and the three counters -/

@[simp] theorem tick_lines (s : State) : (tick s).lines = s.lines := rfl
@[simp] theorem tick_master_state (s : State) : (tick s).master.state = s.master.state := rfl
@[simp] theorem tick_master_phase (s : State) : (tick s).master.phase = s.master.phase := rfl
@[simp] theorem tick_master_bit (s : State) : (tick s).master.bit = s.master.bit := rfl
@[simp] theorem tick_master_cursor (s : State) : (tick s).master.cursor = s.master.cursor := rfl
@[simp] theorem tick_master_tx (s : State) : (tick s).master.tx = s.master.tx := rfl
@[simp] theorem tick_master_rx (s : State) : (tick s).master.rx = s.master.rx := rfl
@[simp] theorem tick_master_cause (s : State) : (tick s).master.cause = s.master.cause := rfl
@[simp] theorem tick_master_fline (s : State) : (tick s).master.fline = s.master.fline := rfl
@[simp] theorem tick_master_msgLen (s : State) : (tick s).master.msgLen = s.master.msgLen := rfl
@[simp] theorem tick_master_msg (s : State) : (tick s).master.msg = s.master.msg := rfl
@[simp] theorem tick_master_reports (s : State) : (tick s).master.reports = s.master.reports := rfl
@[simp] theorem tick_slave_state (s : State) : (tick s).slave.state = s.slave.state := rfl
@[simp] theorem tick_slave_phase (s : State) : (tick s).slave.phase = s.slave.phase := rfl
@[simp] theorem tick_slave_bit (s : State) : (tick s).slave.bit = s.slave.bit := rfl
@[simp] theorem tick_slave_cursor (s : State) : (tick s).slave.cursor = s.slave.cursor := rfl
@[simp] theorem tick_slave_tx (s : State) : (tick s).slave.tx = s.slave.tx := rfl
@[simp] theorem tick_slave_rx (s : State) : (tick s).slave.rx = s.slave.rx := rfl
@[simp] theorem tick_slave_cause (s : State) : (tick s).slave.cause = s.slave.cause := rfl
@[simp] theorem tick_slave_fline (s : State) : (tick s).slave.fline = s.slave.fline := rfl
@[simp] theorem tick_slave_replyLen (s : State) : (tick s).slave.replyLen = s.slave.replyLen := rfl
@[simp] theorem tick_slave_reply (s : State) : (tick s).slave.reply = s.slave.reply := rfl
@[simp] theorem tick_slave_edgePend (s : State) : (tick s).slave.edgePend = s.slave.edgePend := rfl
@[simp] theorem tick_slave_edgeT (s : State) : (tick s).slave.edgeT = s.slave.edgeT := rfl
@[simp] theorem tick_slave_reports (s : State) : (tick s).slave.reports = s.slave.reports := rfl
@[simp] theorem tick_tp (s : State) : (tick s).tp = s.tp := rfl
@[simp] theorem tick_history (s : State) : (tick s).history = s.history := rfl
@[simp] theorem tick_cfg (s : State) : (tick s).cfg = s.cfg := rfl
@[simp] theorem tick_rdata (s : State) : (tick s).rdata = s.rdata := rfl
@[simp] theorem tick_script (s : State) : (tick s).script = s.script := rfl
@[simp] theorem tick_seq (s : State) : (tick s).seq = s.seq := rfl
@[simp] theorem tick_now (s : State) : (tick s).now = s.now + 1 := rfl

/-! ## Lines -/

@[simp] theorem lines_set_get_same (ls : Lines) (l : Line) (v : Bool) : (ls.set l v).get l = v := by
  cases l <;> rfl

@[simp] theorem lines_set_get_other (ls : Lines) (l k : Line) (v : Bool) (h : k ≠ l) : (ls.set l v).get k = ls.get k := by
  cases l <;> cases k <;> first | rfl | exact absurd rfl h

@[simp] theorem lines_set_clk (ls : Lines) (v : Bool) : ls.set .clk v = { ls with clk := v } := rfl

@[simp] theorem lines_set_mo (ls : Lines) (v : Bool) : ls.set .mo v = { ls with mo := v } := rfl

@[simp] theorem lines_set_so (ls : Lines) (v : Bool) : ls.set .so v = { ls with so := v } := rfl

@[simp] theorem lines_get_mo (ls : Lines) : ls.get .mo = ls.mo := rfl

@[simp] theorem lines_get_so (ls : Lines) : ls.get .so = ls.so := rfl

@[simp] theorem lines_get_clk (ls : Lines) : ls.get .clk = ls.clk := rfl

end Sys2Proof.Machine
end

