-- ==== Sys2Proof/Laws/Ops.lean ====
section
/-! SUPPORT. What each shared operation can do, said once: its callers' proofs cite these and do not unfold it. -/

namespace Sys2Proof.Machine

/-- The three outcomes of the edge detector (41_slave.md R160). -/
theorem edgeDetect_cases (s : State) :
    (s.slave.state ≠ .running ∧ edgeDetect s = s) ∨
    (s.slave.state = .running ∧ s.slave.edgePend = true ∧
      edgeDetect s = { s with history := s.history ++ [.edgeLost s.now] }) ∨
    (s.slave.state = .running ∧ s.slave.edgePend = false ∧
      edgeDetect s = { s with slave.edgePend := true, slave.edgeT := s.now }) := by
  unfold edgeDetect
  split
  · exact .inl ⟨‹_›, rfl⟩
  · have hr : s.slave.state = .running := by simpa using ‹¬ s.slave.state ≠ .running›
    split
    · exact .inr (.inl ⟨hr, ‹_›, rfl⟩)
    · exact .inr (.inr ⟨hr, by simpa using ‹¬ s.slave.edgePend = true›, rfl⟩)

/-- A drive that makes no rising transition of CLK only sets the line (20_memory.md R74). -/
theorem driveLine_plain {l : Line} {v : Bool} {s : State} (h : ¬ (l = .clk ∧ s.lines.clk = false ∧ v = true)) :
    driveLine l v s = { s with lines := s.lines.set l v } := by
  simp [driveLine, h]

@[simp] theorem driveLine_mo (v : Bool) (s : State) :
    driveLine .mo v s = { s with lines := { s.lines with mo := v } } := by
  simp [driveLine]

@[simp] theorem driveLine_so (v : Bool) (s : State) :
    driveLine .so v s = { s with lines := { s.lines with so := v } } := by
  simp [driveLine]

@[simp] theorem driveLine_clk_low (s : State) :
    driveLine .clk false s = { s with lines := { s.lines with clk := false } } := by
  simp [driveLine]

/-- Driving CLK high when it is high is no transition (20_memory.md R74). -/
theorem driveLine_clk_held {s : State} (h : s.lines.clk = true) :
    driveLine .clk true s = { s with lines := { s.lines with clk := true } } := by
  simp [driveLine, h]

/-- A rising transition of CLK runs the edge detector (20_memory.md R74). -/
theorem driveLine_clk_rise {s : State} (h : s.lines.clk = false) :
    driveLine .clk true s = edgeDetect { s with lines := { s.lines with clk := true } } := by
  simp [driveLine, h]

/-- A line operation fails into fault entry or gives the action's result (60_exceptions.md R233). -/
theorem unlessIoError_cases (e : Engine) (l : Line) (s t : State) :
    (ioFails s = true ∧ unlessIoError e l s t = raise e .ioError l s) ∨
    (ioFails s = false ∧ unlessIoError e l s t = t) := by
  unfold unlessIoError
  cases h : ioFails s <;> simp

/-- An acquisition fails into fault entry or gives the action's result (40_master.md R131). -/
theorem unlessSetupError_cases (e : Engine) (s t : State) :
    (setupFails s = true ∧ unlessSetupError e s t = raise e .setupError s.choice.failLine s) ∨
    (setupFails s = false ∧ unlessSetupError e s t = t) := by
  unfold unlessSetupError
  cases h : setupFails s <;> simp

theorem unlessIoError_ok {e : Engine} {l : Line} {s t : State} (h : s.cfg.ioFaults = false) :
    unlessIoError e l s t = t := by
  simp [unlessIoError, ioFails, h]

theorem unlessSetupError_ok {e : Engine} {s t : State} (h : s.cfg.setupFaults = false) :
    unlessSetupError e s t = t := by
  simp [unlessSetupError, setupFails, h]

/-- The jitter drawn is within its bound (10_state.md R41). -/
theorem jitter_le (s : State) : jitter s ≤ s.cfg.jitterMax := Nat.min_le_right _ _

@[simp] theorem whileMaster_running {s t : State} (h : s.master.state = .running) : whileMaster s t = t := by
  simp [whileMaster, h]

@[simp] theorem whileMaster_stopped {s t : State} (h : s.master.state ≠ .running) : whileMaster s t = s := by
  simp [whileMaster, h]

@[simp] theorem whileSlave_running {s t : State} (h : s.slave.state = .running) : whileSlave s t = t := by
  simp [whileSlave, h]

@[simp] theorem whileSlave_stopped {s t : State} (h : s.slave.state ≠ .running) : whileSlave s t = s := by
  simp [whileSlave, h]

/-- The time step: nothing while an urgent action is enabled, one tick otherwise (20_memory.md R89). -/
theorem timeStep_cases (s : State) :
    ((masterUrgent s = true ∨ slaveUrgent s = true) ∧ timeStep s = s) ∨
    (masterUrgent s = false ∧ slaveUrgent s = false ∧ timeStep s = tick s) := by
  unfold timeStep
  cases hm : masterUrgent s <;> cases hv : slaveUrgent s <;> simp

/-- A glitch: nothing without LINE_GLITCH, a drive of the line otherwise (20_memory.md R77). -/
theorem glitchStep_cases (l : Line) (v : Bool) (s : State) :
    (s.cfg.lineGlitch = false ∧ glitchStep l v s = s) ∨
    (s.cfg.lineGlitch = true ∧ glitchStep l v s = driveLine l v s) := by
  unfold glitchStep
  cases h : s.cfg.lineGlitch <;> simp

@[simp] theorem masterTimerOn_waitSetup (s : State) :
    masterTimerOn 0x4#4 s = s.tp.quarter.toNat + jitter s := rfl

@[simp] theorem masterTimerOn_waitHigh (s : State) : masterTimerOn 0x6#4 s = s.tp.half.toNat + jitter s := rfl

@[simp] theorem masterTimerOn_waitLow (s : State) : masterTimerOn 0x8#4 s = s.tp.quarter.toNat + jitter s := rfl

@[simp] theorem masterTimerOn_waitSettle (s : State) :
    masterTimerOn 0x9#4 s = s.tp.sampleSettle.toNat + jitter s := rfl

/-- Entering a phase that is no wait loads nothing (10_state.md R41). -/
theorem masterTimerOn_other {p : PhaseCode} {s : State} (h : isMasterWait p = false) :
    masterTimerOn p s = s.master.timer := by
  simp only [isMasterWait, Bool.or_eq_false_iff, beq_eq_false_iff_ne] at h
  simp [masterTimerOn, h.1.1.1, h.1.1.2, h.1.2, h.2]

@[simp] theorem quarter_toNat (tp : Timing) : tp.quarter.toNat = tp.bitPeriod.toNat / 4 := by
  simp [Timing.quarter]

@[simp] theorem half_toNat (tp : Timing) : tp.half.toNat = tp.bitPeriod.toNat / 2 := by
  simp [Timing.half]

/-- The edge-wait timeout is at least one tick (10_state.md R41). -/
theorem edgeTimeout_toNat (tp : Timing) : tp.edgeTimeout.toNat = max tp.edgeWait.toNat 1 := by
  unfold Timing.edgeTimeout
  split
  · simp [*]
  · have : tp.edgeWait.toNat ≠ 0 := fun h => ‹¬ tp.edgeWait = 0#32› (by apply BitVec.eq_of_toNat_eq; simpa using h)
    omega

/-- The cursor's advance on numbers, for a modulus above 0 (41_slave.md R170). -/
theorem cursorNext_toNat {c len : Word} (h : len ≠ 0#32) :
    (cursorNext c len).toNat = (c.toNat + 1) % len.toNat := by
  have hl : len.toNat < 2 ^ 32 := len.isLt
  have hp : 0 < len.toNat := by
    rcases Nat.eq_zero_or_pos len.toNat with h0 | h0
    · exact absurd (BitVec.eq_of_toNat_eq (by simpa using h0)) h
    · exact h0
  have hm := Nat.mod_lt (c.toNat + 1) hp
  simp only [cursorNext, h, if_false, BitVec.toNat_ofNat]
  exact Nat.mod_eq_of_lt (by omega)

/-- Bit insert then extract: the written bit is the written value, every other bit is kept (00_scope.md R18). -/
theorem byteBit_setByteBit (v : Byte) (b i : BitIndex) (x : Bool) :
    byteBit (setByteBit v b x) i = if i = b then x else byteBit v i := by
  have hb : b.toNat < 8 := b.isLt
  have hi : i.toNat < 8 := i.isLt
  have hiff : i = b ↔ i.toNat = b.toNat := BitVec.toNat_inj.symm
  by_cases h : i.toNat = b.toNat
  · rw [if_pos (hiff.2 h)]
    simp [byteBit, setByteBit, h, hb]
  · rw [if_neg (fun e => h (hiff.1 e))]
    simp only [byteBit, setByteBit, BitVec.getLsbD_or, BitVec.getLsbD_and, BitVec.getLsbD_not, BitVec.getLsbD_shiftLeft,
      hi, decide_true, Bool.true_and, BitVec.getLsbD_setWidth]
    by_cases h2 : i.toNat < b.toNat
    · simp [h2]
    · have : i.toNat - b.toNat ≠ 0 := by omega
      simp [h2, this]

end Sys2Proof.Machine
end

