-- ==== Sys2Proof/Laws/Step.lean ====
section
/-! SUPPORT. What a step can do, said once (20_memory.md R87): the turns, and the action each takes. -/

namespace Sys2Proof.Machine

/-- A step that answers a next state took one of the five turns, at phases that both decode. -/
theorem step_next {s t : State} (h : step s = .next t) :
    s.master.phase.toNat ≤ 0xC ∧ s.slave.phase.toNat ≤ 0x8 ∧ ∃ u, t = u.advance ∧
      ((s.choice.turn = .master ∧ ∃ i, decodeMaster s.master.phase = .ok i ∧ exec i s = .next u) ∨
       (s.choice.turn = .slave ∧ ∃ i, decodeSlave s.slave.phase = .ok i ∧ exec i s = .next u) ∨
       (∃ w, s.choice.turn = .host w ∧ exec (decodeHtw w) s = .next u) ∨
       (s.choice.turn = .time ∧ u = timeStep s) ∨
       (∃ l v, s.choice.turn = .glitch l v ∧ u = glitchStep l v s)) := by
  have settled : ∀ {r : Result}, settle r = .next t → ∃ u, r = .next u ∧ t = u.advance := by
    intro r hr
    cases r with
    | next u => exact ⟨u, rfl, by simpa [settle] using hr.symm⟩
    | fault f => simp [settle] at hr
    | refused f => simp [settle] at hr
  unfold step fetch at h
  rw [masterWord, slaveWord, decodeMow_master, decodeMow_slave] at h
  cases hm : decodeMaster s.master.phase with
  | error e => simp [hm] at h
  | ok im =>
    cases hv : decodeSlave s.slave.phase with
    | error e => simp [hm, hv] at h
    | ok iv =>
      refine ⟨decodeMaster_range hm, decodeSlave_range hv, ?_⟩
      simp only [hm, hv] at h
      cases ht : s.choice.turn with
      | master =>
        simp only [ht] at h
        obtain ⟨u, hu, rfl⟩ := settled h
        exact ⟨u, rfl, .inl ⟨rfl, im, rfl, hu⟩⟩
      | slave =>
        simp only [ht] at h
        obtain ⟨u, hu, rfl⟩ := settled h
        exact ⟨u, rfl, .inr (.inl ⟨rfl, iv, rfl, hu⟩)⟩
      | host w =>
        simp only [ht] at h
        obtain ⟨u, hu, rfl⟩ := settled h
        exact ⟨u, rfl, .inr (.inr (.inl ⟨w, rfl, hu⟩))⟩
      | time =>
        simp only [ht] at h
        obtain ⟨u, hu, rfl⟩ := settled h
        exact ⟨u, rfl, .inr (.inr (.inr (.inl ⟨rfl, by simpa [perform] using hu.symm⟩)))⟩
      | glitch l v =>
        simp only [ht] at h
        obtain ⟨u, hu, rfl⟩ := settled h
        exact ⟨u, rfl, .inr (.inr (.inr (.inr ⟨l, v, rfl, by simpa [perform] using hu.symm⟩)))⟩

/-- At phases that both decode, a step is the chosen action, with its choice used up afterwards. -/
theorem step_eq {s : State} {im iv : Instr} (hm : decodeMaster s.master.phase = .ok im)
    (hv : decodeSlave s.slave.phase = .ok iv) :
    step s = settle (match s.choice.turn with
      | .master => exec im s
      | .slave => exec iv s
      | .host w => exec (decodeHtw w) s
      | .time => .next (timeStep s)
      | .glitch l v => .next (glitchStep l v s)) := by
  unfold step fetch
  rw [masterWord, slaveWord, decodeMow_master, decodeMow_slave, hm, hv]
  cases s.choice.turn <;> rfl

end Sys2Proof.Machine
end

