-- ==== Sys2Proof/Laws/Actions.lean ====
section
/-! SUPPORT. What the three agents can do, said once: every next state that a master micro-operation, a slave micro-operation or a host operation can lead to, with the condition it comes under (40_master.md R131 to R143, 41_slave.md R163 to R171, 42_host_interface.md R191 to R207). -/

namespace Sys2Proof.Machine

/-- Two next states of one result are one. -/
theorem next_inj {r : Result} {t u : State} (h : r = .next t) (h' : r = .next u) : u = t := by
  rw [h] at h'
  injection h' with h'
  exact h'.symm

/-! ## The moves of the engines -/

/-- What a RUNNING master's micro-operation at `s.master.phase` does when nothing fails and it is enabled. -/
inductive MasterMove (s : State) : State → Prop
  | acquireEmpty (hp : s.master.phase = 0x1#4) (hn : s.master.msgLen = 0#32) :
    MasterMove s { s with master.cursor := 0#32, master.state := .done, master.phase := 0x0#4 }
  | acquire (hp : s.master.phase = 0x1#4) (hn : s.master.msgLen ≠ 0#32) :
    MasterMove s { s with master.cursor := 0#32, master.phase := 0x2#4 }
  | load (hp : s.master.phase = 0x2#4) (b : Byte) (hb : s.master.msg.read s.master.cursor.toNat = some b) :
    MasterMove s { s with master.tx := b, master.rx := 0#8, master.bit := 7#3, master.phase := 0x3#4 }
  | driveMo (hp : s.master.phase = 0x3#4) :
    MasterMove s { s with lines.mo := byteBit s.master.tx s.master.bit, master.phase := 0x4#4,
                          master.timer := s.tp.quarter.toNat + jitter s }
  | waitSetup (hp : s.master.phase = 0x4#4) (ht : s.master.timer = 0) :
    MasterMove s { s with master.phase := 0x5#4 }
  | clkHi (hp : s.master.phase = 0x5#4) (hc : s.lines.clk = true ∨ s.slave.state ≠ .running) :
    MasterMove s { s with lines.clk := true, master.phase := 0x6#4, master.timer := s.tp.half.toNat + jitter s }
  | clkHiLost (hp : s.master.phase = 0x5#4) (hc : s.lines.clk = false) (hv : s.slave.state = .running)
    (he : s.slave.edgePend = true) :
    MasterMove s { s with lines.clk := true, master.phase := 0x6#4, master.timer := s.tp.half.toNat + jitter s,
                          history := s.history ++ [.edgeLost s.now] }
  | clkHiEdge (hp : s.master.phase = 0x5#4) (hc : s.lines.clk = false) (hv : s.slave.state = .running)
    (he : s.slave.edgePend = false) :
    MasterMove s { s with lines.clk := true, master.phase := 0x6#4, master.timer := s.tp.half.toNat + jitter s,
                          slave.edgePend := true, slave.edgeT := s.now }
  | waitHigh (hp : s.master.phase = 0x6#4) (ht : s.master.timer = 0) :
    MasterMove s { s with master.phase := 0x7#4 }
  | clkLo (hp : s.master.phase = 0x7#4) :
    MasterMove s { s with lines.clk := false, master.phase := 0x8#4, master.timer := s.tp.quarter.toNat + jitter s }
  | waitLow (hp : s.master.phase = 0x8#4) (ht : s.master.timer = 0) :
    MasterMove s { s with master.phase := 0x9#4, master.timer := s.tp.sampleSettle.toNat + jitter s }
  | waitSettle (hp : s.master.phase = 0x9#4) (ht : s.master.timer = 0) :
    MasterMove s { s with master.phase := 0xA#4 }
  | sample (hp : s.master.phase = 0xA#4) :
    MasterMove s { s with master.rx := setByteBit s.master.rx s.master.bit s.lines.so, master.phase := 0xB#4 }
  | lastBit (hp : s.master.phase = 0xB#4) (hb : s.master.bit = 0#3) :
    MasterMove s { s with master.phase := 0xC#4 }
  | nextBit (hp : s.master.phase = 0xB#4) (hb : s.master.bit ≠ 0#3) :
    MasterMove s { s with master.bit := s.master.bit - 1#3, master.phase := 0x3#4 }
  | report (hp : s.master.phase = 0xC#4) (hc : s.master.cursor + 1#32 < s.master.msgLen) :
    MasterMove s
      { s with master.reports := s.master.reports ++ [⟨s.master.cursor, s.master.tx, s.master.rx, s.now⟩],
               master.cursor := s.master.cursor + 1#32, master.phase := 0x2#4 }
  | lastReport (hp : s.master.phase = 0xC#4) (hc : ¬ (s.master.cursor + 1#32 < s.master.msgLen)) :
    MasterMove s
      { s with master.reports := s.master.reports ++ [⟨s.master.cursor, s.master.tx, s.master.rx, s.now⟩],
               master.cursor := s.master.cursor + 1#32, master.state := .done, master.phase := 0x0#4 }

/-- What a RUNNING slave's micro-operation at `s.slave.phase` does when nothing fails and it is enabled. -/
inductive SlaveMove (s : State) : State → Prop
  | acquire (hp : s.slave.phase = 0x1#4) :
    SlaveMove s { s with slave.cursor := 0#32, slave.edgePend := false, slave.phase := 0x2#4 }
  | initial (hp : s.slave.phase = 0x2#4) (b : Byte) (hb : s.slave.reply.read s.slave.cursor.toNat = some b) :
    SlaveMove s { s with lines.so := byteBit b 7#3, slave.tx := b, slave.rx := 0#8, slave.bit := 7#3,
                         slave.phase := 0x3#4, slave.totimer := s.tp.edgeTimeout }
  | edge (hp : s.slave.phase = 0x3#4) (he : edgeReady s = true) :
    SlaveMove s { s with slave.edgePend := false, slave.phase := 0x5#4 }
  | timeout (hp : s.slave.phase = 0x3#4) (ht : s.slave.totimer = 0#32) :
    SlaveMove s { s with slave.phase := 0x4#4 }
  | retry (hp : s.slave.phase = 0x4#4) :
    SlaveMove s { s with slave.phase := 0x3#4, slave.totimer := s.tp.edgeTimeout }
  | lastSample (hp : s.slave.phase = 0x5#4) (hb : s.slave.bit = 0#3) :
    SlaveMove s { s with slave.rx := setByteBit s.slave.rx s.slave.bit s.lines.mo, slave.phase := 0x8#4 }
  | sample (hp : s.slave.phase = 0x5#4) (hb : s.slave.bit ≠ 0#3) :
    SlaveMove s { s with slave.rx := setByteBit s.slave.rx s.slave.bit s.lines.mo, slave.phase := 0x6#4 }
  | driveNext (hp : s.slave.phase = 0x6#4) (b : BitIndex) (hb : b = bitBelow s.slave.bit s.seq) :
    SlaveMove s { s with lines.so := byteBit s.slave.tx b, slave.bit := b, slave.phase := 0x7#4,
                         slave.timer := s.tp.stabilize }
  | stabilize (hp : s.slave.phase = 0x7#4) (ht : s.slave.timer = 0#32) :
    SlaveMove s { s with slave.phase := 0x3#4, slave.totimer := s.tp.edgeTimeout }
  | byteComplete (hp : s.slave.phase = 0x8#4) :
    SlaveMove s
      { s with slave.reports := s.slave.reports ++ [⟨s.slave.cursor, s.slave.tx, s.slave.rx, s.now⟩],
               slave.cursor := cursorNext s.slave.cursor s.slave.replyLen, slave.phase := 0x2#4 }

/-- The line whose failure a master phase records (60_exceptions.md R232). -/
def MasterIoLine (p : PhaseCode) (l : Line) : Prop :=
  (p = 0x3#4 ∧ l = .mo) ∨ (p = 0x5#4 ∧ l = .clk) ∨ (p = 0x7#4 ∧ l = .clk) ∨ (p = 0xA#4 ∧ l = .so)

/-- The line whose failure a slave phase records (60_exceptions.md R232). -/
def SlaveIoLine (p : PhaseCode) (l : Line) : Prop :=
  (p = 0x2#4 ∧ l = .so) ∨ (p = 0x3#4 ∧ l = .clk) ∨ (p = 0x5#4 ∧ l = .mo) ∨ (p = 0x6#4 ∧ l = .so)

/-- What the master's turn does: nothing, fault entry (60_exceptions.md R233), or a move. -/
inductive MasterAction (s : State) : State → Prop
  | nothing : MasterAction s s
  | setupError (hr : s.master.state = .running) (hp : s.master.phase = 0x1#4) (hf : setupFails s = true) :
    MasterAction s { s with master.state := .fault, master.cause := .setupError,
                            master.fline := some s.choice.failLine }
  | ioError (hr : s.master.state = .running) (l : Line) (hl : MasterIoLine s.master.phase l)
    (hf : ioFails s = true) :
    MasterAction s { s with master.state := .fault, master.cause := .ioError, master.fline := some l }
  | move (hr : s.master.state = .running) {u : State} (h : MasterMove s u) : MasterAction s u

/-- What the slave's turn does: nothing, fault entry (60_exceptions.md R233), or a move. -/
inductive SlaveAction (s : State) : State → Prop
  | nothing : SlaveAction s s
  | setupError (hr : s.slave.state = .running) (hp : s.slave.phase = 0x1#4) (hf : setupFails s = true) :
    SlaveAction s { s with slave.state := .fault, slave.cause := .setupError, slave.fline := some s.choice.failLine }
  | ioError (hr : s.slave.state = .running) (l : Line) (hl : SlaveIoLine s.slave.phase l) (hf : ioFails s = true) :
    SlaveAction s { s with slave.state := .fault, slave.cause := .ioError, slave.fline := some l }
  | move (hr : s.slave.state = .running) {u : State} (h : SlaveMove s u) : SlaveAction s u

/-- A move that may fail on its line, as an action. -/
theorem master_io {s u t : State} {l : Line} (hr : s.master.state = .running) (hl : MasterIoLine s.master.phase l)
    (ht : MasterMove s t) (h : Host.Outcome.next (unlessIoError .master l s t) = (.next u : Result)) :
    MasterAction s u := by
  injection h with h
  subst h
  rcases unlessIoError_cases .master l s t with ⟨hf, e⟩ | ⟨-, e⟩
  · rw [e]; exact .ioError hr l hl hf
  · rw [e]; exact .move hr ht

/-- A move that may fail on its line, as an action. -/
theorem slave_io {s u t : State} {l : Line} (hr : s.slave.state = .running) (hl : SlaveIoLine s.slave.phase l)
    (ht : SlaveMove s t) (h : Host.Outcome.next (unlessIoError .slave l s t) = (.next u : Result)) :
    SlaveAction s u := by
  injection h with h
  subst h
  rcases unlessIoError_cases .slave l s t with ⟨hf, e⟩ | ⟨-, e⟩
  · rw [e]; exact .ioError hr l hl hf
  · rw [e]; exact .move hr ht

/-- A master wait, as an action. -/
theorem master_wait {s u : State} {p : PhaseCode} (hr : s.master.state = .running)
    (ht : s.master.timer = 0 → MasterMove s (enterMaster p s))
    (h : Host.Outcome.next (masterWaitThen p s) = (.next u : Result)) : MasterAction s u := by
  injection h with h
  subst h
  by_cases h0 : s.master.timer = 0
  · simpa [masterWaitThen, hr, h0] using MasterAction.move hr (ht h0)
  · simpa [masterWaitThen, hr, h0] using MasterAction.nothing

/-- M.CLK_HI's move: by the level of CLK and the edge detector (41_slave.md R160). -/
theorem clkHi_move {s : State} (hp : s.master.phase = 0x5#4) :
    MasterMove s (enterMaster MPhase.waitHigh (driveLine .clk true s)) := by
  cases hc : s.lines.clk with
  | true =>
    rw [driveLine_clk_held hc]
    exact .clkHi hp (.inl hc)
  | false =>
    rw [driveLine_clk_rise hc]
    rcases edgeDetect_cases { s with lines := { s.lines with clk := true } } with ⟨h1, h⟩ | ⟨h1, h2, h⟩ | ⟨h1, h2, h⟩
    · rw [h]; exact .clkHi hp (.inr h1)
    · rw [h]; exact .clkHiLost hp hc h1 h2
    · rw [h]; exact .clkHiEdge hp hc h1 h2

/-- The master's turn, at the micro-operation of its phase. -/
theorem master_action {s u : State} {i : Instr} (hd : decodeMaster s.master.phase = .ok i) (h : exec i s = .next u) :
    MasterAction s u := by
  by_cases hr : s.master.state = .running
  swap
  · have hu : u = s := by
      refine next_inj ?_ h
      cases decodeMaster_code hd <;>
      simp [exec, execMIdle, execMAcquire, execMLoad, execMDriveMo, execMWaitSetup, execMClkHi, execMWaitHigh,
        execMClkLo, execMWaitLow, execMWaitSettle, execMSample, execMNextBit, execMReport, masterWaitThen, hr]
    exact hu ▸ .nothing
  cases decodeMaster_code hd with
  | idle hp =>
    exact next_inj rfl h ▸ .nothing
  | acquire hp =>
    simp only [exec, execMAcquire, whileMaster_running hr] at h
    injection h with h
    subst h
    rcases unlessSetupError_cases .master s (if s.master.msgLen = 0#32 then finishMaster { s with master.cursor := 0#32 }
      else enterMaster MPhase.load { s with master.cursor := 0#32 }) with ⟨hf, e⟩ | ⟨-, e⟩
    · rw [e]; exact .setupError hr hp hf
    · rw [e]
      split
      · exact .move hr (.acquireEmpty hp ‹_›)
      · exact .move hr (.acquire hp ‹_›)
  | load hp =>
    simp only [exec, execMLoad, if_pos hr, bufRead, State.buffer] at h
    cases hb : s.master.msg.read s.master.cursor.toNat with
    | none => simp [hb] at h
    | some b =>
      rw [hb] at h
      injection h with h
      subst h
      exact .move hr (.load hp b hb)
  | driveMo hp =>
    simp only [exec, execMDriveMo, whileMaster_running hr, driveLine_mo] at h
    exact master_io hr (.inl ⟨hp, rfl⟩) (.driveMo hp) h
  | waitSetup hp =>
    exact master_wait hr (fun h0 => .waitSetup hp h0) h
  | clkHi hp =>
    simp only [exec, execMClkHi, whileMaster_running hr] at h
    exact master_io hr (.inr (.inl ⟨hp, rfl⟩)) (clkHi_move hp) h
  | waitHigh hp =>
    exact master_wait hr (fun h0 => .waitHigh hp h0) h
  | clkLo hp =>
    simp only [exec, execMClkLo, whileMaster_running hr, driveLine_clk_low] at h
    exact master_io hr (.inr (.inr (.inl ⟨hp, rfl⟩))) (.clkLo hp) h
  | waitLow hp =>
    exact master_wait hr (fun h0 => .waitLow hp h0) h
  | waitSettle hp =>
    exact master_wait hr (fun h0 => .waitSettle hp h0) h
  | sample hp =>
    simp only [exec, execMSample, whileMaster_running hr] at h
    exact master_io hr (.inr (.inr (.inr ⟨hp, rfl⟩))) (.sample hp) h
  | nextBit hp =>
    simp only [exec, execMNextBit, whileMaster_running hr] at h
    injection h with h
    subst h
    split
    · exact .move hr (.lastBit hp ‹_›)
    · exact .move hr (.nextBit hp ‹_›)
  | report hp =>
    simp only [exec, execMReport, whileMaster_running hr] at h
    injection h with h
    subst h
    split
    · exact .move hr (.report hp ‹_›)
    · exact .move hr (.lastReport hp ‹_›)

/-- The slave's turn, at the micro-operation of its phase. -/
theorem slave_action {s u : State} {i : Instr} (hd : decodeSlave s.slave.phase = .ok i) (h : exec i s = .next u) :
    SlaveAction s u := by
  by_cases hr : s.slave.state = .running
  swap
  · have hu : u = s := by
      refine next_inj ?_ h
      cases decodeSlave_code hd <;>
      simp [exec, execSIdle, execSAcquire, execSInitial, execSAwaitEdge, execSRetry, execSSample, execSDriveNext,
        execSStabilize, execSByteComplete, hr]
    exact hu ▸ .nothing
  cases decodeSlave_code hd with
  | idle hp =>
    exact next_inj rfl h ▸ .nothing
  | acquire hp =>
    simp only [exec, execSAcquire, whileSlave_running hr] at h
    injection h with h
    subst h
    rcases unlessSetupError_cases .slave s (enterSlave SPhase.initial { s with slave.cursor := 0#32, slave.edgePend := false })
      with ⟨hf, e⟩ | ⟨-, e⟩
    · rw [e]; exact .setupError hr hp hf
    · rw [e]; exact .move hr (.acquire hp)
  | initial hp =>
    simp only [exec, execSInitial, if_pos hr, bufRead, State.buffer] at h
    cases hb : s.slave.reply.read s.slave.cursor.toNat with
    | none => simp [hb] at h
    | some b =>
      simp only [hb, driveLine_so] at h
      exact slave_io hr (.inl ⟨hp, rfl⟩) (.initial hp b hb) h
  | awaitEdge hp =>
    simp only [exec, execSAwaitEdge, whileSlave_running hr] at h
    cases hc : s.choice.completion with
    | edge =>
      simp only [hc, edgeCompletion] at h
      by_cases he : edgeReady s = true
      · rw [if_pos he] at h
        exact slave_io hr (.inr (.inl ⟨hp, rfl⟩)) (.edge hp he) h
      · rw [if_neg he] at h
        exact next_inj rfl h ▸ .nothing
    | timeout =>
      simp only [hc, timeoutCompletion] at h
      by_cases he : s.slave.totimer = 0#32
      · rw [if_pos he] at h
        exact slave_io hr (.inr (.inl ⟨hp, rfl⟩)) (.timeout hp he) h
      · rw [if_neg he] at h
        exact next_inj rfl h ▸ .nothing
  | retry hp =>
    simp only [exec, execSRetry, whileSlave_running hr] at h
    injection h with h
    subst h
    exact .move hr (.retry hp)
  | sample hp =>
    simp only [exec, execSSample, whileSlave_running hr] at h
    by_cases hb : s.slave.bit = 0#3
    · rw [if_pos hb] at h
      exact slave_io hr (.inr (.inr (.inl ⟨hp, rfl⟩))) (.lastSample hp hb) h
    · rw [if_neg hb] at h
      exact slave_io hr (.inr (.inr (.inl ⟨hp, rfl⟩))) (.sample hp hb) h
  | driveNext hp =>
    simp only [exec, execSDriveNext, whileSlave_running hr, driveLine_so] at h
    exact slave_io hr (.inr (.inr (.inr ⟨hp, rfl⟩))) (.driveNext hp _ rfl) h
  | stabilize hp =>
    simp only [exec, execSStabilize, whileSlave_running hr] at h
    by_cases h0 : s.slave.timer = 0#32
    · rw [if_pos h0] at h
      injection h with h
      subst h
      exact .move hr (.stabilize hp h0)
    · rw [if_neg h0] at h
      exact next_inj rfl h ▸ .nothing
  | byteComplete hp =>
    simp only [exec, execSByteComplete, whileSlave_running hr] at h
    injection h with h
    subst h
    exact .move hr (.byteComplete hp)

/-! ## The host -/

/-- What a host operation does, by its name. -/
inductive HostAction (s : State) : Instr → State → Prop
  | read (a : HostAddr) : HostAction s (.hRd a) { s with rdata := hostRead a s }
  | nothing (i : Instr) (hi : ∀ a, i ≠ .hRd a) (hm : i ≠ .hWrMStop) (hs : i ≠ .hWrSStop) : HostAction s i s
  | stopMaster : HostAction s .hWrMStop
      { s with master.state := .idle, master.phase := 0x0#4, master.cause := .none, master.fline := none,
               master.timer := 0 }
  | startMaster (h : s.master.state = .idle ∨ s.master.state = .done) : HostAction s .hWrMStart
      { s with master.state := .running, master.cause := .none, master.fline := none, master.phase := 0x1#4 }
  | stopSlave : HostAction s .hWrSStop
      { s with slave.state := .idle, slave.phase := 0x0#4, slave.cause := .none, slave.fline := none,
               slave.timer := 0#32, slave.totimer := 0#32, slave.edgePend := false }
  | startSlave (h : s.slave.state = .idle) (hl : s.slave.replyLen ≠ 0#32) : HostAction s .hWrSStart
      { s with slave.state := .running, slave.cause := .none, slave.fline := none, slave.phase := 0x1#4 }
  | msgLen (n : Word) (h : s.master.state ≠ .running) (hn : n.toNat ≤ s.cfg.msgCap) :
    HostAction s (.hWrMMsgLen n) { s with master.msgLen := n }
  | replyLen (n : Word) (h : s.slave.state ≠ .running) (hn : n.toNat ≤ s.cfg.replyCap) :
    HostAction s (.hWrSReplyLen n) { s with slave.replyLen := n }
  | msg (i : BitVec 10) (v : Byte) (h : s.master.state ≠ .running) (hi : i.toNat < s.cfg.msgCap) :
    HostAction s (.hWrMMsg i v) { s with master.msg := s.master.msg.write i.toNat v }
  | reply (i : BitVec 10) (v : Byte) (h : s.slave.state ≠ .running) (hi : i.toNat < s.cfg.replyCap) :
    HostAction s (.hWrSReply i v) { s with slave.reply := s.slave.reply.write i.toNat v }
  | bitPeriod (x : Word) (hm : s.master.state ≠ .running) (hv : s.slave.state ≠ .running) :
    HostAction s (.hWrTpBitPeriod x) { s with tp.bitPeriod := x }
  | sampleSettle (x : Word) (hm : s.master.state ≠ .running) (hv : s.slave.state ≠ .running) :
    HostAction s (.hWrTpSampleSettle x) { s with tp.sampleSettle := x }
  | stabilize (x : Word) (hm : s.master.state ≠ .running) (hv : s.slave.state ≠ .running) :
    HostAction s (.hWrTpStabilize x) { s with tp.stabilize := x }
  | edgeWait (x : Word) (hm : s.master.state ≠ .running) (hv : s.slave.state ≠ .running) :
    HostAction s (.hWrTpEdgeWait x) { s with tp.edgeWait := x }

/-- A guarded host write, as an action. -/
theorem host_guard {s t : State} {i : Instr} {p : Prop} [Decidable p] (hi : ∀ a, i ≠ .hRd a) (hm : i ≠ .hWrMStop)
    (hs : i ≠ .hWrSStop) (ht : p → HostAction s i t) : HostAction s i (if p then t else s) := by
  split
  · exact ht ‹_›
  · exact .nothing i hi hm hs

/-- A host operation always has a next state, and it is one of these. -/
theorem host_action (i : Instr) (s : State) (hi : i.isHostOp = true) : ∃ u, exec i s = .next u ∧ HostAction s i u := by
  have tp : ∀ {j : Instr} {t : State}, (∀ a, j ≠ .hRd a) → j ≠ .hWrMStop → j ≠ .hWrSStop →
      (s.master.state ≠ .running → s.slave.state ≠ .running → HostAction s j t) →
      HostAction s j (if tpWritable s then t else s) := by
    intro j t h1 h2 h3 h4
    refine host_guard h1 h2 h3 fun h => ?_
    simp only [tpWritable, Bool.and_eq_true, decide_eq_true_eq] at h
    exact h4 h.1 h.2
  cases i <;> simp only [Instr.isHostOp, Instr.isMasterOp, Instr.isSlaveOp, Bool.not_true, Bool.not_false,
    Bool.and_false, Bool.and_true, Bool.false_eq_true] at hi
  case hRd a => exact ⟨_, rfl, .read a⟩
  case hWrMStop => exact ⟨_, rfl, .stopMaster⟩
  case hWrSStop => exact ⟨_, rfl, .stopSlave⟩
  case hWrMStart => exact ⟨_, rfl, host_guard (by simp) (by simp) (by simp) fun h => .startMaster h⟩
  case hWrSStart => exact ⟨_, rfl, host_guard (by simp) (by simp) (by simp) fun h => .startSlave h.1 h.2⟩
  case hWrMMsgLen n => exact ⟨_, rfl, host_guard (by simp) (by simp) (by simp) fun h => .msgLen n h.1 h.2⟩
  case hWrSReplyLen n => exact ⟨_, rfl, host_guard (by simp) (by simp) (by simp) fun h => .replyLen n h.1 h.2⟩
  case hWrMMsg j v => exact ⟨_, rfl, host_guard (by simp) (by simp) (by simp) fun h => .msg j v h.1 h.2⟩
  case hWrSReply j v => exact ⟨_, rfl, host_guard (by simp) (by simp) (by simp) fun h => .reply j v h.1 h.2⟩
  case hWrTpBitPeriod x => exact ⟨_, rfl, tp (by simp) (by simp) (by simp) fun h h' => .bitPeriod x h h'⟩
  case hWrTpSampleSettle x => exact ⟨_, rfl, tp (by simp) (by simp) (by simp) fun h h' => .sampleSettle x h h'⟩
  case hWrTpStabilize x => exact ⟨_, rfl, tp (by simp) (by simp) (by simp) fun h h' => .stabilize x h h'⟩
  case hWrTpEdgeWait x => exact ⟨_, rfl, tp (by simp) (by simp) (by simp) fun h h' => .edgeWait x h h'⟩
  case hWrIgnored a d => exact ⟨_, rfl, .nothing _ (by simp) (by simp) (by simp)⟩

/-! ## The step -/

/-- What a step can do: one of the five turns, then the choice is used up. -/
inductive StepAction (s : State) : State → Prop
  | master (ht : s.choice.turn = .master) {u : State} (h : MasterAction s u) : StepAction s u
  | slave (ht : s.choice.turn = .slave) {u : State} (h : SlaveAction s u) : StepAction s u
  | host (w : Htw) (ht : s.choice.turn = .host w) {u : State} (h : HostAction s (decodeHtw w) u) : StepAction s u
  | time (ht : s.choice.turn = .time) (hm : masterUrgent s = false) (hv : slaveUrgent s = false) : StepAction s (tick s)
  | early (ht : s.choice.turn = .time) (hu : masterUrgent s = true ∨ slaveUrgent s = true) : StepAction s s
  | glitch (l : Line) (v : Bool) (ht : s.choice.turn = .glitch l v) (hg : s.cfg.lineGlitch = true) :
    StepAction s (driveLine l v s)
  | noGlitch (l : Line) (v : Bool) (ht : s.choice.turn = .glitch l v) (hg : s.cfg.lineGlitch = false) : StepAction s s

/-- Every step that answers a next state, at phases that both decode. -/
theorem step_action {s t : State} (h : step s = .next t) :
    s.master.phase.toNat ≤ 0xC ∧ s.slave.phase.toNat ≤ 0x8 ∧ ∃ u, t = u.advance ∧ StepAction s u := by
  obtain ⟨hm, hv, u, rfl, hact⟩ := step_next h
  refine ⟨hm, hv, u, rfl, ?_⟩
  rcases hact with ⟨ht, i, hd, hu⟩ | ⟨ht, i, hd, hu⟩ | ⟨w, ht, hu⟩ | ⟨ht, rfl⟩ | ⟨l, b, ht, rfl⟩
  · exact .master ht (master_action hd hu)
  · exact .slave ht (slave_action hd hu)
  · obtain ⟨u', hu', ha⟩ := host_action _ s (decodeHtw_isHostOp w)
    exact .host w ht (next_inj hu hu' ▸ ha)
  · rcases timeStep_cases s with ⟨hu, e⟩ | ⟨h1, h2, e⟩
    · rw [e]; exact .early ht hu
    · rw [e]; exact .time ht h1 h2
  · rcases glitchStep_cases l b s with ⟨hg, e⟩ | ⟨hg, e⟩
    · rw [e]; exact .noGlitch l b ht hg
    · rw [e]; exact .glitch l b ht hg

end Sys2Proof.Machine
end

