-- ==== Sys2Proof/Laws/Runs.lean ====
section
/-! SUPPORT. What every step keeps, and induction over runs. -/

namespace Sys2Proof.Machine

/-- The environment's drive of a line, by the level of CLK and the edge detector (20_memory.md R77). -/
inductive DriveAction (s : State) (l : Line) (v : Bool) : State → Prop
  | plain (h : ¬ (l = .clk ∧ s.lines.clk = false ∧ v = true)) : DriveAction s l v { s with lines := s.lines.set l v }
  | unheard (hl : l = .clk) (hc : s.lines.clk = false) (hv : v = true) (hr : s.slave.state ≠ .running) :
    DriveAction s l v { s with lines.clk := true }
  | lost (hl : l = .clk) (hc : s.lines.clk = false) (hv : v = true) (hr : s.slave.state = .running)
    (he : s.slave.edgePend = true) :
    DriveAction s l v { s with lines.clk := true, history := s.history ++ [.edgeLost s.now] }
  | edge (hl : l = .clk) (hc : s.lines.clk = false) (hv : v = true) (hr : s.slave.state = .running)
    (he : s.slave.edgePend = false) :
    DriveAction s l v { s with lines.clk := true, slave.edgePend := true, slave.edgeT := s.now }

theorem driveLine_action (s : State) (l : Line) (v : Bool) : DriveAction s l v (driveLine l v s) := by
  by_cases h : l = .clk ∧ s.lines.clk = false ∧ v = true
  · obtain ⟨rfl, hc, rfl⟩ := h
    rw [driveLine_clk_rise hc]
    rcases edgeDetect_cases { s with lines := { s.lines with clk := true } } with ⟨h1, h⟩ | ⟨h1, h2, h⟩ | ⟨h1, h2, h⟩
    · rw [h]; exact .unheard rfl hc rfl h1
    · rw [h]; exact .lost rfl hc rfl h1 h2
    · rw [h]; exact .edge rfl hc rfl h1 h2
  · rw [driveLine_plain h]; exact .plain h

/-- No action changes the parameters, the script or the count of actions; the step itself uses the choice up. -/
theorem stepAction_keeps {s u : State} (h : StepAction s u) :
    u.cfg = s.cfg ∧ u.script = s.script ∧ u.seq = s.seq := by
  cases h with
  | master ht h =>
    cases h with
    | move hr h => cases h <;> exact ⟨rfl, rfl, rfl⟩
    | _ => exact ⟨rfl, rfl, rfl⟩
  | slave ht h =>
    cases h with
    | move hr h => cases h <;> exact ⟨rfl, rfl, rfl⟩
    | _ => exact ⟨rfl, rfl, rfl⟩
  | host w ht h =>
    generalize decodeHtw w = i at h
    cases h <;> exact ⟨rfl, rfl, rfl⟩
  | glitch l v ht hg =>
    generalize hd : driveLine l v s = d
    cases hd ▸ driveLine_action s l v <;> exact ⟨rfl, rfl, rfl⟩
  | _ => exact ⟨rfl, rfl, rfl⟩

theorem step_keeps {s t : State} (h : step s = .next t) :
    t.cfg = s.cfg ∧ t.script = s.script.tail ∧ t.seq = s.seq + 1 := by
  obtain ⟨-, -, u, rfl, ha⟩ := step_action h
  obtain ⟨h1, h2, h3⟩ := stepAction_keeps ha
  exact ⟨h1, congrArg List.tail h2, congrArg (· + 1) h3⟩

theorem runs_zero {s t : State} (h : Runs 0 s t) : t = s := by
  simp only [Runs, Host.Core.run] at h
  injection h with h
  exact h.symm

theorem runs_succ {k : Nat} {s t : State} (h : Runs (k + 1) s t) : ∃ u, step s = .next u ∧ Runs k u t := by
  simp only [Runs, Host.Core.run] at h
  cases hs : step s with
  | next u => exact ⟨u, rfl, by simpa [core, hs, Runs] using h⟩
  | fault f => simp [core, hs] at h
  | refused f => simp [core, hs] at h

/-- A property that every step keeps holds along a run. -/
theorem runs_keep {Inv : State → Prop} (hstep : ∀ s t, Inv s → step s = .next t → Inv t) :
    ∀ {k : Nat} {s t : State}, Inv s → Runs k s t → Inv t := by
  intro k
  induction k with
  | zero => intro s t hi h; exact runs_zero h ▸ hi
  | succ k ih =>
    intro s t hi h
    obtain ⟨u, hu, hr⟩ := runs_succ h
    exact ih (hstep s u hi hu) hr

/-- A property that every step of an allowed choice keeps holds along a run whose choices are scripted and allowed. -/
theorem runs_keep_scripted {Inv : State → Prop} {allowed : Choice → Prop}
    (hstep : ∀ s t, Inv s → allowed s.choice → step s = .next t → Inv t) :
    ∀ {k : Nat} {s t : State}, Inv s → k ≤ s.script.length → (∀ c ∈ s.script.take k, allowed c) → Runs k s t →
      Inv t := by
  intro k
  induction k with
  | zero => intro s t hi _ _ h; exact runs_zero h ▸ hi
  | succ k ih =>
    intro s t hi hk hc h
    obtain ⟨u, hu, hr⟩ := runs_succ h
    cases hs : s.script with
    | nil => simp [hs] at hk
    | cons c rest =>
      have hchoice : s.choice = c := by simp [State.choice, hs]
      have hrest : u.script = rest := by rw [(step_keeps hu).2.1, hs]; rfl
      refine ih (hstep s u hi ?_ hu) ?_ ?_ hr
      · rw [hchoice]; exact hc c (by simp [hs])
      · rw [hrest]; simpa [hs] using hk
      · intro d hd
        rw [hrest] at hd
        exact hc d (by simp [hs, hd])

end Sys2Proof.Machine
end

