-- ==== Sys2Proof/Laws/Contract.lean ====
section
/-! SUPPORT. The invariant behind the timing contract (70_reset_and_hazards.md R274): how many edges the master has raised, how many the slave has taken, which bits each has received so far, and that the two stay within one edge of each other. -/

namespace Sys2Proof.Machine.Contract

/-- The edges raised so far by a master at phase `p`, bit `b` of byte `c`. -/
def raised (p : PhaseCode) (c b : Nat) : Nat :=
  match p.toNat with
  | 0 | 1 | 2 => 8 * c
  | 3 | 4 | 5 => 8 * c + 7 - b
  | 12 => 8 * c + 8
  | _ => 8 * c + 8 - b

/-- The edges taken so far by a slave at phase `p`, bit `b` of its byte `k`. -/
def took (p : PhaseCode) (k b : Nat) : Nat :=
  match p.toNat with
  | 2 => 8 * k
  | 5 | 6 => 8 * k + 8 - b
  | 8 => 8 * k + 8
  | _ => 8 * k + 7 - b

/-- A lower bound on the ticks from the last edge to the end of the wait a master phase is in, for quarter `Q`, half `H` and settle `E`. -/
def sinceEdge (p : PhaseCode) (Q H E : Nat) : Nat :=
  match p.toNat with
  | 4 | 5 => 2 * Q + H + E
  | 6 | 7 => H
  | 8 => H + Q
  | 9 => H + Q + E
  | _ => H + Q + E

/-- What M.TIMER still counts, in a wait phase. -/
def rem (p : PhaseCode) (timer : Nat) : Nat :=
  match p.toNat with
  | 4 | 6 | 8 | 9 => timer
  | _ => 0

/-- The master has received the bits of its byte from this index up. -/
def masterGot (p : PhaseCode) (b : Nat) : Nat :=
  match p.toNat with
  | 0 | 1 | 2 => 8
  | 11 => b
  | 12 => 0
  | _ => b + 1

/-- The slave has received the bits of its byte from this index up. -/
def slaveGot (p : PhaseCode) (b : Nat) : Nat :=
  match p.toNat with
  | 2 => 8
  | 6 => b
  | 8 => 0
  | _ => b + 1

/-- The master is between an edge and its sample. -/
def isMid (p : PhaseCode) : Bool := p == 0x6#4 || p == 0x7#4 || p == 0x8#4 || p == 0x9#4
/-- The slave is at work on an edge it has taken. -/
def isBusy (p : PhaseCode) : Bool := p == 0x2#4 || p == 0x5#4 || p == 0x6#4 || p == 0x8#4

/-- Bit `i` of what the master receives in byte `c`. -/
def masterWant (reply : List Byte) (c0 c : Nat) (i : BitIndex) : Bool :=
  if i = 0#3 then byteBit (replyByte reply (c0 + c + 1)) 7#3 else byteBit (replyByte reply (c0 + c)) (i - 1#3)

/-- What a master in byte `c` holds. -/
structure MData (msg reply : List Byte) (c0 c : Nat) (m : Master) (ls : Lines) : Prop where
  live : (m.state = .running ∧ c < msg.length ∧ m.cursor.toNat = c ∧ 2 ≤ m.phase.toNat ∧ m.phase.toNat ≤ 12 ∧
      m.msgLen.toNat = msg.length ∧ HoldsBytes m.msg msg) ∨ (m.state = .done ∧ c = msg.length ∧ m.phase = 0#4)
  len : msg.length ≤ 1024
  zero : m.phase = 0xC#4 → m.bit = 0#3
  clk : m.phase ≠ 0x6#4 → m.phase ≠ 0x7#4 → ls.clk = false
  tx : 3 ≤ m.phase.toNat → some m.tx = msg[c]?
  mo : 4 ≤ m.phase.toNat → m.phase.toNat ≤ 11 → ls.mo = byteBit m.tx m.bit
  rx : ∀ i : BitIndex, masterGot m.phase m.bit.toNat ≤ i.toNat → byteBit m.rx i = masterWant reply c0 c i

/-- What a slave in its byte `k` of the session holds. -/
structure SData (msg reply : List Byte) (c0 k : Nat) (v : Slave) (ls : Lines) : Prop where
  run : v.state = .running
  code : 2 ≤ v.phase.toNat ∧ v.phase.toNat ≤ 8
  len : v.replyLen.toNat = reply.length ∧ reply.length ≤ 1024 ∧ 0 < reply.length
  bytes : HoldsBytes v.reply reply
  cursor : v.cursor.toNat = (c0 + k) % reply.length
  zero : v.phase = 0x8#4 → v.bit = 0#3
  pos : v.phase = 0x6#4 → v.bit ≠ 0#3
  low : v.phase = 0x7#4 → v.bit ≠ 7#3
  tx : v.phase ≠ 0x2#4 → v.tx = replyByte reply (c0 + k)
  so : v.phase ≠ 0x2#4 → (k = 0 → v.bit ≠ 7#3) → ls.so = byteBit v.tx v.bit
  rx : ∀ i : BitIndex, slaveGot v.phase v.bit.toNat ≤ i.toNat → byteBit v.rx i = byteBit ((msg[k]?).getD 0#8) i

/-- The two engines are within one edge of each other, and the slave answers an edge before the master samples. -/
structure Sync (x Q H E S c k : Nat) (m : Master) (v : Slave) (now : Nat) : Prop where
  p5 : x < Q + H + E
  p6 : x + S ≤ 2 * Q + H + E
  count : took v.phase k v.bit.toNat + v.edgePend.toNat = raised m.phase c m.bit.toNat
  mid : isBusy v.phase = true ∨ v.edgePend = true → isMid m.phase = true ∧ now ≤ v.edgeT + x
  pend : v.edgePend = true → isBusy v.phase = false ∧ (v.phase = 0x7#4 → v.timer = 0#32)
  stab : v.phase = 0x7#4 → now + v.timer.toNat ≤ v.edgeT + x + S
  low : 1 ≤ raised m.phase c m.bit.toNat → v.edgeT + sinceEdge m.phase Q H E ≤ now + rem m.phase m.timer

/-- The invariant: `c` bytes done by the master and `k` by the slave since a start with reports `m0`, `v0` and history `h0`. -/
structure Link (msg reply : List Byte) (c0 : Nat) (m0 v0 : List (Word × Byte × Byte)) (h0 : List GhostEvent) (x c k : Nat)
    (s : State) : Prop where
  setup : s.cfg.setupFaults = false
  io : s.cfg.ioFaults = false
  glitch : s.cfg.lineGlitch = false
  lat : s.cfg.latMax = some x
  m : MData msg reply c0 c s.master s.lines
  v : SData msg reply c0 k s.slave s.lines
  sync : Sync x (s.tp.bitPeriod.toNat / 4) (s.tp.bitPeriod.toNat / 2) s.tp.sampleSettle.toNat s.tp.stabilize.toNat c k
    s.master s.slave s.now
  mreports : s.master.reports.map Report.body = m0 ++ (List.range c).map (contractMasterReport msg reply c0)
  vreports : s.slave.reports.map Report.body = v0 ++ (List.range k).map (contractSlaveReport msg reply c0)
  history : s.history = h0

theorem Link.advance {msg reply c0 m0 v0 h0 x c k} {s : State} (h : Link msg reply c0 m0 v0 h0 x c k s) :
    Link msg reply c0 m0 v0 h0 x c k s.advance :=
  ⟨h.setup, h.io, h.glitch, h.lat, h.m, h.v, h.sync, h.mreports, h.vreports, h.history⟩

variable {msg reply : List Byte} {c0 x c k : Nat} {m0 v0 : List (Word × Byte × Byte)} {h0 : List GhostEvent} {s : State}


theorem slave_codes {p : PhaseCode} (h1 : 2 ≤ p.toNat) (h2 : p.toNat ≤ 8) :
    p = 0x2#4 ∨ p = 0x3#4 ∨ p = 0x4#4 ∨ p = 0x5#4 ∨ p = 0x6#4 ∨ p = 0x7#4 ∨ p = 0x8#4 := by
  revert p; decide

theorem master_codes {p : PhaseCode} (h1 : 2 ≤ p.toNat) (h2 : p.toNat ≤ 12) :
    p = 0x2#4 ∨ p = 0x3#4 ∨ p = 0x4#4 ∨ p = 0x5#4 ∨ p = 0x6#4 ∨ p = 0x7#4 ∨ p = 0x8#4 ∨ p = 0x9#4 ∨ p = 0xA#4
      ∨ p = 0xB#4 ∨ p = 0xC#4 := by
  revert p; decide

theorem wait_codes {p : PhaseCode} (h1 : 2 ≤ p.toNat) (h2 : p.toNat ≤ 12) (h : isMasterInstant p = false) :
    p = 0x4#4 ∨ p = 0x6#4 ∨ p = 0x8#4 ∨ p = 0x9#4 := by
  revert p; decide

theorem word_pred {w : Word} (h : w ≠ 0#32) : (w - 1#32).toNat + 1 = w.toNat := by
  have : w.toNat ≠ 0 := fun e => h (by apply BitVec.eq_of_toNat_eq; simpa using e)
  rw [BitVec.toNat_sub]
  have := w.isLt
  simp
  omega

theorem link_tick (h : Link msg reply c0 m0 v0 h0 x c k s) (hm : masterUrgent s = false) (hv : slaveUrgent s = false) :
    Link msg reply c0 m0 v0 h0 x c k (tick s) := by
  obtain ⟨setup, io, glitch, lat, m, v, sync, mreports, vreports, history⟩ := h
  have hrun := v.run
  -- the slave is waiting
  have hslave : (s.slave.phase = 0x7#4 ∧ s.slave.timer ≠ 0#32) ∨
      (s.slave.phase = 0x3#4 ∧ (s.slave.edgePend = true → ¬ s.slave.edgeT + x ≤ s.now)) := by
    simp only [slaveUrgent, hrun, decide_true, Bool.true_and, isSlaveInstant, edgeDue, lat] at hv
    rcases slave_codes v.code.1 v.code.2 with hp | hp | hp | hp | hp | hp | hp <;> simp [hp] at hv ⊢
    · exact hv.1
    · exact hv
  have hmaster : (s.master.state = .running ∧ s.master.timer ≠ 0 ∧
      (s.master.phase = 0x4#4 ∨ s.master.phase = 0x6#4 ∨ s.master.phase = 0x8#4 ∨ s.master.phase = 0x9#4)) ∨
      s.master.state = .done := by
    rcases m.live with hl | hl
    · left
      simp only [masterUrgent, hl.1, decide_true, Bool.true_and, Bool.or_eq_false_iff] at hm
      have hw := wait_codes hl.2.2.2.1 hl.2.2.2.2.1 hm.1
      refine ⟨hl.1, ?_, hw⟩
      have hm2 := hm.2
      rcases hw with hp | hp | hp | hp <;> simp [hp, isMasterWait] at hm2 <;> exact hm2
    · exact .inr hl.1
  refine ⟨setup, io, glitch, lat, ⟨m.live, m.len, m.zero, m.clk, m.tx, m.mo, m.rx⟩,
    ⟨v.run, v.code, v.len, v.bytes, v.cursor, v.zero, v.pos, v.low, v.tx, v.so, v.rx⟩, ?_, mreports, vreports, history⟩
  have hms : (tick s).master.state = s.master.state := rfl
  constructor
  · exact sync.p5
  · exact sync.p6
  · exact sync.count
  · intro hb
    have hb' : isBusy s.slave.phase = true ∨ s.slave.edgePend = true := hb
    have := sync.mid hb'
    refine ⟨this.1, ?_⟩
    rcases hslave with ⟨hp, ht⟩ | ⟨hp, ht⟩
    · simp [hp, isBusy] at hb'
      exact absurd ((sync.pend hb').2 hp) ht
    · simp [hp, isBusy] at hb'
      have := ht hb'
      simp only [tick_now, tick_slave_edgeT]
      omega
  · intro hb
    refine ⟨(sync.pend hb).1, fun hp => ?_⟩
    have h0 := (sync.pend hb).2 hp
    rcases hslave with ⟨_, ht⟩ | ⟨hp', _⟩
    · exact absurd h0 ht
    · have hp : s.slave.phase = 0x7#4 := hp
      rw [hp'] at hp; exact absurd hp (by decide)
  · intro hp
    have hp : s.slave.phase = 0x7#4 := hp
    rcases hslave with ⟨_, ht⟩ | ⟨hp', _⟩
    · have := sync.stab hp
      have h2 := word_pred ht
      simp [tick, hrun, hp, ht]
      omega
    · rw [hp'] at hp; exact absurd hp (by decide)
  · intro hr
    have := sync.low hr
    rcases hmaster with ⟨hl, ht, hw⟩ | hd
    · rcases hw with hp | hp | hp | hp <;>
        simp [tick, hl, hp, isMasterWait, sinceEdge, rem, Nat.pos_of_ne_zero ht] at this ⊢ <;> omega
    · have hp : s.master.phase = 0#4 := by
        rcases m.live with hl | hl
        · rw [hl.1] at hd; cases hd
        · exact hl.2.2
      simp [tick, hp, sinceEdge, rem] at this ⊢
      omega


theorem MData.running {m : Master} {ls : Lines} (d : MData msg reply c0 c m ls) (hp : m.phase ≠ 0#4) :
    m.state = .running ∧ c < msg.length ∧ m.cursor.toNat = c ∧ 2 ≤ m.phase.toNat ∧ m.phase.toNat ≤ 12 ∧
      m.msgLen.toNat = msg.length ∧ HoldsBytes m.msg msg := by
  rcases d.live with h | h
  · exact h
  · exact absurd h.2.2 hp


theorem next_eq {r : Result} {t u : State} (h : r = .next t) (h' : r = .next u) : u = t := by
  rw [h] at h'; injection h' with h'; exact h'.symm

theorem link_load (h : Link msg reply c0 m0 v0 h0 x c k s) (hp : s.master.phase = 0x2#4) {u : State}
    (hu : exec .mLoad s = .next u) : Link msg reply c0 m0 v0 h0 x c k u := by
  obtain ⟨setup, io, glitch, lat, m, v, sync, mreports, vreports, history⟩ := h
  obtain ⟨hr, hc, hcur, -, -, hlen, hbytes⟩ := m.running (by simp [hp])
  have hread : s.master.msg.read c = some msg[c] := hbytes c hc
  obtain rfl := next_eq (t := enterMaster MPhase.driveMo
    { s with master.tx := msg[c], master.rx := 0#8, master.bit := 7#3 })
    (by simp [exec, execMLoad, hr, bufRead, State.buffer, hcur, hread]) hu
  have hcount := sync.count
  have hlow := sync.low
  have hmid := sync.mid
  simp [hp, raised, sinceEdge, rem, isMid] at hcount hlow hmid
  refine ⟨setup, io, glitch, lat, ⟨?_, ?_, ?_, ?_, ?_, ?_, ?_⟩, ⟨v.run, v.code, v.len, v.bytes, v.cursor, v.zero, v.pos, v.low, v.tx, v.so, v.rx⟩,
    ⟨sync.p5, sync.p6, ?_, ?_, sync.pend, sync.stab, ?_⟩, mreports, vreports, history⟩
  · exact .inl ⟨hr, hc, hcur, by simp, by simp, hlen, hbytes⟩
  · exact m.len
  · simp
  · intro _ _; exact m.clk (by simp [hp]) (by simp [hp])
  · intro _; simp [hc]
  · simp
  · intro i hi
    have := i.isLt
    simp [masterGot] at hi
    omega
  · simpa [raised] using hcount
  · intro hb
    exact absurd hb (by simpa using hmid)
  · simpa [raised, sinceEdge, rem] using hlow


theorem link_driveMo (h : Link msg reply c0 m0 v0 h0 x c k s) (hp : s.master.phase = 0x3#4) {u : State}
    (hu : exec .mDriveMo s = .next u) : Link msg reply c0 m0 v0 h0 x c k u := by
  obtain ⟨setup, io, glitch, lat, m, v, sync, mreports, vreports, history⟩ := h
  obtain ⟨hr, hc, hcur, -, -, hlen, hbytes⟩ := m.running (by simp [hp])
  obtain rfl := next_eq (t := enterMaster MPhase.waitSetup
    { s with lines := { s.lines with mo := byteBit s.master.tx s.master.bit } })
    (by simp [exec, execMDriveMo, hr, unlessIoError_ok io]) hu
  have hcount := sync.count
  have hlow := sync.low
  have hmid := sync.mid
  have hrx := m.rx
  simp [hp, raised, sinceEdge, rem, isMid, masterGot] at hcount hlow hmid hrx
  refine ⟨setup, io, glitch, lat, ⟨.inl ⟨hr, hc, hcur, by simp, by simp, hlen, hbytes⟩, m.len, by simp, ?_, ?_, ?_, ?_⟩,
    ⟨v.run, v.code, v.len, v.bytes, v.cursor, v.zero, v.pos, v.low, v.tx, v.so, v.rx⟩,
    ⟨sync.p5, sync.p6, ?_, ?_, sync.pend, sync.stab, ?_⟩, mreports, vreports, history⟩
  · intro _ _; exact m.clk (by simp [hp]) (by simp [hp])
  · intro _; exact m.tx (by simp [hp])
  · intro _ _; rfl
  · simpa [masterGot] using hrx
  · simpa [raised] using hcount
  · intro hb
    exact absurd hb (by simpa using hmid)
  · intro h1
    have h2 := hlow (by simpa [raised] using h1)
    simp [sinceEdge, rem]
    omega

theorem link_waitSetup (h : Link msg reply c0 m0 v0 h0 x c k s) (hp : s.master.phase = 0x4#4) {u : State}
    (hu : exec .mWaitSetup s = .next u) : Link msg reply c0 m0 v0 h0 x c k u := by
  by_cases ht : s.master.timer = 0
  swap
  · obtain rfl := next_eq (t := s) (by simp [exec, execMWaitSetup, masterWaitThen, whileMaster, ht]) hu
    exact h
  obtain ⟨setup, io, glitch, lat, m, v, sync, mreports, vreports, history⟩ := h
  obtain ⟨hr, hc, hcur, -, -, hlen, hbytes⟩ := m.running (by simp [hp])
  obtain rfl := next_eq (t := enterMaster MPhase.clkHi s)
    (by simp [exec, execMWaitSetup, masterWaitThen, hr, ht]) hu
  have hcount := sync.count
  have hlow := sync.low
  have hmid := sync.mid
  have hrx := m.rx
  simp [hp, raised, sinceEdge, rem, isMid, masterGot, ht] at hcount hlow hmid hrx
  refine ⟨setup, io, glitch, lat, ⟨.inl ⟨hr, hc, hcur, by simp, by simp, hlen, hbytes⟩, m.len, by simp, ?_, ?_, ?_, ?_⟩,
    ⟨v.run, v.code, v.len, v.bytes, v.cursor, v.zero, v.pos, v.low, v.tx, v.so, v.rx⟩,
    ⟨sync.p5, sync.p6, ?_, ?_, sync.pend, sync.stab, ?_⟩, mreports, vreports, history⟩
  · intro _ _; exact m.clk (by simp [hp]) (by simp [hp])
  · intro _; exact m.tx (by simp [hp])
  · intro _ _; exact m.mo (by simp [hp]) (by simp [hp])
  · simpa [masterGot] using hrx
  · simpa [raised] using hcount
  · intro hb
    exact absurd hb (by simpa using hmid)
  · intro h1
    have h2 := hlow (by simpa [raised] using h1)
    simp [sinceEdge, rem]
    omega

theorem link_waitHigh (h : Link msg reply c0 m0 v0 h0 x c k s) (hp : s.master.phase = 0x6#4) {u : State}
    (hu : exec .mWaitHigh s = .next u) : Link msg reply c0 m0 v0 h0 x c k u := by
  by_cases ht : s.master.timer = 0
  swap
  · obtain rfl := next_eq (t := s) (by simp [exec, execMWaitHigh, masterWaitThen, whileMaster, ht]) hu
    exact h
  obtain ⟨setup, io, glitch, lat, m, v, sync, mreports, vreports, history⟩ := h
  obtain ⟨hr, hc, hcur, -, -, hlen, hbytes⟩ := m.running (by simp [hp])
  obtain rfl := next_eq (t := enterMaster MPhase.clkLo s)
    (by simp [exec, execMWaitHigh, masterWaitThen, hr, ht]) hu
  have hcount := sync.count
  have hlow := sync.low
  have hmid := sync.mid
  have hrx := m.rx
  simp [hp, raised, sinceEdge, rem, isMid, masterGot, ht] at hcount hlow hmid hrx
  refine ⟨setup, io, glitch, lat, ⟨.inl ⟨hr, hc, hcur, by simp, by simp, hlen, hbytes⟩, m.len, by simp, ?_, ?_, ?_, ?_⟩,
    ⟨v.run, v.code, v.len, v.bytes, v.cursor, v.zero, v.pos, v.low, v.tx, v.so, v.rx⟩,
    ⟨sync.p5, sync.p6, ?_, ?_, sync.pend, sync.stab, ?_⟩, mreports, vreports, history⟩
  · intro _ h7; simp at h7
  · intro _; exact m.tx (by simp [hp])
  · intro _ _; exact m.mo (by simp [hp]) (by simp [hp])
  · simpa [masterGot] using hrx
  · simpa [raised] using hcount
  · intro hb
    refine ⟨by simp [isMid], hmid hb⟩
  · intro h1
    have h2 := hlow (by simpa [raised] using h1)
    simp [sinceEdge, rem]
    omega

theorem link_clkLo (h : Link msg reply c0 m0 v0 h0 x c k s) (hp : s.master.phase = 0x7#4) {u : State}
    (hu : exec .mClkLo s = .next u) : Link msg reply c0 m0 v0 h0 x c k u := by
  obtain ⟨setup, io, glitch, lat, m, v, sync, mreports, vreports, history⟩ := h
  obtain ⟨hr, hc, hcur, -, -, hlen, hbytes⟩ := m.running (by simp [hp])
  obtain rfl := next_eq (t := enterMaster MPhase.waitLow { s with lines := { s.lines with clk := false } })
    (by simp [exec, execMClkLo, hr, unlessIoError_ok io]) hu
  have hcount := sync.count
  have hlow := sync.low
  have hmid := sync.mid
  have hrx := m.rx
  simp [hp, raised, sinceEdge, rem, isMid, masterGot] at hcount hlow hmid hrx
  refine ⟨setup, io, glitch, lat, ⟨.inl ⟨hr, hc, hcur, by simp, by simp, hlen, hbytes⟩, m.len, by simp, ?_, ?_, ?_, ?_⟩,
    ⟨v.run, v.code, v.len, v.bytes, v.cursor, v.zero, v.pos, v.low, v.tx, v.so, v.rx⟩,
    ⟨sync.p5, sync.p6, ?_, ?_, sync.pend, sync.stab, ?_⟩, mreports, vreports, history⟩
  · intro _ _; rfl
  · intro _; exact m.tx (by simp [hp])
  · intro _ _; exact m.mo (by simp [hp]) (by simp [hp])
  · simpa [masterGot] using hrx
  · simpa [raised] using hcount
  · intro hb
    refine ⟨by simp [isMid], hmid hb⟩
  · intro h1
    have h2 := hlow (by simpa [raised] using h1)
    simp [sinceEdge, rem]
    omega

theorem link_waitLow (h : Link msg reply c0 m0 v0 h0 x c k s) (hp : s.master.phase = 0x8#4) {u : State}
    (hu : exec .mWaitLow s = .next u) : Link msg reply c0 m0 v0 h0 x c k u := by
  by_cases ht : s.master.timer = 0
  swap
  · obtain rfl := next_eq (t := s) (by simp [exec, execMWaitLow, masterWaitThen, whileMaster, ht]) hu
    exact h
  obtain ⟨setup, io, glitch, lat, m, v, sync, mreports, vreports, history⟩ := h
  obtain ⟨hr, hc, hcur, -, -, hlen, hbytes⟩ := m.running (by simp [hp])
  obtain rfl := next_eq (t := enterMaster MPhase.waitSettle s)
    (by simp [exec, execMWaitLow, masterWaitThen, hr, ht]) hu
  have hcount := sync.count
  have hlow := sync.low
  have hmid := sync.mid
  have hrx := m.rx
  simp [hp, raised, sinceEdge, rem, isMid, masterGot, ht] at hcount hlow hmid hrx
  refine ⟨setup, io, glitch, lat, ⟨.inl ⟨hr, hc, hcur, by simp, by simp, hlen, hbytes⟩, m.len, by simp, ?_, ?_, ?_, ?_⟩,
    ⟨v.run, v.code, v.len, v.bytes, v.cursor, v.zero, v.pos, v.low, v.tx, v.so, v.rx⟩,
    ⟨sync.p5, sync.p6, ?_, ?_, sync.pend, sync.stab, ?_⟩, mreports, vreports, history⟩
  · intro _ _; exact m.clk (by simp [hp]) (by simp [hp])
  · intro _; exact m.tx (by simp [hp])
  · intro _ _; exact m.mo (by simp [hp]) (by simp [hp])
  · simpa [masterGot] using hrx
  · simpa [raised] using hcount
  · intro hb
    refine ⟨by simp [isMid], hmid hb⟩
  · intro h1
    have h2 := hlow (by simpa [raised] using h1)
    simp [sinceEdge, rem]
    omega

theorem link_waitSettle (h : Link msg reply c0 m0 v0 h0 x c k s) (hp : s.master.phase = 0x9#4) {u : State}
    (hu : exec .mWaitSettle s = .next u) : Link msg reply c0 m0 v0 h0 x c k u := by
  by_cases ht : s.master.timer = 0
  swap
  · obtain rfl := next_eq (t := s) (by simp [exec, execMWaitSettle, masterWaitThen, whileMaster, ht]) hu
    exact h
  obtain ⟨setup, io, glitch, lat, m, v, sync, mreports, vreports, history⟩ := h
  obtain ⟨hr, hc, hcur, -, -, hlen, hbytes⟩ := m.running (by simp [hp])
  obtain rfl := next_eq (t := enterMaster MPhase.sample s)
    (by simp [exec, execMWaitSettle, masterWaitThen, hr, ht]) hu
  have hcount := sync.count
  have hlow := sync.low
  have hmid := sync.mid
  have hrx := m.rx
  have hp5 := sync.p5
  have hb3 := s.master.bit.isLt
  simp [hp, raised, sinceEdge, rem, isMid, masterGot, ht] at hcount hlow hmid hrx
  have hl := hlow (by omega)
  refine ⟨setup, io, glitch, lat, ⟨.inl ⟨hr, hc, hcur, by simp, by simp, hlen, hbytes⟩, m.len, by simp, ?_, ?_, ?_, ?_⟩,
    ⟨v.run, v.code, v.len, v.bytes, v.cursor, v.zero, v.pos, v.low, v.tx, v.so, v.rx⟩,
    ⟨sync.p5, sync.p6, ?_, ?_, sync.pend, sync.stab, ?_⟩, mreports, vreports, history⟩
  · intro _ _; exact m.clk (by simp [hp]) (by simp [hp])
  · intro _; exact m.tx (by simp [hp])
  · intro _ _; exact m.mo (by simp [hp]) (by simp [hp])
  · simpa [masterGot] using hrx
  · simpa [raised] using hcount
  · intro hb
    have := hmid hb
    omega
  · intro h1
    simp [sinceEdge, rem]
    omega

/-- While the slave is neither busy nor holding an edge, it waits. -/
theorem waiting_codes {p : PhaseCode} (h1 : 2 ≤ p.toNat) (h2 : p.toNat ≤ 8) (h : isBusy p = false) :
    p = 0x3#4 ∨ p = 0x4#4 ∨ p = 0x7#4 := by
  revert p; decide

theorem link_clkHi (h : Link msg reply c0 m0 v0 h0 x c k s) (hp : s.master.phase = 0x5#4) {u : State}
    (hu : exec .mClkHi s = .next u) : Link msg reply c0 m0 v0 h0 x c k u := by
  obtain ⟨setup, io, glitch, lat, m, v, sync, mreports, vreports, history⟩ := h
  obtain ⟨hr, hc, hcur, -, -, hlen, hbytes⟩ := m.running (by simp [hp])
  have hclk := m.clk (by simp [hp]) (by simp [hp])
  have hmid := sync.mid
  simp [hp, isMid] at hmid
  obtain ⟨hbusy, hpend⟩ := hmid
  obtain rfl := next_eq (t := enterMaster MPhase.waitHigh
    { s with lines := { s.lines with clk := true }, slave.edgePend := true, slave.edgeT := s.now })
    (by simp [exec, execMClkHi, hr, unlessIoError_ok io, driveLine_clk_rise hclk, edgeDetect, v.run, hpend]) hu
  have hcount := sync.count
  have hlow := sync.low
  have hrx := m.rx
  have hp5 := sync.p5
  have hp6 := sync.p6
  have hb3 := s.master.bit.isLt
  have hv3 := s.slave.bit.isLt
  simp [hp, raised, sinceEdge, rem, masterGot, hpend] at hcount hlow hrx
  have hstab : s.slave.phase = 0x7#4 → s.slave.timer = 0#32 := by
    intro h7
    have h1 := sync.stab h7
    have h2 : s.slave.bit.toNat ≠ 7 := fun e => v.low h7 (BitVec.eq_of_toNat_eq e)
    simp [h7, took] at hcount
    have h3 := hlow (by omega)
    apply BitVec.eq_of_toNat_eq
    simp
    omega
  refine ⟨setup, io, glitch, lat, ⟨.inl ⟨hr, hc, hcur, by simp, by simp, hlen, hbytes⟩, m.len, by simp, ?_, ?_, ?_, ?_⟩,
    ⟨v.run, v.code, v.len, v.bytes, v.cursor, v.zero, v.pos, v.low, v.tx, v.so, v.rx⟩,
    ⟨sync.p5, sync.p6, ?_, ?_, ?_, ?_, ?_⟩, mreports, vreports, history⟩
  · intro h6; simp at h6
  · intro _; exact m.tx (by simp [hp])
  · intro _ _; exact m.mo (by simp [hp]) (by simp [hp])
  · simpa [masterGot] using hrx
  · simp [raised]
    omega
  · intro hb
    simp [isMid]
  · intro _
    exact ⟨hbusy, hstab⟩
  · intro h7
    have := hstab h7
    simp [this]
    omega
  · intro h1
    simp [sinceEdge, rem]

theorem link_sample (h : Link msg reply c0 m0 v0 h0 x c k s) (hp : s.master.phase = 0xA#4) {u : State}
    (hu : exec .mSample s = .next u) : Link msg reply c0 m0 v0 h0 x c k u := by
  obtain ⟨setup, io, glitch, lat, m, v, sync, mreports, vreports, history⟩ := h
  obtain ⟨hr, hc, hcur, -, -, hlen, hbytes⟩ := m.running (by simp [hp])
  obtain rfl := next_eq (t := enterMaster MPhase.nextBit
    { s with master.rx := setByteBit s.master.rx s.master.bit s.lines.so })
    (by simp [exec, execMSample, hr, unlessIoError_ok io]) hu
  have hcount := sync.count
  have hlow := sync.low
  have hmid := sync.mid
  have hrx := m.rx
  have hb3 := s.master.bit.isLt
  have hv3 := s.slave.bit.isLt
  simp [hp, raised, sinceEdge, rem, isMid, masterGot] at hcount hlow hmid hrx
  have hso : s.lines.so = masterWant reply c0 c s.master.bit := by
    have h2 : s.slave.phase ≠ 0x2#4 := by intro h; rw [h] at hmid; simp [isBusy] at hmid
    have h3 : k = 0 → s.slave.bit ≠ 7#3 := by
      intro k0 b7
      rcases waiting_codes v.code.1 v.code.2 hmid.1 with hq | hq | hq <;>
      · simp [hq, took, hmid.2, k0, b7] at hcount
        omega
    rw [v.so h2 h3, v.tx h2, masterWant]
    rcases waiting_codes v.code.1 v.code.2 hmid.1 with hq | hq | hq <;>
    · simp [hq, took, hmid.2] at hcount
      split
      · rename_i hz
        have hk : k = c + 1 := by simp [hz] at hcount; omega
        have hbv : s.slave.bit = 7#3 := by apply BitVec.eq_of_toNat_eq; simp [hz] at hcount; simp; omega
        rw [hk, hbv]; rfl
      · rename_i hz
        have hz' : s.master.bit.toNat ≠ 0 := fun e => hz (by apply BitVec.eq_of_toNat_eq; simpa using e)
        have hk : k = c := by omega
        have hbv : s.slave.bit = s.master.bit - 1#3 := by
          apply BitVec.eq_of_toNat_eq
          rw [BitVec.toNat_sub]
          simp
          omega
        rw [hk, hbv]
  refine ⟨setup, io, glitch, lat, ⟨.inl ⟨hr, hc, hcur, by simp, by simp, hlen, hbytes⟩, m.len, by simp, ?_, ?_, ?_, ?_⟩,
    ⟨v.run, v.code, v.len, v.bytes, v.cursor, v.zero, v.pos, v.low, v.tx, v.so, v.rx⟩,
    ⟨sync.p5, sync.p6, ?_, ?_, sync.pend, sync.stab, ?_⟩, mreports, vreports, history⟩
  · intro _ _; exact m.clk (by simp [hp]) (by simp [hp])
  · intro _; exact m.tx (by simp [hp])
  · intro _ _; exact m.mo (by simp [hp]) (by simp [hp])
  · intro i hi
    simp [masterGot] at hi
    simp only [enterMaster_master_rx]
    rw [byteBit_setByteBit]
    split
    · rename_i he; rw [he]; exact hso
    · rename_i he
      refine hrx i ?_
      have : i.toNat ≠ s.master.bit.toNat := fun e => he (BitVec.eq_of_toNat_eq e)
      omega
  · simpa [raised] using hcount
  · intro hb
    exact absurd hb (by simpa using hmid)
  · intro h1
    have h2 := hlow (by simpa [raised] using h1)
    simp [sinceEdge, rem]
    omega

theorem link_nextBit (h : Link msg reply c0 m0 v0 h0 x c k s) (hp : s.master.phase = 0xB#4) {u : State}
    (hu : exec .mNextBit s = .next u) : Link msg reply c0 m0 v0 h0 x c k u := by
  obtain ⟨setup, io, glitch, lat, m, v, sync, mreports, vreports, history⟩ := h
  obtain ⟨hr, hc, hcur, -, -, hlen, hbytes⟩ := m.running (by simp [hp])
  have hcount := sync.count
  have hlow := sync.low
  have hmid := sync.mid
  have hrx := m.rx
  have hb3 := s.master.bit.isLt
  simp [hp, raised, sinceEdge, rem, isMid, masterGot] at hcount hlow hmid hrx
  by_cases hz : s.master.bit = 0#3
  · obtain rfl := next_eq (t := enterMaster MPhase.report s) (by simp [exec, execMNextBit, hr, hz]) hu
    simp [hz] at hcount hlow hrx
    refine ⟨setup, io, glitch, lat, ⟨.inl ⟨hr, hc, hcur, by simp, by simp, hlen, hbytes⟩, m.len, fun _ => hz, ?_, ?_, ?_, ?_⟩,
      ⟨v.run, v.code, v.len, v.bytes, v.cursor, v.zero, v.pos, v.low, v.tx, v.so, v.rx⟩,
      ⟨sync.p5, sync.p6, ?_, ?_, sync.pend, sync.stab, ?_⟩, mreports, vreports, history⟩
    · intro _ _; exact m.clk (by simp [hp]) (by simp [hp])
    · intro _; exact m.tx (by simp [hp])
    · simp
    · simpa [masterGot] using hrx
    · simpa [raised] using hcount
    · intro hb
      exact absurd hb (by simpa using hmid)
    · intro h1
      simp [sinceEdge, rem]
      omega
  · obtain rfl := next_eq (t := enterMaster MPhase.driveMo { s with master.bit := s.master.bit - 1#3 })
      (by simp [exec, execMNextBit, hr, hz]) hu
    have hz' : s.master.bit.toNat ≠ 0 := fun e => hz (by apply BitVec.eq_of_toNat_eq; simpa using e)
    have hsub : (s.master.bit - 1#3).toNat = s.master.bit.toNat - 1 := by
      rw [BitVec.toNat_sub]; simp; omega
    refine ⟨setup, io, glitch, lat, ⟨.inl ⟨hr, hc, hcur, by simp, by simp, hlen, hbytes⟩, m.len, by simp, ?_, ?_, ?_, ?_⟩,
      ⟨v.run, v.code, v.len, v.bytes, v.cursor, v.zero, v.pos, v.low, v.tx, v.so, v.rx⟩,
      ⟨sync.p5, sync.p6, ?_, ?_, sync.pend, sync.stab, ?_⟩, mreports, vreports, history⟩
    · intro _ _; exact m.clk (by simp [hp]) (by simp [hp])
    · intro _; exact m.tx (by simp [hp])
    · simp
    · intro i hi
      simp [masterGot, hsub] at hi
      exact hrx i (by omega)
    · simp [raised, hsub]; omega
    · intro hb
      exact absurd hb (by simpa using hmid)
    · intro h1
      simp [sinceEdge, rem]
      omega


/-- A byte is its bits. -/
theorem byte_ext {a b : Byte} (h : ∀ i : BitIndex, byteBit a i = byteBit b i) : a = b := by
  apply BitVec.eq_of_getLsbD_eq
  intro i hi
  have := h (BitVec.ofNat 3 i)
  simpa [byteBit, Nat.mod_eq_of_lt (show i < 8 from hi)] using this

theorem masterWant_byte (reply : List Byte) (c0 c : Nat) (i : BitIndex) :
    byteBit ((replyByte reply (c0 + c) <<< 1) ||| (replyByte reply (c0 + c + 1) >>> 7)) i
      = masterWant reply c0 c i := by
  have hi := i.isLt
  unfold masterWant
  split
  · rename_i h
    subst h
    simp [byteBit]
  · rename_i h
    have hz : i.toNat ≠ 0 := fun e => h (by apply BitVec.eq_of_toNat_eq; simpa using e)
    have hsub : (i - 1#3).toNat = i.toNat - 1 := by rw [BitVec.toNat_sub]; simp; omega
    have h1 : ¬ i.toNat < 1 := by omega
    have h2 : (replyByte reply (c0 + c + 1)).getLsbD (7 + i.toNat) = false :=
      BitVec.getLsbD_of_ge _ _ (by omega)
    simp [byteBit, hsub, hi, h1, h2]
    exact (BitVec.getLsbD_eq_getElem _).symm

theorem link_report (h : Link msg reply c0 m0 v0 h0 x c k s) (hp : s.master.phase = 0xC#4) {u : State}
    (hu : exec .mReport s = .next u) : Link msg reply c0 m0 v0 h0 x (c + 1) k u := by
  obtain ⟨setup, io, glitch, lat, m, v, sync, mreports, vreports, history⟩ := h
  obtain ⟨hr, hc, hcur, -, -, hlen, hbytes⟩ := m.running (by simp [hp])
  have hcount := sync.count
  have hlow := sync.low
  have hmid := sync.mid
  have hrx := m.rx
  have h1024 := m.len
  have hzero := m.zero hp
  simp [hp, raised, sinceEdge, rem, isMid, masterGot] at hcount hlow hmid hrx
  have htx := m.tx (by simp [hp])
  have hnew : (s.master.reports ++ [(⟨s.master.cursor, s.master.tx, s.master.rx, s.now⟩ : Report)]).map Report.body
      = m0 ++ (List.range (c + 1)).map (contractMasterReport msg reply c0) := by
    rw [List.map_append, mreports, List.range_succ, List.map_append, List.append_assoc]
    congr 2
    simp only [List.map_cons, List.map_nil, Report.body, contractMasterReport]
    rw [← htx]
    congr 2
    · apply BitVec.eq_of_toNat_eq
      simp [hcur]; omega
    · congr 1
      apply byte_ext
      intro i
      rw [hrx i, masterWant_byte]
  have hcur' : (s.master.cursor + 1#32).toNat = c + 1 := by
    rw [BitVec.toNat_add, hcur]; simp; omega
  have hcmp : (s.master.cursor + 1#32 < s.master.msgLen) ↔ c + 1 < msg.length := by
    rw [BitVec.lt_def, hcur', hlen]
  have hclk := m.clk (by simp [hp]) (by simp [hp])
  by_cases hmore : c + 1 < msg.length
  · obtain rfl := next_eq (t := enterMaster MPhase.load
      { emitMaster s with master.cursor := s.master.cursor + 1#32 })
      (by simp only [exec, execMReport, whileMaster_running hr, if_pos (hcmp.2 hmore)]) hu
    refine ⟨setup, io, glitch, lat, ⟨.inl ⟨hr, hmore, hcur', by simp, by simp, hlen, hbytes⟩, m.len, by simp, ?_, by simp, by simp, ?_⟩,
      ⟨v.run, v.code, v.len, v.bytes, v.cursor, v.zero, v.pos, v.low, v.tx, v.so, v.rx⟩,
      ⟨sync.p5, sync.p6, ?_, ?_, sync.pend, sync.stab, ?_⟩, hnew, vreports, history⟩
    · intro _ _; exact hclk
    · intro i hi
      have := i.isLt
      simp [masterGot] at hi
      omega
    · simp [raised]; omega
    · intro hb
      exact absurd hb (by simpa using hmid)
    · intro h1
      simp [sinceEdge, rem]
      omega
  · obtain rfl := next_eq (t := finishMaster
      { emitMaster s with master.cursor := s.master.cursor + 1#32 })
      (by simp only [exec, execMReport, whileMaster_running hr, if_neg (fun e => hmore (hcmp.1 e))]) hu
    refine ⟨setup, io, glitch, lat, ⟨.inr ⟨rfl, by omega, rfl⟩, m.len, by simp, ?_, by simp, by simp, ?_⟩,
      ⟨v.run, v.code, v.len, v.bytes, v.cursor, v.zero, v.pos, v.low, v.tx, v.so, v.rx⟩,
      ⟨sync.p5, sync.p6, ?_, ?_, sync.pend, sync.stab, ?_⟩, hnew, vreports, history⟩
    · intro _ _; exact hclk
    · intro i hi
      have := i.isLt
      simp [masterGot] at hi
      omega
    · simp [raised]; omega
    · intro hb
      exact absurd hb (by simpa using hmid)
    · intro h1
      simp [sinceEdge, rem]
      omega

/-! ## The slave's actions -/

theorem link_initial (h : Link msg reply c0 m0 v0 h0 x c k s) (hp : s.slave.phase = 0x2#4) {u : State}
    (hu : exec .sInitial s = .next u) : Link msg reply c0 m0 v0 h0 x c k u := by
  obtain ⟨setup, io, glitch, lat, m, v, sync, mreports, vreports, history⟩ := h
  have hr := v.run
  obtain ⟨hl1, hl2, hl3⟩ := v.len
  have hcl := Nat.mod_lt (c0 + k) hl3
  have hread : s.slave.reply.read ((c0 + k) % reply.length) = some reply[(c0 + k) % reply.length] := v.bytes _ hcl
  have hbyte : reply[(c0 + k) % reply.length] = replyByte reply (c0 + k) := by simp [replyByte, hcl]
  obtain rfl := next_eq (t := enterSlave SPhase.awaitEdge
    { s with lines := { s.lines with so := byteBit (replyByte reply (c0 + k)) 7#3 }, slave.tx := replyByte reply (c0 + k), slave.rx := 0#8, slave.bit := 7#3 })
    (by simp [exec, execSInitial, hr, bufRead, State.buffer, v.cursor, hread, unlessIoError_ok io, hbyte]) hu
  have hcount := sync.count
  have hmid := sync.mid
  have hpend := sync.pend
  simp [hp, took, isBusy] at hcount hmid hpend
  refine ⟨setup, io, glitch, lat, ⟨m.live, m.len, m.zero, m.clk, m.tx, m.mo, m.rx⟩,
    ⟨hr, by simp, v.len, v.bytes, v.cursor, by simp, by simp, by simp, fun _ => rfl, fun _ _ => rfl, ?_⟩,
    ⟨sync.p5, sync.p6, ?_, ?_, ?_, by simp, sync.low⟩, mreports, vreports, history⟩
  · intro i hi
    have := i.isLt
    simp [slaveGot] at hi
    omega
  · simpa [took] using hcount
  · intro _; exact hmid
  · intro hb
    simp [isBusy]

theorem link_awaitEdge (h : Link msg reply c0 m0 v0 h0 x c k s) (hp : s.slave.phase = 0x3#4) {u : State}
    (hu : exec .sAwaitEdge s = .next u) : Link msg reply c0 m0 v0 h0 x c k u := by
  have hid := h
  obtain ⟨setup, io, glitch, lat, m, v, sync, mreports, vreports, history⟩ := h
  have hr := v.run
  have hcount := sync.count
  have hmid := sync.mid
  have hrx := v.rx
  have hb := s.slave.bit.isLt
  simp [hp, took, isBusy, slaveGot] at hcount hmid hrx
  cases hc : s.choice.completion with
  | edge =>
    by_cases hready : edgeReady s = true
    swap
    · obtain rfl := next_eq (t := s) (by simp [exec, execSAwaitEdge, hr, hc, edgeCompletion, hready]) hu
      exact hid
    have hpend : s.slave.edgePend = true := by simp [edgeReady] at hready; exact hready.1
    obtain rfl := next_eq (t := enterSlave SPhase.sample { s with slave.edgePend := false })
      (by simp [exec, execSAwaitEdge, hr, hc, edgeCompletion, hready, unlessIoError_ok io]) hu
    refine ⟨setup, io, glitch, lat, ⟨m.live, m.len, m.zero, m.clk, m.tx, m.mo, m.rx⟩,
      ⟨hr, by simp, v.len, v.bytes, v.cursor, by simp, by simp, by simp, ?_, ?_, ?_⟩,
      ⟨sync.p5, sync.p6, ?_, ?_, ?_, by simp, sync.low⟩, mreports, vreports, history⟩
    · intro _; exact v.tx (by simp [hp])
    · intro _ hk; exact v.so (by simp [hp]) hk
    · intro i hi
      simp [slaveGot] at hi
      exact hrx i hi
    · simp [hpend] at hcount
      simp [took]
      omega
    · intro _; exact hmid hpend
    · intro hb; cases hb
  | timeout =>
    by_cases ht : s.slave.totimer = 0#32
    swap
    · obtain rfl := next_eq (t := s) (by simp [exec, execSAwaitEdge, hr, hc, timeoutCompletion, ht]) hu
      exact hid
    obtain rfl := next_eq (t := enterSlave SPhase.retry s)
      (by simp [exec, execSAwaitEdge, hr, hc, timeoutCompletion, ht, unlessIoError_ok io]) hu
    refine ⟨setup, io, glitch, lat, ⟨m.live, m.len, m.zero, m.clk, m.tx, m.mo, m.rx⟩,
      ⟨hr, by simp, v.len, v.bytes, v.cursor, by simp, by simp, by simp, ?_, ?_, ?_⟩,
      ⟨sync.p5, sync.p6, ?_, ?_, ?_, by simp, sync.low⟩, mreports, vreports, history⟩
    · intro _; exact v.tx (by simp [hp])
    · intro _ hk; exact v.so (by simp [hp]) hk
    · intro i hi
      simp [slaveGot] at hi
      exact hrx i hi
    · simpa [took] using hcount
    · intro hb
      exact hmid (by simpa [isBusy] using hb)
    · intro hb
      simp [isBusy]

theorem link_retry (h : Link msg reply c0 m0 v0 h0 x c k s) (hp : s.slave.phase = 0x4#4) {u : State}
    (hu : exec .sRetry s = .next u) : Link msg reply c0 m0 v0 h0 x c k u := by
  obtain ⟨setup, io, glitch, lat, m, v, sync, mreports, vreports, history⟩ := h
  have hr := v.run
  have hcount := sync.count
  have hmid := sync.mid
  have hrx := v.rx
  simp [hp, took, isBusy, slaveGot] at hcount hmid hrx
  obtain rfl := next_eq (t := enterSlave SPhase.awaitEdge s) (by simp [exec, execSRetry, hr]) hu
  refine ⟨setup, io, glitch, lat, ⟨m.live, m.len, m.zero, m.clk, m.tx, m.mo, m.rx⟩,
    ⟨hr, by simp, v.len, v.bytes, v.cursor, by simp, by simp, by simp, ?_, ?_, ?_⟩,
    ⟨sync.p5, sync.p6, ?_, ?_, ?_, by simp, sync.low⟩, mreports, vreports, history⟩
  · intro _; exact v.tx (by simp [hp])
  · intro _ hk; exact v.so (by simp [hp]) hk
  · intro i hi
    simp [slaveGot] at hi
    exact hrx i hi
  · simpa [took] using hcount
  · intro hb
    exact hmid (by simpa [isBusy] using hb)
  · intro hb
    simp [isBusy]

theorem link_stabilize (h : Link msg reply c0 m0 v0 h0 x c k s) (hp : s.slave.phase = 0x7#4) {u : State}
    (hu : exec .sStabilize s = .next u) : Link msg reply c0 m0 v0 h0 x c k u := by
  have hid := h
  obtain ⟨setup, io, glitch, lat, m, v, sync, mreports, vreports, history⟩ := h
  have hr := v.run
  by_cases ht : s.slave.timer = 0#32
  swap
  · obtain rfl := next_eq (t := s) (by simp [exec, execSStabilize, hr, ht]) hu
    exact hid
  have hcount := sync.count
  have hmid := sync.mid
  have hrx := v.rx
  simp [hp, took, isBusy, slaveGot] at hcount hmid hrx
  obtain rfl := next_eq (t := enterSlave SPhase.awaitEdge s) (by simp [exec, execSStabilize, hr, ht]) hu
  refine ⟨setup, io, glitch, lat, ⟨m.live, m.len, m.zero, m.clk, m.tx, m.mo, m.rx⟩,
    ⟨hr, by simp, v.len, v.bytes, v.cursor, by simp, by simp, by simp, ?_, ?_, ?_⟩,
    ⟨sync.p5, sync.p6, ?_, ?_, ?_, by simp, sync.low⟩, mreports, vreports, history⟩
  · intro _; exact v.tx (by simp [hp])
  · intro _ hk; exact v.so (by simp [hp]) hk
  · intro i hi
    simp [slaveGot] at hi
    exact hrx i hi
  · simpa [took] using hcount
  · intro hb
    exact hmid (by simpa [isBusy] using hb)
  · intro hb
    simp [isBusy]

theorem mid_codes {p : PhaseCode} (h : isMid p = true) : p = 0x6#4 ∨ p = 0x7#4 ∨ p = 0x8#4 ∨ p = 0x9#4 := by
  revert p; decide

theorem link_slaveSample (h : Link msg reply c0 m0 v0 h0 x c k s) (hp : s.slave.phase = 0x5#4) {u : State}
    (hu : exec .sSample s = .next u) : Link msg reply c0 m0 v0 h0 x c k u := by
  obtain ⟨setup, io, glitch, lat, m, v, sync, mreports, vreports, history⟩ := h
  have hr := v.run
  have hcount := sync.count
  have hmid := sync.mid
  have hpend := sync.pend
  have hrx := v.rx
  have hb := s.slave.bit.isLt
  have hmb := s.master.bit.isLt
  simp [hp, took, isBusy, slaveGot] at hcount hmid hpend hrx
  obtain ⟨hmid1, hmid2⟩ := hmid
  have hne : s.master.phase ≠ 0#4 := by intro e; rw [e] at hmid1; simp [isMid] at hmid1
  obtain ⟨-, hc, -, -, -, -, -⟩ := m.running hne
  have hmo : s.lines.mo = byteBit ((msg[k]?).getD 0#8) s.slave.bit := by
    have key : k = c ∧ s.slave.bit = s.master.bit ∧ s.lines.mo = byteBit s.master.tx s.master.bit ∧
        some s.master.tx = msg[c]? := by
      rcases mid_codes hmid1 with hq | hq | hq | hq <;>
      · have h1 := m.mo (by simp [hq]) (by simp [hq])
        have h2 := m.tx (by simp [hq])
        simp [hq, raised, hpend] at hcount
        exact ⟨by omega, BitVec.eq_of_toNat_eq (by omega), h1, h2⟩
    obtain ⟨hk, hbit, h1, h2⟩ := key
    rw [hk, hbit, h1, ← h2]; rfl
  obtain rfl := next_eq (t := enterSlave (if s.slave.bit = 0#3 then SPhase.byteComplete else SPhase.driveNext)
      { s with slave.rx := setByteBit s.slave.rx s.slave.bit s.lines.mo })
    (by simp [exec, execSSample, hr, unlessIoError_ok io]) hu
  have hnew : ∀ i : BitIndex, s.slave.bit.toNat ≤ i.toNat →
      byteBit (setByteBit s.slave.rx s.slave.bit s.lines.mo) i = byteBit ((msg[k]?).getD 0#8) i := by
    intro i hi
    rw [byteBit_setByteBit]
    split
    · rename_i he; rw [he]; exact hmo
    · rename_i he
      have : i.toNat ≠ s.slave.bit.toNat := fun e => he (BitVec.eq_of_toNat_eq e)
      exact hrx i (by omega)
  by_cases hz : s.slave.bit = 0#3
  · rw [if_pos hz]
    simp only [hz] at hcount
    refine ⟨setup, io, glitch, lat, ⟨m.live, m.len, m.zero, m.clk, m.tx, m.mo, m.rx⟩,
      ⟨hr, by simp, v.len, v.bytes, v.cursor, fun _ => hz, by simp, by simp, ?_, ?_, ?_⟩,
      ⟨sync.p5, sync.p6, ?_, ?_, ?_, by simp, sync.low⟩, mreports, vreports, history⟩
    · intro _; exact v.tx (by simp [hp])
    · intro _ hk; exact v.so (by simp [hp]) hk
    · intro i hi
      exact hnew i (by simp [hz])
    · simpa [took, hz] using hcount
    · intro _; exact ⟨hmid1, hmid2⟩
    · intro hb
      exact absurd hb (by simpa using hpend)
  · rw [if_neg hz]
    refine ⟨setup, io, glitch, lat, ⟨m.live, m.len, m.zero, m.clk, m.tx, m.mo, m.rx⟩,
      ⟨hr, by simp, v.len, v.bytes, v.cursor, by simp, fun _ => hz, by simp, ?_, ?_, ?_⟩,
      ⟨sync.p5, sync.p6, ?_, ?_, ?_, by simp, sync.low⟩, mreports, vreports, history⟩
    · intro _; exact v.tx (by simp [hp])
    · intro _ hk; exact v.so (by simp [hp]) hk
    · intro i hi
      simp [slaveGot] at hi
      exact hnew i hi
    · simpa [took] using hcount
    · intro _; exact ⟨hmid1, hmid2⟩
    · intro hb
      exact absurd hb (by simpa using hpend)

theorem link_driveNext (h : Link msg reply c0 m0 v0 h0 x c k s) (hp : s.slave.phase = 0x6#4) {u : State}
    (hu : exec .sDriveNext s = .next u) : Link msg reply c0 m0 v0 h0 x c k u := by
  obtain ⟨setup, io, glitch, lat, m, v, sync, mreports, vreports, history⟩ := h
  have hr := v.run
  have hcount := sync.count
  have hmid := sync.mid
  have hpend := sync.pend
  have hrx := v.rx
  have hb := s.slave.bit.isLt
  have hz := v.pos hp
  have hz' : s.slave.bit.toNat ≠ 0 := fun e => hz (by apply BitVec.eq_of_toNat_eq; simpa using e)
  have hsub : (s.slave.bit - 1#3).toNat = s.slave.bit.toNat - 1 := by
    rw [BitVec.toNat_sub]; simp; omega
  simp [hp, took, isBusy, slaveGot] at hcount hmid hpend hrx
  obtain ⟨hmid1, hmid2⟩ := hmid
  obtain rfl := next_eq (t := enterSlave SPhase.stabilize
      { s with lines := { s.lines with so := byteBit s.slave.tx (s.slave.bit - 1#3) }, slave.bit := s.slave.bit - 1#3 })
    (by simp [exec, execSDriveNext, hr, unlessIoError_ok io, bitBelow, hz]) hu
  refine ⟨setup, io, glitch, lat, ⟨m.live, m.len, m.zero, m.clk, m.tx, m.mo, m.rx⟩,
    ⟨hr, by simp, v.len, v.bytes, v.cursor, by simp, by simp, ?_, ?_, ?_, ?_⟩,
    ⟨sync.p5, sync.p6, ?_, ?_, ?_, ?_, sync.low⟩, mreports, vreports, history⟩
  · intro _ e
    have e : s.slave.bit - 1#3 = 7#3 := e
    have := congrArg BitVec.toNat e
    rw [hsub] at this
    simp at this
    omega
  · intro _; exact v.tx (by simp [hp])
  · intro _ _; rfl
  · intro i hi
    simp [slaveGot, hsub] at hi
    exact hrx i (by omega)
  · simp [took, hsub]
    omega
  · intro _; exact ⟨hmid1, hmid2⟩
  · intro hb
    exact absurd hb (by simpa using hpend)
  · intro _
    simp
    omega

theorem link_byteComplete (h : Link msg reply c0 m0 v0 h0 x c k s) (hp : s.slave.phase = 0x8#4) {u : State}
    (hu : exec .sByteComplete s = .next u) : Link msg reply c0 m0 v0 h0 x c (k + 1) u := by
  obtain ⟨setup, io, glitch, lat, m, v, sync, mreports, vreports, history⟩ := h
  have hr := v.run
  obtain ⟨hl1, hl2, hl3⟩ := v.len
  have hcount := sync.count
  have hmid := sync.mid
  have hpend := sync.pend
  have hrx := v.rx
  have hb := s.slave.bit.isLt
  have hmb := s.master.bit.isLt
  simp [hp, took, isBusy, slaveGot] at hcount hmid hpend hrx
  obtain ⟨hmid1, hmid2⟩ := hmid
  have hne : s.master.phase ≠ 0#4 := by intro e; rw [e] at hmid1; simp [isMid] at hmid1
  obtain ⟨-, hc, -, -, -, -, -⟩ := m.running hne
  have hk : k < msg.length := by
    rcases mid_codes hmid1 with hq | hq | hq | hq <;>
    · simp [hq, raised, hpend] at hcount
      omega
  obtain rfl := next_eq (t := enterSlave SPhase.initial
      { emitSlave s with slave.cursor := cursorNext s.slave.cursor s.slave.replyLen })
    (by simp [exec, execSByteComplete, hr]) hu
  have hlen0 : s.slave.replyLen ≠ 0#32 := by intro e; rw [e] at hl1; simp at hl1; omega
  have hcur : (cursorNext s.slave.cursor s.slave.replyLen).toNat = (c0 + (k + 1)) % reply.length := by
    rw [cursorNext_toNat hlen0, v.cursor, hl1, Nat.mod_add_mod, Nat.add_assoc]
  have hnew : (s.slave.reports ++ [(⟨s.slave.cursor, s.slave.tx, s.slave.rx, s.now⟩ : Report)]).map Report.body
      = v0 ++ (List.range (k + 1)).map (contractSlaveReport msg reply c0) := by
    rw [List.map_append, vreports, List.range_succ, List.map_append, List.append_assoc]
    congr 2
    simp only [List.map_cons, List.map_nil, Report.body, contractSlaveReport]
    have h1 : s.slave.rx = (msg[k]?).getD 0#8 := by
      apply byte_ext
      intro i
      exact hrx i
    rw [v.tx (by simp [hp]), ← h1]
    congr 2
    apply BitVec.eq_of_toNat_eq
    rw [v.cursor]
    simp
    have := Nat.mod_lt (c0 + k) hl3
    omega
  refine ⟨setup, io, glitch, lat, ⟨m.live, m.len, m.zero, m.clk, m.tx, m.mo, m.rx⟩,
    ⟨hr, by simp, v.len, v.bytes, hcur, by simp, by simp, by simp, by simp, by simp, ?_⟩,
    ⟨sync.p5, sync.p6, ?_, ?_, ?_, by simp, sync.low⟩, mreports, hnew, history⟩
  · intro i hi
    have := i.isLt
    simp [slaveGot] at hi
    omega
  · simp [took]
    omega
  · intro _; exact ⟨hmid1, hmid2⟩
  · intro hb
    exact absurd hb (by simpa using hpend)


/-! ## Host, time, glitch -/

theorem link_hostOp {i : Instr} (h : Link msg reply c0 m0 v0 h0 x c k s) (hi : i.isHostOp = true)
    (h1 : i ≠ .hWrMStop) (h2 : i ≠ .hWrMStart) (h3 : i ≠ .hWrSStop) (h4 : i ≠ .hWrSStart) {u : State}
    (hu : exec i s = .next u) : Link msg reply c0 m0 v0 h0 x c k u := by
  have hid := h
  obtain ⟨setup, io, glitch, lat, m, v, sync, mreports, vreports, history⟩ := h
  have hr := v.run
  have hdone : ∀ (mm : Master), s.master.state ≠ .running → mm.state = s.master.state → mm.phase = s.master.phase →
      mm.bit = s.master.bit → mm.cursor = s.master.cursor → mm.tx = s.master.tx → mm.rx = s.master.rx →
      mm.timer = s.master.timer → mm.reports = s.master.reports →
      Link msg reply c0 m0 v0 h0 x c k { s with master := mm } := by
    intro mm hn e1 e2 e3 e4 e5 e6 e7 e8
    have hl : s.master.state = .done ∧ c = msg.length ∧ s.master.phase = 0#4 := by
      rcases m.live with hl | hl
      · exact absurd hl.1 hn
      · exact hl
    refine ⟨setup, io, glitch, lat, ⟨.inr ⟨e1 ▸ hl.1, hl.2.1, e2 ▸ hl.2.2⟩, m.len, ?_, ?_, ?_, ?_, ?_⟩,
      ⟨v.run, v.code, v.len, v.bytes, v.cursor, v.zero, v.pos, v.low, v.tx, v.so, v.rx⟩,
      ⟨sync.p5, sync.p6, ?_, ?_, sync.pend, sync.stab, ?_⟩, ?_, vreports, history⟩
    · simpa only [e2, e3] using m.zero
    · simpa only [e2] using m.clk
    · simpa only [e2, e5] using m.tx
    · simpa only [e2, e3, e5] using m.mo
    · simpa only [e2, e3, e6] using m.rx
    · simpa only [e2, e3] using sync.count
    · simpa only [e2] using sync.mid
    · simpa only [e2, e3, e7] using sync.low
    · simpa only [e8] using mreports
  cases i <;> simp [Instr.isHostOp, Instr.isMasterOp, Instr.isSlaveOp] at hi <;> simp at h1 h2 h3 h4
  case hRd a =>
    obtain rfl := next_eq rfl hu
    exact ⟨setup, io, glitch, lat, m, v, sync, mreports, vreports, history⟩
  case hWrMMsgLen n =>
    by_cases hw : s.master.state ≠ .running ∧ n.toNat ≤ s.cfg.msgCap
    · obtain rfl := next_eq (t := { s with master.msgLen := n }) (by simp only [exec, execHWrMMsgLen, if_pos hw]) hu
      exact hdone _ hw.1 rfl rfl rfl rfl rfl rfl rfl rfl
    · obtain rfl := next_eq (t := s) (by simp only [exec, execHWrMMsgLen, if_neg hw]) hu
      exact hid
  case hWrMMsg j b =>
    by_cases hw : s.master.state ≠ .running ∧ j.toNat < s.cfg.msgCap
    · obtain rfl := next_eq (t := { s with master.msg := s.master.msg.write j.toNat b })
        (by simp only [exec, execHWrMMsg, if_pos hw]) hu
      exact hdone _ hw.1 rfl rfl rfl rfl rfl rfl rfl rfl
    · obtain rfl := next_eq (t := s) (by simp only [exec, execHWrMMsg, if_neg hw]) hu
      exact hid
  case hWrSReplyLen n =>
    obtain rfl := next_eq (t := s) (by simp [exec, execHWrSReplyLen, hr]) hu
    exact hid
  case hWrSReply j b =>
    obtain rfl := next_eq (t := s) (by simp [exec, execHWrSReply, hr]) hu
    exact hid
  case hWrTpBitPeriod p =>
    obtain rfl := next_eq (t := s) (by simp [exec, execHWrTpBitPeriod, tpWritable, hr]) hu
    exact hid
  case hWrTpSampleSettle p =>
    obtain rfl := next_eq (t := s) (by simp [exec, execHWrTpSampleSettle, tpWritable, hr]) hu
    exact hid
  case hWrTpStabilize p =>
    obtain rfl := next_eq (t := s) (by simp [exec, execHWrTpStabilize, tpWritable, hr]) hu
    exact hid
  case hWrTpEdgeWait p =>
    obtain rfl := next_eq (t := s) (by simp [exec, execHWrTpEdgeWait, tpWritable, hr]) hu
    exact hid
  case hWrIgnored a d =>
    obtain rfl := next_eq rfl hu
    exact hid

theorem link_step (h : Link msg reply c0 m0 v0 h0 x c k s) (hc : s.choice.noControl) {t : State}
    (ht : step s = .next t) : ∃ c' k', Link msg reply c0 m0 v0 h0 x c' k' t := by
  obtain ⟨-, -, u, rfl, hact⟩ := step_next ht
  rcases hact with ⟨-, i, hd, hu⟩ | ⟨-, i, hd, hu⟩ | ⟨w, hw, hu⟩ | ⟨-, rfl⟩ | ⟨l, b, -, rfl⟩
  · cases decodeMaster_code hd with
    | idle hp =>
      obtain rfl := next_eq rfl hu
      exact ⟨c, k, h.advance⟩
    | acquire hp =>
      rcases h.m.live with hl | hl
      · rw [hp] at hl; simp at hl
      · rw [hp] at hl; simp at hl
    | load hp =>
      exact ⟨c, k, (link_load h hp hu).advance⟩
    | driveMo hp =>
      exact ⟨c, k, (link_driveMo h hp hu).advance⟩
    | waitSetup hp =>
      exact ⟨c, k, (link_waitSetup h hp hu).advance⟩
    | clkHi hp =>
      exact ⟨c, k, (link_clkHi h hp hu).advance⟩
    | waitHigh hp =>
      exact ⟨c, k, (link_waitHigh h hp hu).advance⟩
    | clkLo hp =>
      exact ⟨c, k, (link_clkLo h hp hu).advance⟩
    | waitLow hp =>
      exact ⟨c, k, (link_waitLow h hp hu).advance⟩
    | waitSettle hp =>
      exact ⟨c, k, (link_waitSettle h hp hu).advance⟩
    | sample hp =>
      exact ⟨c, k, (link_sample h hp hu).advance⟩
    | nextBit hp =>
      exact ⟨c, k, (link_nextBit h hp hu).advance⟩
    | report hp =>
      exact ⟨c + 1, k, (link_report h hp hu).advance⟩
  · have hcode := h.v.code
    cases decodeSlave_code hd with
    | idle hp =>
      rw [hp] at hcode; simp at hcode
    | acquire hp =>
      rw [hp] at hcode; simp at hcode
    | initial hp =>
      exact ⟨c, k, (link_initial h hp hu).advance⟩
    | awaitEdge hp =>
      exact ⟨c, k, (link_awaitEdge h hp hu).advance⟩
    | retry hp =>
      exact ⟨c, k, (link_retry h hp hu).advance⟩
    | sample hp =>
      exact ⟨c, k, (link_slaveSample h hp hu).advance⟩
    | driveNext hp =>
      exact ⟨c, k, (link_driveNext h hp hu).advance⟩
    | stabilize hp =>
      exact ⟨c, k, (link_stabilize h hp hu).advance⟩
    | byteComplete hp =>
      exact ⟨c, k + 1, (link_byteComplete h hp hu).advance⟩
  · obtain ⟨n1, n2, n3, n4⟩ := hc
    simp only [Choice.hostOp, hw, ne_eq, Option.some.injEq] at n1 n2 n3 n4
    exact ⟨c, k, (link_hostOp h (decodeHtw_isHostOp w) n1 n2 n3 n4 hu).advance⟩
  · rcases timeStep_cases s with ⟨-, e⟩ | ⟨e1, e2, e⟩
    · rw [e]; exact ⟨c, k, h.advance⟩
    · rw [e]; exact ⟨c, k, (link_tick h e1 e2).advance⟩
  · rcases glitchStep_cases l b s with ⟨-, e⟩ | ⟨e1, e⟩
    · rw [e]; exact ⟨c, k, h.advance⟩
    · rw [h.glitch] at e1; cases e1

theorem link_start {msg reply : List Byte} {c0 : Nat} (h : ContractStart s msg reply c0) : ∃ x,
    Link msg reply c0 (s.master.reports.map Report.body) (s.slave.reports.map Report.body) s.history x 0 0 s := by
  obtain ⟨x, hx, h5, h6⟩ := h.p5
  have hmp := h.master_phase
  have hmb := h.master_bit
  have hsp := h.p3_phase
  have hc0 := h.c0_lt
  have hlen := h.reply_len
  have htx := h.master_tx
  have hN : 0 < msg.length := by
    rcases Nat.eq_zero_or_pos msg.length with h0 | h0
    · rw [List.length_eq_zero_iff] at h0; rw [h0] at htx; simp at htx
    · exact h0
  simp only [MPhase.clkHi_code] at hmp
  simp only [SPhase.awaitEdge_code, SPhase.retry_code] at hsp
  refine ⟨x, h.p1_setup, h.p1_io, h.p1_glitch, hx,
    ⟨.inl ⟨h.master, hN, by rw [h.master_cursor]; rfl, by simp [hmp], by simp [hmp], h.msg_len.1, h.msg_bytes⟩, h.msg_len.2,
      by simp [hmp], fun _ _ => h.p2_clk, fun _ => htx, fun _ _ => by rw [hmb]; exact h.mo, ?_⟩,
    ⟨h.p3_slave, ?_, ⟨hlen.1, hlen.2, by omega⟩, h.reply_bytes, ?_, ?_, ?_, ?_, fun _ => h.p3_tx, ?_, ?_⟩,
    ⟨h5, h6, ?_, ?_, ?_, ?_, ?_⟩, by simp, by simp, rfl⟩
  · intro i hi
    have := i.isLt
    simp [hmp, masterGot, hmb] at hi
    omega
  · rcases hsp with e | e <;> simp [e]
  · rw [h.p3_cursor, Nat.add_zero, Nat.mod_eq_of_lt hc0]
    simp; omega
  · rcases hsp with e | e <;> simp [e]
  · rcases hsp with e | e <;> simp [e]
  · rcases hsp with e | e <;> simp [e]
  · intro _ hb; exact absurd h.p3_bit (hb rfl)
  · intro i hi
    have := i.isLt
    rcases hsp with e | e <;> simp [e, slaveGot, h.p3_bit] at hi <;> omega
  · rcases hsp with e | e <;> simp [e, took, raised, hmp, hmb, h.p3_bit, h.p3_latch]
  · rcases hsp with e | e <;> simp [e, isBusy, h.p3_latch]
  · simp [h.p3_latch]
  · rcases hsp with e | e <;> simp [e]
  · simp [raised, hmp, hmb]

/-- The slave is never behind the master's reports and at most one byte ahead of them. -/
theorem Link.counts (h : Link msg reply c0 m0 v0 h0 x c k s) : c ≤ k ∧ k ≤ msg.length := by
  obtain ⟨-, -, -, -, m, v, sync, -, -, -⟩ := h
  have hcount := sync.count
  have hmid := sync.mid
  have hb := s.slave.bit.isLt
  have hmb := s.master.bit.isLt
  have hz8 := v.zero
  have hpend : s.slave.edgePend.toNat ≤ 1 := by cases s.slave.edgePend <;> simp
  have hfree : isBusy s.slave.phase = true → s.slave.edgePend.toNat = 0 := by
    have := sync.pend
    cases he : s.slave.edgePend <;> simp [he] at this ⊢
    exact this.1
  rcases m.live with ⟨-, hc, -, h2, h12, -, -⟩ | ⟨-, hc, hp⟩
  · rcases master_codes h2 h12 with hp | hp | hp | hp | hp | hp | hp | hp | hp | hp | hp <;>
      rcases slave_codes v.code.1 v.code.2 with hq | hq | hq | hq | hq | hq | hq <;>
      simp [hp, hq, raised, took, isMid, isBusy] at hcount hmid hz8 hfree <;>
      (try simp [hmid] at hcount) <;> (try simp [hfree] at hcount) <;> omega
  · rcases slave_codes v.code.1 v.code.2 with hq | hq | hq | hq | hq | hq | hq <;>
      simp [hp, hq, raised, took, isMid, isBusy] at hcount hmid <;>
      (try simp [hmid] at hcount) <;> omega

/-- When the master is done, the slave waits for the next edge at the first bit of its next byte. -/
theorem Link.at_done (h : Link msg reply c0 m0 v0 h0 x c k s) (hN : 0 < msg.length) (hd : s.master.state = .done) :
    c = msg.length ∧ k = msg.length ∧ s.slave.phase ∈ [SPhase.awaitEdge, SPhase.retry] ∧ s.slave.bit = 7#3 ∧
      s.slave.edgePend = false ∧ s.slave.cursor = BitVec.ofNat 32 ((c0 + msg.length) % reply.length) ∧
      s.lines.so = byteBit (replyByte reply (c0 + msg.length)) 7#3 := by
  obtain ⟨-, -, -, -, m, v, sync, -, -, -⟩ := h
  have hcount := sync.count
  have hmid := sync.mid
  have hb := s.slave.bit.isLt
  obtain ⟨hl1, hl2, hl3⟩ := v.len
  have hmod := Nat.mod_lt (c0 + msg.length) hl3
  rcases m.live with ⟨hr, -⟩ | ⟨-, hc, hp⟩
  · rw [hd] at hr; cases hr
  simp [hp, isMid] at hmid
  have hq := waiting_codes v.code.1 v.code.2 hmid.1
  have hbit : s.slave.bit = 7#3 ∧ k = c := by
    rcases hq with hq | hq | hq <;> simp [hp, hq, raised, took, hmid.2] at hcount <;>
      exact ⟨BitVec.eq_of_toNat_eq (by simp; omega), by omega⟩
  have hk : k = msg.length := by omega
  have hq2 : s.slave.phase = 0x3#4 ∨ s.slave.phase = 0x4#4 := by
    rcases hq with hq | hq | hq
    · exact .inl hq
    · exact .inr hq
    · exact absurd hbit.1 (v.low hq)
  have h2 : s.slave.phase ≠ 0x2#4 := by rcases hq2 with hq | hq <;> simp [hq]
  refine ⟨hc, hk, by simpa using hq2, hbit.1, hmid.2, ?_, ?_⟩
  · apply BitVec.eq_of_toNat_eq
    rw [v.cursor, hk]
    simp
    omega
  · rw [v.so h2 (fun e => by omega), v.tx h2, hbit.1, hk]

end Sys2Proof.Machine.Contract
end

