-- ==== Sys2Proof/Laws/Encoding.lean ====
section
/-! SUPPORT. The fields of host addresses and data as numbers (30_encoding.md R107, R108), what a host read of a buffer entry returns, and when an engine is urgent, as propositions. -/

namespace Sys2Proof

/-- Bit 1 of a control write, STOP. -/
theorem ctrl_stop (d : Word) : (d.extractLsb' 1 1 == 1#1) = d.getLsbD 1 := by
  rw [Bool.eq_iff_iff, beq_iff_eq]
  constructor
  · intro h
    simpa using congrArg (fun x : BitVec 1 => x.getLsbD 0) h
  · intro h
    ext i hi
    obtain rfl : i = 0 := by omega
    simpa using h

/-- Bit 0 of a control write, START. -/
theorem ctrl_start (d : Word) : (d.extractLsb' 0 1 == 1#1) = d.getLsbD 0 := by
  rw [Bool.eq_iff_iff, beq_iff_eq]
  constructor
  · intro h
    simpa using congrArg (fun x : BitVec 1 => x.getLsbD 0) h
  · intro h
    ext i hi
    obtain rfl : i = 0 := by omega
    simpa using h

/-- A control write with neither bit. -/
theorem ctrl_neither (d : Word) : d.extractLsb' 0 2 = 0#2 ↔ ¬ (d.getLsbD 1 = true ∨ d.getLsbD 0 = true) := by
  constructor
  · rintro h (e | e)
    · have := congrArg (fun x : BitVec 2 => x.getLsbD 1) h
      simp at this e
      simp [this] at e
    · have := congrArg (fun x : BitVec 2 => x.getLsbD 0) h
      simp at this e
      simp [this] at e
  · intro h
    simp at h
    ext i hi
    have : i = 0 ∨ i = 1 := by omega
    rcases this with rfl | rfl <;> simp [h]

theorem addrWindow_iff (a : HostAddr) (k : BitVec 4) : addrWindow a = k ↔ a.toNat / 4096 = k.toNat := by
  have ha := a.isLt
  have hw : (addrWindow a).toNat = a.toNat / 4096 := by
    simp [addrWindow, BitVec.extractLsb'_toNat, Nat.shiftRight_eq_div_pow]
    omega
  rw [← BitVec.toNat_inj, hw]

theorem addrAligned_iff (a : HostAddr) : addrAligned a = true ↔ a.toNat % 4 = 0 := by
  rw [addrAligned, beq_iff_eq, ← BitVec.toNat_inj]
  simp [BitVec.extractLsb'_toNat]

theorem addrIndex_toNat (a : HostAddr) : (addrIndex a).toNat = a.toNat / 4 % 1024 := by
  simp [addrIndex, BitVec.extractLsb'_toNat, Nat.shiftRight_eq_div_pow]

theorem msgAddr_toNat (i : BitVec 10) : (msgAddr i).toNat = 0x1000 + 4 * i.toNat := by
  revert i; decide

theorem replyAddr_toNat (i : BitVec 10) : (replyAddr i).toNat = 0x2000 + 4 * i.toNat := by
  revert i; decide

/-- The address of an entry, by its window, its alignment and its index. -/
theorem entry_iff (a : HostAddr) (i : BitVec 10) (k : Nat) :
    a.toNat = 0x1000 * k + 4 * i.toNat ↔ a.toNat / 4096 = k ∧ a.toNat % 4 = 0 ∧ i = addrIndex a := by
  have hi := i.isLt
  have := addrIndex_toNat a
  constructor
  · intro h
    exact ⟨by omega, by omega, BitVec.eq_of_toNat_eq (by omega)⟩
  · rintro ⟨h1, h2, rfl⟩
    omega

/-- The byte a buffer write carries. -/
@[simp] theorem dataByte_setWidth (v : Byte) : (v.setWidth 32 : Word).extractLsb' 0 8 = v := by
  ext i hi
  simp [hi]
  omega

/-- The writes that no row 2 to 13 of R108 selects, by number. -/
theorem isIgnoredWrite_iff (a : HostAddr) (d : Word) : isIgnoredWrite a d = true ↔
    ¬ (a ∈ [0x0000#16, 0x0100#16] ∧ (d.getLsbD 1 = true ∨ d.getLsbD 0 = true)) ∧
      a ∉ [0x0008#16, 0x0108#16, 0x0200#16, 0x020C#16, 0x0210#16, 0x0214#16] ∧
      ¬ (a.toNat % 4 = 0 ∧ 0x1000 ≤ a.toNat ∧ a.toNat < 0x3000) := by
  have h1 := addrWindow_iff a 1#4
  have h2 := addrWindow_iff a 2#4
  have h3 := addrAligned_iff a
  simp [addrWindow, addrAligned] at h1 h2 h3
  unfold isIgnoredWrite
  simp [h1, h2, h3, ctrl_neither]
  constructor
  · rintro ⟨⟨⟨h4, h5⟩, h6⟩, h7⟩
    refine ⟨?_, by tauto, ?_⟩
    · intro ha
      rcases h4 with h4 | h4
      · tauto
      · simpa using h4
    · intro e1 e2
      by_contra hc
      rcases h7 with h7 | h7 <;> omega
  · rintro ⟨h4, h5, h6⟩
    refine ⟨⟨⟨?_, by tauto⟩, by tauto⟩, ?_⟩
    · by_cases ha : a = 0#16 ∨ a = 256#16
      · exact .inr (by simpa using h4 ha)
      · exact .inl (by tauto)
    · by_cases e : a.toNat % 4 = 0
      · have := h6 e
        exact .inl ⟨by intro; omega, by intro; omega⟩
      · exact .inr e

namespace Machine

/-- A host read of a message entry: its byte below the capacity, 0 above it. -/
theorem hostRead_msgAddr (s : State) (j : BitVec 10) : hostRead (msgAddr j) s =
    if j.toNat < s.cfg.msgCap then (bufHostRead .master j.toNat s).setWidth 32 else 0#32 := by
  have h : msgAddr j ∉ [0x0000#16, 0x0100#16, 0x0004#16, 0x0104#16, 0x0008#16, 0x000C#16, 0x0010#16, 0x0014#16,
      0x0108#16, 0x010C#16, 0x0110#16, 0x0114#16, 0x0200#16, 0x0204#16, 0x0208#16, 0x020C#16, 0x0210#16, 0x0214#16,
      0x0300#16] := by
    revert j; decide
  simp at h
  unfold hostRead
  simp [h, Addr.mCtrl, Addr.sCtrl, Addr.mStatus, Addr.sStatus]

/-- A host read of a reply entry: its byte below the capacity, 0 above it. -/
theorem hostRead_replyAddr (s : State) (j : BitVec 10) : hostRead (replyAddr j) s =
    if j.toNat < s.cfg.replyCap then (bufHostRead .slave j.toNat s).setWidth 32 else 0#32 := by
  have h : replyAddr j ∉ [0x0000#16, 0x0100#16, 0x0004#16, 0x0104#16, 0x0008#16, 0x000C#16, 0x0010#16, 0x0014#16,
      0x0108#16, 0x010C#16, 0x0110#16, 0x0114#16, 0x0200#16, 0x0204#16, 0x0208#16, 0x020C#16, 0x0210#16, 0x0214#16,
      0x0300#16] := by
    revert j; decide
  simp at h
  unfold hostRead
  simp [h, Addr.mCtrl, Addr.sCtrl, Addr.mStatus, Addr.sStatus]

/-- When the master has an urgent action (20_memory.md R89). -/
theorem masterUrgent_iff (s : State) : masterUrgent s = true ↔ s.master.state = .running ∧
    (s.master.phase ∈ [0x1#4, 0x2#4, 0x3#4, 0x5#4, 0x7#4, 0xA#4, 0xB#4, 0xC#4] ∨
      s.master.phase ∈ [0x4#4, 0x6#4, 0x8#4, 0x9#4] ∧ s.master.timer = 0) := by
  simp [masterUrgent, isMasterInstant, isMasterWait]
  tauto

/-- When the slave has an urgent action (20_memory.md R89). -/
theorem slaveUrgent_iff (s : State) : slaveUrgent s = true ↔ s.slave.state = .running ∧
    (s.slave.phase ∈ [0x1#4, 0x2#4, 0x4#4, 0x5#4, 0x6#4, 0x8#4] ∨
      s.slave.phase = 0x7#4 ∧ s.slave.timer = 0#32 ∨
      s.slave.phase = 0x3#4 ∧
        (s.slave.totimer = 0#32 ∨
          s.slave.edgePend = true ∧ ∃ x, s.cfg.latMax = some x ∧ s.slave.edgeT + x ≤ s.now)) := by
  cases h : s.cfg.latMax <;> simp [slaveUrgent, isSlaveInstant, edgeDue, h] <;> tauto

end Machine

end Sys2Proof
end

