-- ==== Sys2Proof/Laws/Lockstep.lean ====
section
/-! SUPPORT. The master runs by itself (40_master.md R145): machines that agree on the master's own inputs take the same master moves. -/

namespace Sys2Proof.Machine

/-- The two machines agree on what the master does and reads: its view and the tick, and while it runs its message and the timing policy. -/
structure SameMaster (s₁ s₂ : State) : Prop where
  quiet₁ : s₁.cfg.Quiet
  quiet₂ : s₂.cfg.Quiet
  view : s₁.masterView = s₂.masterView
  now : s₁.now = s₂.now
  inputs : s₁.master.state = .running →
    s₁.tp = s₂.tp ∧ s₁.master.msgLen = s₂.master.msgLen ∧ s₁.master.msg = s₂.master.msg

theorem SameMaster.symm {s₁ s₂ : State} (h : SameMaster s₁ s₂) : SameMaster s₂ s₁ := by
  refine ⟨h.quiet₂, h.quiet₁, h.view.symm, h.now.symm, fun hr => ?_⟩
  obtain ⟨h1, h2, h3⟩ := h.inputs ((congrArg MasterView.state h.view).trans hr)
  exact ⟨h1.symm, h2.symm, h3.symm⟩

theorem SameMaster.trans {s₁ s₂ s₃ : State} (h : SameMaster s₁ s₂) (h' : SameMaster s₂ s₃) : SameMaster s₁ s₃ := by
  refine ⟨h.quiet₁, h'.quiet₂, h.view.trans h'.view, h.now.trans h'.now, fun hr => ?_⟩
  obtain ⟨h1, h2, h3⟩ := h.inputs hr
  obtain ⟨g1, g2, g3⟩ := h'.inputs ((congrArg MasterView.state h.view).symm.trans hr)
  exact ⟨h1.trans g1, h2.trans g2, h3.trans g3⟩

theorem quiet_jitter {s : State} (h : s.cfg.Quiet) : jitter s = 0 := by
  have := jitter_le s
  rw [h.2.2.2] at this
  omega

/-- The master is urgent in both or in neither. -/
theorem SameMaster.urgent {s₁ s₂ : State} (h : SameMaster s₁ s₂) : masterUrgent s₁ = masterUrgent s₂ := by
  have h1 : s₁.master.state = s₂.master.state := congrArg MasterView.state h.view
  have h2 : s₁.master.phase = s₂.master.phase := congrArg MasterView.phase h.view
  have h3 : s₁.master.timer = s₂.master.timer := congrArg MasterView.timer h.view
  simp only [masterUrgent, h1, h2, h3]

/-- The move a master makes is the one its phase names, so machines that agree make moves that agree. -/
theorem SameMaster.move {s₁ s₂ u₁ u₂ : State} (h : SameMaster s₁ s₂) (hr : s₁.master.state = .running)
    (m₁ : MasterMove s₁ u₁) (m₂ : MasterMove s₂ u₂) : SameMaster u₁ u₂ := by
  obtain ⟨q1, q2, hview, hnow, hin⟩ := h
  obtain ⟨i1, i2, i3⟩ := hin hr
  have j1 := quiet_jitter q1
  have j2 := quiet_jitter q2
  simp only [State.masterView, MasterView.mk.injEq] at hview
  obtain ⟨v1, v2, v3, v4, v5, v6, v7, v8, v9, v10, v11⟩ := hview
  cases m₁ <;> cases m₂ <;>
    refine ⟨q1, q2, ?_, hnow, ?_⟩ <;>
    simp_all [State.masterView]

/-- A tick in both machines. -/
theorem SameMaster.tick {s₁ s₂ : State} (h : SameMaster s₁ s₂) : SameMaster (tick s₁) (tick s₂) := by
  obtain ⟨q1, q2, hview, hnow, hin⟩ := h
  refine ⟨q1, q2, ?_, congrArg (· + 1) hnow, hin⟩
  simp only [State.masterView, MasterView.mk.injEq] at hview ⊢
  obtain ⟨v1, v2, v3, v4, v5, v6, v7, v8, v9, v10, v11⟩ := hview
  exact ⟨v1, v2, v3, v4, v5, by simp only [Machine.tick, v1, v2, v6], v7, v8, v9, v10, v11⟩

/-- What a step means for the master of a quiet machine: nothing, one move of an urgent master, or a tick. -/
theorem master_progress {s t : State} (hq : s.cfg.Quiet) (hc : s.choice.noMasterControl) (h : step s = .next t) :
    SameMaster s t ∨
      (masterUrgent s = true ∧ s.master.state = .running ∧ ∃ u, MasterMove s u ∧ SameMaster u t) ∨
      (masterUrgent s = false ∧ SameMaster (tick s) t) := by
  obtain ⟨-, -, u, rfl, ha⟩ := step_action h
  have refl : ∀ w : State, w.cfg = s.cfg → SameMaster w w.advance := fun w hw =>
    ⟨hw ▸ hq, hw ▸ hq, rfl, rfl, fun _ => ⟨rfl, rfl, rfl⟩⟩
  have keep : ∀ w : State, w.cfg = s.cfg → w.master = s.master → w.lines.clk = s.lines.clk → w.lines.mo = s.lines.mo →
      w.now = s.now → w.tp = s.tp → SameMaster s w.advance := by
    intro w h1 h2 h3 h4 h5 h6
    refine ⟨hq, h1 ▸ hq, ?_, h5.symm, fun _ => ⟨h6.symm, by rw [← h2]; rfl, by rw [← h2]; rfl⟩⟩
    simp only [State.masterView, State.advance, h2, h3, h4]
  cases ha with
  | master ht h' =>
    cases h' with
    | nothing => exact .inl (refl s rfl)
    | setupError hr hp hf => simp [setupFails, hq.1] at hf
    | ioError hr l hl hf => simp [ioFails, hq.2.1] at hf
    | move hr m =>
      refine .inr (.inl ⟨?_, hr, _, m, ?_⟩)
      · cases m <;> simp [masterUrgent, isMasterInstant, isMasterWait, *]
      · cases m <;> exact refl _ rfl
  | slave ht h' =>
    refine .inl ?_
    cases h' with
    | move hr m => cases m <;> exact keep _ rfl rfl rfl rfl rfl rfl
    | _ => exact keep _ rfl rfl rfl rfl rfl rfl
  | host w ht h' =>
    refine .inl ?_
    simp only [Choice.noMasterControl, Choice.hostOp, ht] at hc
    generalize decodeHtw w = i at h' hc
    have idle : ∀ w : State, s.master.state ≠ .running → w.cfg = s.cfg → w.masterView = s.masterView → w.now = s.now →
        SameMaster s w.advance := fun w h0 h1 h2 h3 =>
      ⟨hq, h1 ▸ hq, h2.symm, h3.symm, fun hr => absurd hr h0⟩
    cases h' with
    | stopMaster => simp at hc
    | startMaster => simp at hc
    | msgLen n hn _ => exact idle _ hn rfl rfl rfl
    | msg n v hn _ => exact idle _ hn rfl rfl rfl
    | bitPeriod x hn _ => exact idle _ hn rfl rfl rfl
    | sampleSettle x hn _ => exact idle _ hn rfl rfl rfl
    | stabilize x hn _ => exact idle _ hn rfl rfl rfl
    | edgeWait x hn _ => exact idle _ hn rfl rfl rfl
    | _ => exact keep _ rfl rfl rfl rfl rfl rfl
  | time ht hm hv => exact .inr (.inr ⟨hm, refl _ rfl⟩)
  | glitch l v ht hg => simp [hq.2.2.1] at hg
  | _ => exact .inl (refl s rfl)

/-- The tick never goes back. -/
theorem step_now_le {s t : State} (hq : s.cfg.Quiet) (hc : s.choice.noMasterControl) (h : step s = .next t) :
    s.now ≤ t.now := by
  rcases master_progress hq hc h with h | ⟨-, -, u, m, h⟩ | ⟨-, h⟩
  · exact h.now.le
  · rw [← h.now]
    cases m <;> exact le_refl _
  · rw [← h.now]
    exact Nat.le_succ _

end Sys2Proof.Machine
end

