-- ==== Sys2Proof/Laws/PerInstr.lean ====
section
/-! SUPPORT. Statements about every instruction as syntax, one lemma per constructor: TableRowMatches, that an instruction's word has the bits of its row in spec/opcode_table.json (30_encoding.md R103, R104, R108). -/

namespace Sys2Proof.Laws

/-- A row of spec/opcode_table.json: the whole word of a MOW row, or the mask and the pattern of an HTW row. -/
inductive TableRow where
  | mow (encoding : Mow)
  | htw (mask pattern : Htw)

/-- The word has the bits the row fixes. -/
def TableRow.matches (r : TableRow) (e : Encoded) : Prop :=
  match r, e with
  | .mow c, .mow w => w = c
  | .htw m p, .htw w => w &&& m = p
  | _, _ => False

/-- The row of an instruction, its numbers copied from the table. -/
def tableRow : Instr → TableRow
  | .mIdle => .mow 0b00000#5
  | .mAcquire => .mow 0b00001#5
  | .mLoad => .mow 0b00010#5
  | .mDriveMo => .mow 0b00011#5
  | .mWaitSetup => .mow 0b00100#5
  | .mClkHi => .mow 0b00101#5
  | .mWaitHigh => .mow 0b00110#5
  | .mClkLo => .mow 0b00111#5
  | .mWaitLow => .mow 0b01000#5
  | .mWaitSettle => .mow 0b01001#5
  | .mSample => .mow 0b01010#5
  | .mNextBit => .mow 0b01011#5
  | .mReport => .mow 0b01100#5
  | .sIdle => .mow 0b10000#5
  | .sAcquire => .mow 0b10001#5
  | .sInitial => .mow 0b10010#5
  | .sAwaitEdge => .mow 0b10011#5
  | .sRetry => .mow 0b10100#5
  | .sSample => .mow 0b10101#5
  | .sDriveNext => .mow 0b10110#5
  | .sStabilize => .mow 0b10111#5
  | .sByteComplete => .mow 0b11000#5
  | .hRd _ => .htw 0x1000000000000#49 0x0000000000000#49
  | .hWrMStop => .htw 0x1FFFF00000002#49 0x1000000000002#49
  | .hWrMStart => .htw 0x1FFFF00000003#49 0x1000000000001#49
  | .hWrSStop => .htw 0x1FFFF00000002#49 0x1010000000002#49
  | .hWrSStart => .htw 0x1FFFF00000003#49 0x1010000000001#49
  | .hWrMMsgLen _ => .htw 0x1FFFF00000000#49 0x1000800000000#49
  | .hWrSReplyLen _ => .htw 0x1FFFF00000000#49 0x1010800000000#49
  | .hWrTpBitPeriod _ => .htw 0x1FFFF00000000#49 0x1020000000000#49
  | .hWrTpSampleSettle _ => .htw 0x1FFFF00000000#49 0x1020C00000000#49
  | .hWrTpStabilize _ => .htw 0x1FFFF00000000#49 0x1021000000000#49
  | .hWrTpEdgeWait _ => .htw 0x1FFFF00000000#49 0x1021400000000#49
  | .hWrMMsg _ _ => .htw 0x1F00300000000#49 0x1100000000000#49
  | .hWrSReply _ _ => .htw 0x1F00300000000#49 0x1200000000000#49
  | .hWrIgnored _ _ => .htw 0x1000000000000#49 0x1000000000000#49

/-- The fields of a mask and a word, one by one. -/
theorem htwOf_and (wr wr' : BitVec 1) (a a' : HostAddr) (d d' : Word) :
    htwOf wr a d &&& htwOf wr' a' d' = htwOf (wr &&& wr') (a &&& a') (d &&& d') :=
  BitVec.and_append.trans (congrArg (· ++ (d &&& d')) BitVec.and_append)

theorem msgAddr_row (i : BitVec 10) : msgAddr i &&& 0xF003#16 = 0x1000#16 := by
  revert i; decide

theorem replyAddr_row (i : BitVec 10) : replyAddr i &&& 0xF003#16 = 0x2000#16 := by
  revert i; decide

/-- A word whose fields have the bits of the mask's fields matches. -/
theorem htw_matches {wr mw pw : BitVec 1} {a ma pa : HostAddr} {d md pd : Word} {m p : Htw} (hm : m = htwOf mw ma md)
    (hp : p = htwOf pw pa pd) (h1 : wr &&& mw = pw) (h2 : a &&& ma = pa) (h3 : d &&& md = pd) :
    (TableRow.htw m p).matches (.htw (htwOf wr a d)) := by
  subst hm hp
  exact (htwOf_and wr mw a ma d md).trans (by rw [h1, h2, h3])

namespace TableRowMatches

/-- A well-formed instruction's word has the bits of its row. -/
def Statement (i : Instr) : Prop := i.wellFormed = true → (tableRow i).matches (encode i)

theorem mIdle : Statement .mIdle := fun _ => rfl

theorem mAcquire : Statement .mAcquire := fun _ => rfl

theorem mLoad : Statement .mLoad := fun _ => rfl

theorem mDriveMo : Statement .mDriveMo := fun _ => rfl

theorem mWaitSetup : Statement .mWaitSetup := fun _ => rfl

theorem mClkHi : Statement .mClkHi := fun _ => rfl

theorem mWaitHigh : Statement .mWaitHigh := fun _ => rfl

theorem mClkLo : Statement .mClkLo := fun _ => rfl

theorem mWaitLow : Statement .mWaitLow := fun _ => rfl

theorem mWaitSettle : Statement .mWaitSettle := fun _ => rfl

theorem mSample : Statement .mSample := fun _ => rfl

theorem mNextBit : Statement .mNextBit := fun _ => rfl

theorem mReport : Statement .mReport := fun _ => rfl

theorem sIdle : Statement .sIdle := fun _ => rfl

theorem sAcquire : Statement .sAcquire := fun _ => rfl

theorem sInitial : Statement .sInitial := fun _ => rfl

theorem sAwaitEdge : Statement .sAwaitEdge := fun _ => rfl

theorem sRetry : Statement .sRetry := fun _ => rfl

theorem sSample : Statement .sSample := fun _ => rfl

theorem sDriveNext : Statement .sDriveNext := fun _ => rfl

theorem sStabilize : Statement .sStabilize := fun _ => rfl

theorem sByteComplete : Statement .sByteComplete := fun _ => rfl

theorem hRd (addr : HostAddr) : Statement (.hRd addr) := fun _ =>
  htw_matches (mw := 1#1) (pw := 0#1) (ma := 0x0000#16) (pa := 0x0000#16) (md := 0#32) (pd := 0#32)
    (by decide) (by decide) (by decide) (by simp) (by simp)

theorem hWrMStop : Statement .hWrMStop := fun _ => rfl

theorem hWrMStart : Statement .hWrMStart := fun _ => rfl

theorem hWrSStop : Statement .hWrSStop := fun _ => rfl

theorem hWrSStart : Statement .hWrSStart := fun _ => rfl

theorem hWrMMsgLen (n : Word) : Statement (.hWrMMsgLen n) := fun _ =>
  htw_matches (mw := 1#1) (pw := 1#1) (ma := 0xFFFF#16) (pa := 0x0008#16) (md := 0#32) (pd := 0#32)
    (by decide) (by decide) (by decide) (by decide) (by simp)

theorem hWrSReplyLen (n : Word) : Statement (.hWrSReplyLen n) := fun _ =>
  htw_matches (mw := 1#1) (pw := 1#1) (ma := 0xFFFF#16) (pa := 0x0108#16) (md := 0#32) (pd := 0#32)
    (by decide) (by decide) (by decide) (by decide) (by simp)

theorem hWrTpBitPeriod (n : Word) : Statement (.hWrTpBitPeriod n) := fun _ =>
  htw_matches (mw := 1#1) (pw := 1#1) (ma := 0xFFFF#16) (pa := 0x0200#16) (md := 0#32) (pd := 0#32)
    (by decide) (by decide) (by decide) (by decide) (by simp)

theorem hWrTpSampleSettle (n : Word) : Statement (.hWrTpSampleSettle n) := fun _ =>
  htw_matches (mw := 1#1) (pw := 1#1) (ma := 0xFFFF#16) (pa := 0x020C#16) (md := 0#32) (pd := 0#32)
    (by decide) (by decide) (by decide) (by decide) (by simp)

theorem hWrTpStabilize (n : Word) : Statement (.hWrTpStabilize n) := fun _ =>
  htw_matches (mw := 1#1) (pw := 1#1) (ma := 0xFFFF#16) (pa := 0x0210#16) (md := 0#32) (pd := 0#32)
    (by decide) (by decide) (by decide) (by decide) (by simp)

theorem hWrTpEdgeWait (n : Word) : Statement (.hWrTpEdgeWait n) := fun _ =>
  htw_matches (mw := 1#1) (pw := 1#1) (ma := 0xFFFF#16) (pa := 0x0214#16) (md := 0#32) (pd := 0#32)
    (by decide) (by decide) (by decide) (by decide) (by simp)

theorem hWrMMsg (i : BitVec 10) (v : Byte) : Statement (.hWrMMsg i v) := fun _ =>
  htw_matches (mw := 1#1) (pw := 1#1) (ma := 0xF003#16) (pa := 0x1000#16) (md := 0#32) (pd := 0#32)
    (by decide) (by decide) (by decide) (msgAddr_row i) (by simp)

theorem hWrSReply (i : BitVec 10) (v : Byte) : Statement (.hWrSReply i v) := fun _ =>
  htw_matches (mw := 1#1) (pw := 1#1) (ma := 0xF003#16) (pa := 0x2000#16) (md := 0#32) (pd := 0#32)
    (by decide) (by decide) (by decide) (replyAddr_row i) (by simp)

theorem hWrIgnored (addr : HostAddr) (data : Word) : Statement (.hWrIgnored addr data) := fun _ =>
  htw_matches (mw := 1#1) (pw := 1#1) (ma := 0x0000#16) (pa := 0x0000#16) (md := 0#32) (pd := 0#32)
    (by decide) (by decide) (by decide) (by simp) (by simp)

end TableRowMatches

end Sys2Proof.Laws
end

