-- ==== Sys2Proof/Laws/Progress.lean ====
section
/-! SUPPORT. A master session can always run to its end (40_master.md R144, 70_reset_and_hazards.md R274): from every phase, beside a slave that runs or not, there is a list of choices that takes the master to DONE, and from M.ACQUIRE at the tick that the timing policy gives. -/

namespace Sys2Proof.Machine

/-- The turns of the two engines and of time: no host access and no glitch. -/
def ownTurns : List Turn := [.master, .slave, .time]

/-- Some choices of these turns take `s` to a DONE master at tick `T`, with `R` reports in its stream. -/
def Finishes (T R : Nat) (s : State) : Prop :=
  ∃ sc t, Runs sc.length { s with script := sc } t ∧ (∀ ch ∈ sc, ch.turn ∈ ownTurns) ∧ t.master.state = .done ∧
    t.now = T ∧ t.master.reports.length = R

/-- What a slave must hold so that it never stops the tick for ever: while it runs, its reply is written and its cursor is in it. -/
structure Served (cfg : Params) (v : Slave) : Prop where
  code : v.phase.toNat ≤ 0x8
  lat : ∀ x, cfg.latMax = some x → cfg.latMin ≤ x
  len : v.state = .running → v.replyLen ≠ 0#32
  bytes : v.state = .running → ∀ i, i < v.replyLen.toNat → v.reply.read i ≠ none
  cursor : v.state = .running → v.phase ≠ 0x1#4 → v.cursor.toNat < v.replyLen.toNat

/-- A slave that differs only where `Served` does not look. -/
theorem Served.keep {cfg : Params} {v w : Slave} (h : Served cfg v) (hp : w.phase = v.phase ∨
      (v.phase ≠ 0x1#4 ∧ w.phase.toNat ≤ 0x8)) (hs : w.state = v.state) (hl : w.replyLen = v.replyLen)
    (hr : w.reply = v.reply) (hc : w.cursor = v.cursor) : Served cfg w := by
  refine ⟨?_, h.lat, hs ▸ hl ▸ h.len, hs ▸ hl ▸ hr ▸ h.bytes, fun hw hn => ?_⟩
  · rcases hp with hp | hp
    · exact hp ▸ h.code
    · exact hp.2
  · rw [hc, hl]
    refine h.cursor (hs ▸ hw) ?_
    rcases hp with hp | hp
    · exact hp ▸ hn
    · exact hp.1

/-- A RUNNING master beside a slave that never stops the tick for ever, with the fields that its timeline depends on. -/
structure At (tp : Timing) (len : Word) (p : PhaseCode) (b : BitIndex) (c m now r : Nat) (s : State) : Prop where
  running : s.master.state = .running
  served : Served s.cfg s.slave
  written : ∀ i, i < len.toNat → s.master.msg.read i ≠ none
  tp_eq : s.tp = tp
  len_eq : s.master.msgLen = len
  phase : s.master.phase = p
  bit : s.master.bit = b
  cursor : s.master.cursor.toNat = c
  timer : s.master.timer = m
  now_eq : s.now = now
  reports : s.master.reports.length = r

/-- Every such state finishes. -/
def AllFinish (T R : Nat) (tp : Timing) (len : Word) (p : PhaseCode) (b : BitIndex) (c m now r : Nat) : Prop :=
  ∀ s, At tp len p b c m now r s → Finishes T R s

variable {T R : Nat} {tp : Timing} {len : Word} {p : PhaseCode} {b : BitIndex} {c m now r : Nat} {s w : State}

/-- One choice, then the rest. -/
theorem Finishes.cons {u : State} {ch : Choice} (ht : ch.turn ∈ ownTurns)
    (hs : ∀ sc, step { s with script := ch :: sc } = .next { u with script := sc }) (h : Finishes T R u) :
    Finishes T R s := by
  obtain ⟨sc, t, hr, hsc, hd⟩ := h
  refine ⟨ch :: sc, t, ?_, ?_, hd⟩
  · simp only [Runs, List.length_cons, Host.Core.run]
    rw [show core.step { s with script := ch :: sc } = .next { u with script := sc } from hs sc]
    exact hr
  · simpa [ht] using hsc

/-- A master micro-operation, then the rest. -/
theorem Finishes.move {i : Instr} (hv : s.slave.phase.toNat ≤ 0x8) (hd : decodeMaster s.master.phase = .ok i)
    (hx : ∀ sc, exec i { s with script := plainChoice .master :: sc } = .next { w with script := plainChoice .master :: sc })
    (h : Finishes T R { w with seq := w.seq + 1 }) : Finishes T R s := by
  refine h.cons (ch := plainChoice .master) (by simp [ownTurns, plainChoice]) fun sc => ?_
  obtain ⟨iv, hiv⟩ := decodeSlave_ok s.slave.phase hv
  rw [step_eq (s := { s with script := plainChoice .master :: sc }) hd hiv]
  simp only [State.choice, plainChoice]
  have := hx sc
  simp only [plainChoice] at this
  rw [this]
  rfl

/-- The slave's choice that draws completion `d` and no failure. -/
def slaveChoice (d : Completion) : Choice := { plainChoice .slave with completion := d }

/-- A slave micro-operation, then the rest. -/
theorem Finishes.slaveMove {i : Instr} (d : Completion) (hm : s.master.phase.toNat ≤ 0xC)
    (hd : decodeSlave s.slave.phase = .ok i)
    (hx : ∀ sc, exec i { s with script := slaveChoice d :: sc } = .next { w with script := slaveChoice d :: sc })
    (h : Finishes T R { w with seq := w.seq + 1 }) : Finishes T R s := by
  refine h.cons (ch := slaveChoice d) (by simp [ownTurns, slaveChoice, plainChoice]) fun sc => ?_
  obtain ⟨im, him⟩ := decodeMaster_ok s.master.phase hm
  rw [step_eq (s := { s with script := slaveChoice d :: sc }) him hd]
  simp only [State.choice, slaveChoice, plainChoice]
  have := hx sc
  simp only [slaveChoice, plainChoice] at this
  rw [this]
  rfl

/-- A tick, then the rest. -/
theorem Finishes.wait (hv : s.slave.phase.toNat ≤ 0x8) (hm : s.master.phase.toNat ≤ 0xC)
    (hu : masterUrgent s = false) (hw : slaveUrgent s = false)
    (h : Finishes T R { tick s with seq := s.seq + 1 }) : Finishes T R s := by
  refine h.cons (ch := plainChoice .time) (by simp [ownTurns, plainChoice]) fun sc => ?_
  obtain ⟨im, him⟩ := decodeMaster_ok s.master.phase hm
  obtain ⟨iv, hiv⟩ := decodeSlave_ok s.slave.phase hv
  rw [step_eq (s := { s with script := plainChoice .time :: sc }) him hiv]
  have h1 : masterUrgent { s with script := plainChoice .time :: sc } = false := hu
  have h2 : slaveUrgent { s with script := plainChoice .time :: sc } = false := hw
  simp only [State.choice, plainChoice] at h1 h2 ⊢
  simp only [timeStep, h1, h2, Bool.or_self, Bool.false_eq_true, if_false]
  rfl

/-! ## A RUNNING slave lets the tick go on -/

/-- The master is where it was, beside another slave and other levels of the lines. -/
theorem At.beside {u : State} (hs : At tp len p b c m now r s) (hv : Served u.cfg u.slave) (hm : u.master = s.master)
    (ht : u.tp = s.tp) (hn : u.now = s.now) : At tp len p b c m now r u :=
  { running := hm ▸ hs.running, served := hv, written := hm ▸ hs.written, tp_eq := ht ▸ hs.tp_eq
    len_eq := hm ▸ hs.len_eq, phase := hm ▸ hs.phase, bit := hm ▸ hs.bit, cursor := hm ▸ hs.cursor
    timer := hm ▸ hs.timer, now_eq := hn ▸ hs.now_eq, reports := hm ▸ hs.reports }

/-- The states of `At` whose RUNNING slave is at phase `q` with the latch at `e` finish. -/
def SlaveAt (T R : Nat) (tp : Timing) (len : Word) (p : PhaseCode) (b : BitIndex) (c m now r : Nat) (q : PhaseCode)
    (e : Bool) : Prop :=
  ∀ s, At tp len p b c m now r s → s.slave.state = .running → s.slave.phase = q → s.slave.edgePend = e → Finishes T R s

/-- The states of `At` in which the slave has nothing urgent to do finish. -/
def Calm (T R : Nat) (tp : Timing) (len : Word) (p : PhaseCode) (b : BitIndex) (c m now r : Nat) : Prop :=
  ∀ s, At tp len p b c m now r s → slaveUrgent s = false → Finishes T R s

variable {e : Bool}

theorem edgeTimeout_ne_zero (tp : Timing) : tp.edgeTimeout ≠ 0#32 := by
  intro h
  have := edgeTimeout_toNat tp
  rw [h] at this
  simp at this
  omega

theorem slave_initial (hp : p.toNat ≤ 0xC) (h : SlaveAt T R tp len p b c m now r 0x3#4 e) :
    SlaveAt T R tp len p b c m now r 0x2#4 e := by
  intro s hs hr hq he
  have hc := hs.served.cursor hr (by simp [hq])
  obtain ⟨v, hv⟩ := Option.ne_none_iff_exists'.1 (hs.served.bytes hr _ hc)
  refine Finishes.slaveMove (i := .sInitial) .timeout (w := { s with
      lines.so := byteBit v 7#3, slave.tx := v, slave.rx := 0#8, slave.bit := 7#3, slave.phase := 0x3#4,
      slave.totimer := s.tp.edgeTimeout }) (hs.phase ▸ hp) (by rw [hq]; rfl)
    (fun sc => by
      simp [exec, execSInitial, hr, bufRead, State.buffer, hv, unlessIoError, ioFails, State.choice, slaveChoice,
        plainChoice, enterSlave])
    (h _ (hs.beside (hs.served.keep (.inr ⟨by simp [hq], by simp⟩) rfl rfl rfl rfl) rfl rfl rfl) hr rfl he)

theorem slave_byteComplete (hp : p.toNat ≤ 0xC) (h : SlaveAt T R tp len p b c m now r 0x2#4 e) :
    SlaveAt T R tp len p b c m now r 0x8#4 e := by
  intro s hs hr hq he
  have hl := hs.served.len hr
  have hlt : (cursorNext s.slave.cursor s.slave.replyLen).toNat < s.slave.replyLen.toNat := by
    rw [cursorNext_toNat hl]
    exact Nat.mod_lt _ (Nat.pos_of_ne_zero fun h0 => hl (BitVec.eq_of_toNat_eq h0))
  refine Finishes.slaveMove (i := .sByteComplete) .timeout (w := { s with
      slave.reports := s.slave.reports ++ [⟨s.slave.cursor, s.slave.tx, s.slave.rx, s.now⟩],
      slave.cursor := cursorNext s.slave.cursor s.slave.replyLen, slave.phase := 0x2#4 }) (hs.phase ▸ hp)
    (by rw [hq]; rfl)
    (fun sc => by simp [exec, execSByteComplete, hr, enterSlave, emitSlave])
    (h _ (hs.beside ⟨by simp, hs.served.lat, hs.served.len, hs.served.bytes, fun _ _ => hlt⟩ rfl rfl rfl) hr rfl he)

theorem slave_driveNext (hp : p.toNat ≤ 0xC) (h : SlaveAt T R tp len p b c m now r 0x7#4 e) :
    SlaveAt T R tp len p b c m now r 0x6#4 e := by
  intro s hs hr hq he
  refine Finishes.slaveMove (i := .sDriveNext) .timeout (w := { s with
      lines.so := byteBit s.slave.tx (bitBelow s.slave.bit s.seq), slave.bit := bitBelow s.slave.bit s.seq,
      slave.phase := 0x7#4, slave.timer := s.tp.stabilize }) (hs.phase ▸ hp) (by rw [hq]; rfl)
    (fun sc => by
      simp [exec, execSDriveNext, hr, unlessIoError, ioFails, State.choice, slaveChoice, plainChoice, enterSlave])
    (h _ (hs.beside (hs.served.keep (.inr ⟨by simp [hq], by simp⟩) rfl rfl rfl rfl) rfl rfl rfl) hr rfl he)

theorem slave_sample (hp : p.toNat ≤ 0xC) (h : SlaveAt T R tp len p b c m now r 0x6#4 e)
    (h8 : SlaveAt T R tp len p b c m now r 0x8#4 e) : SlaveAt T R tp len p b c m now r 0x5#4 e := by
  intro s hs hr hq he
  have go : ∀ q : PhaseCode, q = (if s.slave.bit = 0#3 then SPhase.byteComplete else SPhase.driveNext) → q.toNat ≤ 0x8 →
      SlaveAt T R tp len p b c m now r q e → Finishes T R s := fun q hb hq8 hf => by
    refine Finishes.slaveMove (i := .sSample) .timeout (w := { s with
        slave.rx := setByteBit s.slave.rx s.slave.bit s.lines.mo, slave.phase := q }) (hs.phase ▸ hp) (by rw [hq]; rfl)
      (fun sc => by
        subst hb
        simp only [exec, execSSample, hr, whileSlave, unlessIoError, ioFails, State.choice, slaveChoice, plainChoice,
          Bool.and_false, Bool.false_eq_true, if_false, if_true, Lines.get]
        by_cases h0 : s.slave.bit = 0#3 <;> simp [h0, enterSlave])
      (hf _ (hs.beside (hs.served.keep (.inr ⟨by simp [hq], hq8⟩) rfl rfl rfl rfl) rfl rfl rfl) hr rfl he)
  by_cases h0 : s.slave.bit = 0#3
  · exact go 0x8#4 (by simp [h0]) (by decide) h8
  · exact go 0x6#4 (by simp [h0]) (by decide) h

theorem slave_stabilize (hp : p.toNat ≤ 0xC) (hc : Calm T R tp len p b c m now r)
    (h : SlaveAt T R tp len p b c m now r 0x3#4 e) : SlaveAt T R tp len p b c m now r 0x7#4 e := by
  intro s hs hr hq he
  by_cases h0 : s.slave.timer = 0#32
  · refine Finishes.slaveMove (i := .sStabilize) .timeout (w := { s with
        slave.phase := 0x3#4, slave.totimer := s.tp.edgeTimeout }) (hs.phase ▸ hp) (by rw [hq]; rfl)
      (fun sc => by simp [exec, execSStabilize, hr, h0, enterSlave])
      (h _ (hs.beside (hs.served.keep (.inr ⟨by simp [hq], by simp⟩) rfl rfl rfl rfl) rfl rfl rfl) hr rfl he)
  · exact hc s hs (by simp [slaveUrgent, isSlaveInstant, hq, h0])

/-- The edge wait ends in a state with nothing urgent, or takes the edge if that is due. -/
theorem slave_awaitEdge (hp : p.toNat ≤ 0xC) (hc : Calm T R tp len p b c m now r)
    (h : e = true → SlaveAt T R tp len p b c m now r 0x5#4 false) : SlaveAt T R tp len p b c m now r 0x3#4 e := by
  have fresh : ∀ s, At tp len p b c m now r s → s.slave.state = .running → s.slave.phase = 0x3#4 →
      s.slave.edgePend = e → (s.slave.totimer ≠ 0#32 ∨ edgeDue s = true) → Finishes T R s := by
    intro s hs hr hq he ht
    by_cases hd : edgeDue s = true
    · have hx : s.slave.edgePend = true ∧ edgeReady s = true := by
        simp only [edgeDue, Bool.and_eq_true] at hd
        refine ⟨hd.1, ?_⟩
        cases hl : s.cfg.latMax with
        | none => simp [hl] at hd
        | some x =>
          have hle := hs.served.lat x hl
          simp [hl] at hd
          simp [edgeReady, hd.1]
          omega
      have hrdy : ∀ sc, edgeReady { s with script := sc } = true := fun _ => hx.2
      refine Finishes.slaveMove (i := .sAwaitEdge) .edge (w := { s with slave.edgePend := false, slave.phase := 0x5#4 })
        (hs.phase ▸ hp) (by rw [hq]; rfl)
        (fun sc => by
          simp [exec, execSAwaitEdge, hr, edgeCompletion, hrdy, unlessIoError, ioFails, State.choice, slaveChoice,
            plainChoice, enterSlave])
        (h (he ▸ hx.1) _ (hs.beside (hs.served.keep (.inr ⟨by simp [hq], by simp⟩) rfl rfl rfl rfl) rfl rfl rfl)
          hr rfl rfl)
    · have h0 : s.slave.totimer ≠ 0#32 := ht.resolve_right hd
      exact hc s hs (by simp [slaveUrgent, isSlaveInstant, hq, h0, hd])
  intro s hs hr hq he
  by_cases ht : s.slave.totimer ≠ 0#32 ∨ edgeDue s = true
  · exact fresh s hs hr hq he ht
  · have h0 : s.slave.totimer = 0#32 := by
      by_contra h0
      exact ht (.inl h0)
    refine Finishes.slaveMove (i := .sAwaitEdge) .timeout (w := { s with slave.phase := 0x4#4 }) (hs.phase ▸ hp)
      (by rw [hq]; rfl)
      (fun sc => by
        simp [exec, execSAwaitEdge, hr, timeoutCompletion, h0, unlessIoError, ioFails, State.choice, slaveChoice,
          plainChoice, enterSlave]) ?_
    refine Finishes.slaveMove (i := .sRetry) .timeout (w := { s with
        slave.phase := 0x3#4, slave.totimer := s.tp.edgeTimeout, seq := s.seq + 1 })
      (s := { s with slave.phase := 0x4#4, seq := s.seq + 1 }) (hs.phase ▸ hp) rfl
      (fun sc => by simp [exec, execSRetry, hr, enterSlave])
      (fresh _ (hs.beside (hs.served.keep (.inl hq.symm) rfl rfl rfl rfl) rfl rfl rfl) hr rfl he
        (.inl (edgeTimeout_ne_zero _)))

theorem slave_retry (hp : p.toNat ≤ 0xC) (h : SlaveAt T R tp len p b c m now r 0x3#4 e) :
    SlaveAt T R tp len p b c m now r 0x4#4 e := by
  intro s hs hr hq he
  refine Finishes.slaveMove (i := .sRetry) .timeout (w := { s with
      slave.phase := 0x3#4, slave.totimer := s.tp.edgeTimeout }) (hs.phase ▸ hp) (by rw [hq]; rfl)
    (fun sc => by simp [exec, execSRetry, hr, enterSlave])
    (h _ (hs.beside (hs.served.keep (.inr ⟨by simp [hq], by simp⟩) rfl rfl rfl rfl) rfl rfl rfl) hr rfl he)

theorem slave_acquire (hp : p.toNat ≤ 0xC) (h : SlaveAt T R tp len p b c m now r 0x2#4 false) :
    SlaveAt T R tp len p b c m now r 0x1#4 e := by
  intro s hs hr hq _
  have hl := hs.served.len hr
  refine Finishes.slaveMove (i := .sAcquire) .timeout (w := { s with
      slave.cursor := 0#32, slave.edgePend := false, slave.phase := 0x2#4 }) (hs.phase ▸ hp) (by rw [hq]; rfl)
    (fun sc => by
      simp [exec, execSAcquire, hr, unlessSetupError, setupFails, State.choice, slaveChoice, plainChoice, enterSlave])
    (h _ (hs.beside ⟨by simp, hs.served.lat, hs.served.len, hs.served.bytes, fun _ _ =>
      Nat.pos_of_ne_zero fun h0 => hl (BitVec.eq_of_toNat_eq h0)⟩ rfl rfl rfl) hr rfl rfl)

/-- Whatever the slave is at, its own actions bring it to where nothing of it is urgent. -/
theorem Calm.all (hp : p.toNat ≤ 0xC) (hc : Calm T R tp len p b c m now r) : AllFinish T R tp len p b c m now r := by
  have cycle : ∀ e, SlaveAt T R tp len p b c m now r 0x3#4 e → SlaveAt T R tp len p b c m now r 0x5#4 e := fun e h =>
    slave_sample hp (slave_driveNext hp (slave_stabilize hp hc h)) (slave_byteComplete hp (slave_initial hp h))
  have idle : SlaveAt T R tp len p b c m now r 0x3#4 false := slave_awaitEdge hp hc (by simp)
  have await : ∀ e, SlaveAt T R tp len p b c m now r 0x3#4 e := fun e => slave_awaitEdge hp hc fun _ => cycle false idle
  intro s hs
  by_cases hr : s.slave.state = .running
  swap
  · exact hc s hs (by simp [slaveUrgent, hr])
  obtain ⟨i, hi⟩ := decodeSlave_ok s.slave.phase hs.served.code
  have ha := await s.slave.edgePend
  cases decodeSlave_code hi with
  | idle hq => exact hc s hs (by simp [slaveUrgent, isSlaveInstant, hq])
  | acquire hq => exact slave_acquire hp (slave_initial hp idle) s hs hr hq rfl
  | initial hq => exact slave_initial hp ha s hs hr hq rfl
  | awaitEdge hq => exact ha s hs hr hq rfl
  | retry hq => exact slave_retry hp ha s hs hr hq rfl
  | sample hq => exact cycle _ ha s hs hr hq rfl
  | driveNext hq => exact slave_driveNext hp (slave_stabilize hp hc ha) s hs hr hq rfl
  | stabilize hq => exact slave_stabilize hp hc ha s hs hr hq rfl
  | byteComplete hq => exact slave_byteComplete hp (slave_initial hp ha) s hs hr hq rfl

/-! ## The master's phases -/

/-- A wait phase counts down to 0. -/
theorem wait_down (hp : p = 0x4#4 ∨ p = 0x6#4 ∨ p = 0x8#4 ∨ p = 0x9#4) :
    ∀ {m now : Nat}, AllFinish T R tp len p b c 0 (now + m) r → AllFinish T R tp len p b c m now r := by
  have hp4 : p.toNat ≤ 0xC := by rcases hp with rfl | rfl | rfl | rfl <;> decide
  have hw : isMasterWait p = true := by rcases hp with rfl | rfl | rfl | rfl <;> rfl
  have hi : isMasterInstant p = false := by rcases hp with rfl | rfl | rfl | rfl <;> rfl
  intro m
  induction m with
  | zero => intro now h; exact h
  | succ m ih =>
    intro now h
    refine Calm.all hp4 fun s hs hu => ?_
    have hm : masterUrgent s = false := by simp [masterUrgent, hs.phase, hi, hs.timer]
    refine Finishes.wait hs.served.code (hs.phase ▸ hp4) hm hu ?_
    refine ih (now := now + 1) (by rw [Nat.add_assoc, Nat.add_comm 1 m]; exact h) _ ⟨hs.running,
      hs.served.keep (.inl rfl) rfl rfl rfl rfl, hs.written, hs.tp_eq, hs.len_eq, hs.phase, hs.bit, hs.cursor, ?_, ?_,
      hs.reports⟩
    · simp [tick, hs.running, hs.phase, hw, hs.timer]
    · simp [hs.now_eq]

theorem finish_waitSetup (h : AllFinish T R tp len 0x5#4 b c 0 now r) : AllFinish T R tp len 0x4#4 b c 0 now r := by
  intro s hs
  refine Finishes.move (i := .mWaitSetup) (w := enterMaster MPhase.clkHi s) hs.served.code (by rw [hs.phase]; rfl)
    (fun sc => by simp [exec, execMWaitSetup, masterWaitThen, hs.running, hs.timer, enterMaster, masterTimerOn]) (h _ ?_)
  exact ⟨hs.running, hs.served, hs.written, hs.tp_eq, hs.len_eq, rfl, hs.bit, hs.cursor, hs.timer,
    hs.now_eq, hs.reports⟩

theorem finish_waitHigh (h : AllFinish T R tp len 0x7#4 b c 0 now r) : AllFinish T R tp len 0x6#4 b c 0 now r := by
  intro s hs
  refine Finishes.move (i := .mWaitHigh) (w := enterMaster MPhase.clkLo s) hs.served.code (by rw [hs.phase]; rfl)
    (fun sc => by simp [exec, execMWaitHigh, masterWaitThen, hs.running, hs.timer, enterMaster, masterTimerOn]) (h _ ?_)
  exact ⟨hs.running, hs.served, hs.written, hs.tp_eq, hs.len_eq, rfl, hs.bit, hs.cursor, hs.timer,
    hs.now_eq, hs.reports⟩

theorem finish_waitSettle (h : AllFinish T R tp len 0xA#4 b c 0 now r) : AllFinish T R tp len 0x9#4 b c 0 now r := by
  intro s hs
  refine Finishes.move (i := .mWaitSettle) (w := enterMaster MPhase.sample s) hs.served.code (by rw [hs.phase]; rfl)
    (fun sc => by simp [exec, execMWaitSettle, masterWaitThen, hs.running, hs.timer, enterMaster, masterTimerOn]) (h _ ?_)
  exact ⟨hs.running, hs.served, hs.written, hs.tp_eq, hs.len_eq, rfl, hs.bit, hs.cursor, hs.timer,
    hs.now_eq, hs.reports⟩

theorem finish_waitLow (h : AllFinish T R tp len 0x9#4 b c tp.sampleSettle.toNat now r) :
    AllFinish T R tp len 0x8#4 b c 0 now r := by
  intro s hs
  refine Finishes.move (i := .mWaitLow)
    (w := { s with master.phase := 0x9#4, master.timer := s.tp.sampleSettle.toNat }) hs.served.code
    (by rw [hs.phase]; rfl)
    (fun sc => by
      simp [exec, execMWaitLow, masterWaitThen, hs.running, hs.timer, enterMaster, masterTimerOn, jitter, State.choice,
        plainChoice])
    (h _ ?_)
  exact ⟨hs.running, hs.served, hs.written, hs.tp_eq, hs.len_eq, rfl, hs.bit, hs.cursor,
    by rw [← hs.tp_eq], hs.now_eq, hs.reports⟩

theorem finish_driveMo (h : AllFinish T R tp len 0x4#4 b c (tp.bitPeriod.toNat / 4) now r) :
    AllFinish T R tp len 0x3#4 b c m now r := by
  intro s hs
  refine Finishes.move (i := .mDriveMo)
    (w := { s with lines.mo := byteBit s.master.tx s.master.bit, master.phase := 0x4#4,
                   master.timer := s.tp.quarter.toNat }) hs.served.code (by rw [hs.phase]; rfl)
    (fun sc => by
      simp [exec, execMDriveMo, hs.running, unlessIoError, ioFails, State.choice, plainChoice, jitter,
        enterMaster, masterTimerOn, driveLine, Lines.set])
    (h _ ?_)
  exact ⟨hs.running, hs.served, hs.written, hs.tp_eq, hs.len_eq, rfl, hs.bit, hs.cursor,
    by rw [← hs.tp_eq]; exact quarter_toNat _, hs.now_eq, hs.reports⟩

/-- A drive does not look at the script. -/
theorem driveLine_with_script (l : Line) (v : Bool) (s : State) (sc : List Choice) :
    driveLine l v { s with script := sc } = { driveLine l v s with script := sc } := by
  simp only [driveLine, edgeDetect]
  split
  · split
    · rfl
    · split <;> rfl
  · rfl

theorem finish_clkHi (h : AllFinish T R tp len 0x6#4 b c (tp.bitPeriod.toNat / 2) now r) :
    AllFinish T R tp len 0x5#4 b c m now r := by
  intro s hs
  refine Finishes.move (i := .mClkHi)
    (w := { driveLine .clk true s with master.phase := 0x6#4, master.timer := s.tp.half.toNat }) hs.served.code
    (by rw [hs.phase]; rfl)
    (fun sc => by
      simp [exec, execMClkHi, hs.running, unlessIoError, ioFails, State.choice, plainChoice, jitter, enterMaster,
        driveLine_with_script])
    (h _ ?_)
  have hv : Served (driveLine .clk true s).cfg (driveLine .clk true s).slave :=
    driveLine_cfg .clk true s ▸ hs.served.keep (by simp) (by simp) (by simp) (by simp) (by simp)
  exact ⟨by simp [hs.running], hv, by simpa using hs.written, by simp [hs.tp_eq], by simp [hs.len_eq], rfl,
    by simp [hs.bit], by simp [hs.cursor], by rw [← hs.tp_eq]; exact half_toNat _, by simp [hs.now_eq],
    by simp [hs.reports]⟩

theorem finish_clkLo (h : AllFinish T R tp len 0x8#4 b c (tp.bitPeriod.toNat / 4) now r) :
    AllFinish T R tp len 0x7#4 b c m now r := by
  intro s hs
  refine Finishes.move (i := .mClkLo)
    (w := { s with lines.clk := false, master.phase := 0x8#4, master.timer := s.tp.quarter.toNat }) hs.served.code
    (by rw [hs.phase]; rfl)
    (fun sc => by
      simp [exec, execMClkLo, hs.running, unlessIoError, ioFails, State.choice, plainChoice, jitter,
        enterMaster, masterTimerOn, driveLine, Lines.set])
    (h _ ?_)
  exact ⟨hs.running, hs.served, hs.written, hs.tp_eq, hs.len_eq, rfl, hs.bit, hs.cursor,
    by rw [← hs.tp_eq]; exact quarter_toNat _, hs.now_eq, hs.reports⟩

theorem finish_sample (h : AllFinish T R tp len 0xB#4 b c m now r) : AllFinish T R tp len 0xA#4 b c m now r := by
  intro s hs
  refine Finishes.move (i := .mSample)
    (w := { s with master.rx := setByteBit s.master.rx s.master.bit s.lines.so, master.phase := 0xB#4 }) hs.served.code
    (by rw [hs.phase]; rfl)
    (fun sc => by simp [exec, execMSample, hs.running, unlessIoError, ioFails, State.choice, plainChoice, Lines.get, enterMaster, masterTimerOn]) (h _ ?_)
  exact ⟨hs.running, hs.served, hs.written, hs.tp_eq, hs.len_eq, rfl, hs.bit, hs.cursor, hs.timer,
    hs.now_eq, hs.reports⟩

/-- One bit-round: from M.DRIVE_MO to M.NEXT_BIT in `D` ticks. -/
theorem finish_round (h : AllFinish T R tp len 0xB#4 b c 0 (now + roundTicks tp) r) :
    AllFinish T R tp len 0x3#4 b c m now r := by
  refine finish_driveMo (wait_down (by simp) (finish_waitSetup (finish_clkHi (wait_down (by simp) (finish_waitHigh
    (finish_clkLo (wait_down (by simp) (finish_waitLow (wait_down (by simp) (finish_waitSettle (finish_sample ?_)))))))))))
  have : now + tp.bitPeriod.toNat / 4 + tp.bitPeriod.toNat / 2 + tp.bitPeriod.toNat / 4 + tp.sampleSettle.toNat
      = now + roundTicks tp := by
    simp only [roundTicks]
    omega
  rw [this]
  exact h

theorem finish_nextBit {b' : BitIndex} (hb : b'.toNat + 1 = b.toNat) (h : AllFinish T R tp len 0x3#4 b' c m now r) :
    AllFinish T R tp len 0xB#4 b c m now r := by
  intro s hs
  have hz : s.master.bit ≠ 0#3 := by
    rw [hs.bit]
    intro e
    rw [e] at hb
    simp at hb
  have he : s.master.bit - 1#3 = b' := by
    rw [hs.bit]
    apply BitVec.eq_of_toNat_eq
    rw [BitVec.toNat_sub]
    have := b.isLt
    simp
    omega
  refine Finishes.move (i := .mNextBit)
    (w := { s with master.bit := s.master.bit - 1#3, master.phase := 0x3#4 }) hs.served.code
    (by rw [hs.phase]; rfl)
    (fun sc => by simp [exec, execMNextBit, hs.running, hz, enterMaster, masterTimerOn]) (h _ ?_)
  exact ⟨hs.running, hs.served, hs.written, hs.tp_eq, hs.len_eq, rfl, he, hs.cursor, hs.timer,
    hs.now_eq, hs.reports⟩

theorem finish_lastBit (h : AllFinish T R tp len 0xC#4 0#3 c m now r) : AllFinish T R tp len 0xB#4 0#3 c m now r := by
  intro s hs
  refine Finishes.move (i := .mNextBit) (w := { s with master.phase := 0xC#4 }) hs.served.code (by rw [hs.phase]; rfl)
    (fun sc => by simp [exec, execMNextBit, hs.running, hs.bit, enterMaster, masterTimerOn]) (h _ ?_)
  exact ⟨hs.running, hs.served, hs.written, hs.tp_eq, hs.len_eq, rfl, hs.bit, hs.cursor, hs.timer,
    hs.now_eq, hs.reports⟩

/-- The rest of a byte: from M.NEXT_BIT at bit `b` to M.REPORT in `b` rounds. -/
theorem finish_bits : ∀ {n : Nat} {b : BitIndex} {now : Nat}, b.toNat = n →
    AllFinish T R tp len 0xC#4 0#3 c 0 (now + roundTicks tp * n) r → AllFinish T R tp len 0xB#4 b c 0 now r := by
  intro n
  induction n with
  | zero =>
    intro b now hb h
    obtain rfl : b = 0#3 := BitVec.eq_of_toNat_eq hb
    exact finish_lastBit h
  | succ n ih =>
    intro b now hb h
    have hlt := b.isLt
    have hn : (BitVec.ofNat 3 n).toNat = n := by
      simp
      omega
    refine finish_nextBit (b' := BitVec.ofNat 3 n) (by omega) (finish_round (ih hn ?_))
    rw [Nat.add_assoc, ← Nat.add_comm (roundTicks tp * n), ← Nat.mul_succ]
    exact h

theorem finish_load (hc : c < len.toNat) (h : AllFinish T R tp len 0x3#4 7#3 c m now r) :
    AllFinish T R tp len 0x2#4 b c m now r := by
  intro s hs
  obtain ⟨v, hv⟩ := Option.ne_none_iff_exists'.1 (hs.written c hc)
  refine Finishes.move (i := .mLoad)
    (w := { s with master.tx := v, master.rx := 0#8, master.bit := 7#3, master.phase := 0x3#4 }) hs.served.code
    (by rw [hs.phase]; rfl)
    (fun sc => by
      simp [exec, execMLoad, hs.running, bufRead, State.buffer, hs.cursor, hv, enterMaster, masterTimerOn])
    (h _ ?_)
  exact ⟨hs.running, hs.served, hs.written, hs.tp_eq, hs.len_eq, rfl, rfl, hs.cursor, hs.timer,
    hs.now_eq, hs.reports⟩

/-- The cursor after M.REPORT. -/
theorem At.cursor_succ {p : PhaseCode} (hs : At tp len p b c m now r s) (hc : c < len.toNat) :
    (s.master.cursor + 1#32).toNat = c + 1 := by
  have := len.isLt
  rw [BitVec.toNat_add, hs.cursor]
  simp
  omega

theorem finish_report (hc : c + 1 < len.toNat) (h : AllFinish T R tp len 0x2#4 b (c + 1) m now (r + 1)) :
    AllFinish T R tp len 0xC#4 b c m now r := by
  intro s hs
  have hcu := hs.cursor_succ (by omega)
  have hlt : s.master.cursor + 1#32 < s.master.msgLen := by
    rw [BitVec.lt_def, hcu, hs.len_eq]
    exact hc
  refine Finishes.move (i := .mReport)
    (w := { s with master.reports := s.master.reports ++ [⟨s.master.cursor, s.master.tx, s.master.rx, s.now⟩],
                   master.cursor := s.master.cursor + 1#32, master.phase := 0x2#4 }) hs.served.code
    (by rw [hs.phase]; rfl)
    (fun sc => by simp [exec, execMReport, hs.running, hlt, enterMaster, masterTimerOn, emitMaster]) (h _ ?_)
  exact ⟨hs.running, hs.served, hs.written, hs.tp_eq, hs.len_eq, rfl, hs.bit, hcu, hs.timer,
    hs.now_eq, by simp [hs.reports]⟩

theorem finish_lastReport (hc : c + 1 = len.toNat) (hT : now = T) (hR : r + 1 = R) :
    AllFinish T R tp len 0xC#4 b c m now r := by
  intro s hs
  have hcu := hs.cursor_succ (by omega)
  have hlt : ¬ s.master.cursor + 1#32 < s.master.msgLen := by
    rw [BitVec.lt_def, hcu, hs.len_eq]
    omega
  refine Finishes.move (i := .mReport)
    (w := { s with master.reports := s.master.reports ++ [⟨s.master.cursor, s.master.tx, s.master.rx, s.now⟩],
                   master.cursor := s.master.cursor + 1#32, master.state := .done, master.phase := 0x0#4 }) hs.served.code
    (by rw [hs.phase]; rfl)
    (fun sc => by simp [exec, execMReport, hs.running, hlt, finishMaster, emitMaster]) ?_
  exact ⟨[], _, rfl, by simp, rfl, by simp [hs.now_eq, hT], by simp [hs.reports, hR]⟩

/-- The rest of a message: from M.LOAD with `n + 1` bytes left to DONE. -/
theorem finish_bytes : ∀ {n c m now r : Nat} {b : BitIndex}, c + n + 1 = len.toNat → now + 8 * roundTicks tp * (n + 1) = T →
    r + n + 1 = R → AllFinish T R tp len 0x2#4 b c m now r := by
  intro n
  induction n with
  | zero =>
    intro c m now r b hc hT hR
    refine finish_load (by omega) (finish_round (finish_bits (n := 7) rfl (finish_lastReport (by omega) ?_ (by omega))))
    rw [← hT]
    ring
  | succ n ih =>
    intro c m now r b hc hT hR
    refine finish_load (by omega) (finish_round (finish_bits (n := 7) rfl (finish_report (by omega)
      (ih (by omega) ?_ (by omega)))))
    rw [← hT]
    ring

theorem finish_acquire (hn : len ≠ 0#32) (h : AllFinish T R tp len 0x2#4 b 0 m now r) :
    AllFinish T R tp len 0x1#4 b c m now r := by
  intro s hs
  refine Finishes.move (i := .mAcquire) (w := { s with master.cursor := 0#32, master.phase := 0x2#4 }) hs.served.code
    (by rw [hs.phase]; rfl)
    (fun sc => by
      simp [exec, execMAcquire, hs.running, unlessSetupError, setupFails, State.choice, plainChoice, hs.len_eq, hn, enterMaster, masterTimerOn])
    (h _ ?_)
  exact ⟨hs.running, hs.served, hs.written, hs.tp_eq, hs.len_eq, rfl, hs.bit, rfl, hs.timer,
    hs.now_eq, hs.reports⟩

/-- An empty message is DONE at once (40_master.md R131). -/
theorem finish_acquireEmpty (hn : len = 0#32) (hT : now = T) (hR : r = R) : AllFinish T R tp len 0x1#4 b c m now r := by
  intro s hs
  have hl := hs.len_eq
  subst hn
  refine Finishes.move (i := .mAcquire) (w := { s with
      master.cursor := 0#32, master.state := .done, master.phase := 0x0#4 }) hs.served.code (by rw [hs.phase]; rfl)
    (fun sc => by
      simp [exec, execMAcquire, hs.running, unlessSetupError, setupFails, State.choice, plainChoice, hl, finishMaster]) ?_
  exact ⟨[], _, rfl, by simp, rfl, by simp [hs.now_eq, hT], by simp [hs.reports, hR]⟩

/-- From M.ACQUIRE at tick `now` to DONE at `now + 8 · D · N`, with `N` reports more. -/
theorem finish_message : AllFinish (now + 8 * roundTicks tp * len.toNat) (r + len.toNat) tp len 0x1#4 b c m now r := by
  by_cases hn : len = 0#32
  · exact finish_acquireEmpty hn (by simp [hn]) (by simp [hn])
  · obtain ⟨n, h⟩ := Nat.exists_eq_succ_of_ne_zero fun h0 : len.toNat = 0 => hn (BitVec.eq_of_toNat_eq h0)
    exact finish_acquire hn (finish_bytes (n := n) (by omega) (by rw [h]) (by omega))

/-! ## From the middle of a session -/

/-- At some tick. -/
def Ends (R : Nat) (tp : Timing) (len : Word) (p : PhaseCode) (b : BitIndex) (c m now r : Nat) : Prop :=
  ∃ T, AllFinish T R tp len p b c m now r

theorem ends_load (hc : c < len.toNat) : Ends (r + (len.toNat - c)) tp len 0x2#4 b c m now r :=
  ⟨_, finish_bytes (n := len.toNat - c - 1) (by omega) rfl (by omega)⟩

theorem ends_report (hc : c < len.toNat) : Ends (r + (len.toNat - c)) tp len 0xC#4 b c m now r := by
  by_cases hl : c + 1 = len.toNat
  · exact ⟨_, finish_lastReport hl rfl (by omega)⟩
  · obtain ⟨T, h⟩ := ends_load (tp := tp) (b := b) (m := m) (now := now) (r := r + 1) (c := c + 1) (len := len) (by omega)
    rw [show r + 1 + (len.toNat - (c + 1)) = r + (len.toNat - c) by omega] at h
    exact ⟨T, finish_report (by omega) h⟩

theorem ends_nextBit (hc : c < len.toNat) : Ends (r + (len.toNat - c)) tp len 0xB#4 b c m now r := by
  by_cases hb : b = 0#3
  · subst hb
    obtain ⟨T, h⟩ := ends_report (tp := tp) (b := 0#3) (m := m) (now := now) (r := r) hc
    exact ⟨T, finish_lastBit h⟩
  · have hpos : b.toNat ≠ 0 := fun h0 => hb (BitVec.eq_of_toNat_eq h0)
    have hlt := b.isLt
    obtain ⟨T, h⟩ := ends_report (tp := tp) (b := 0#3) (m := 0)
      (now := now + roundTicks tp + roundTicks tp * (b.toNat - 1)) (r := r) hc
    refine ⟨T, finish_nextBit (b' := BitVec.ofNat 3 (b.toNat - 1)) ?_ (finish_round (finish_bits ?_ h))⟩ <;>
      simp <;> omega

/-- From every phase of a running session the message can be ended, with a report for every byte left. -/
theorem ends_any (hc : c < len.toNat) (h1 : p ≠ 0x1#4) (h0 : p ≠ 0x0#4) (hp : p.toNat ≤ 0xC) :
    Ends (r + (len.toNat - c)) tp len p b c m now r := by
  have nextBit := fun m now => ends_nextBit (tp := tp) (b := b) (m := m) (now := now) (r := r) hc
  have sample := fun m now => (nextBit m now).imp fun _ => finish_sample
  have waitSettle := fun m now => (sample 0 (now + m)).imp fun _ h => wait_down (by simp) (finish_waitSettle h)
  have waitLow := fun m now => (waitSettle tp.sampleSettle.toNat (now + m)).imp fun _ h => wait_down (by simp) (finish_waitLow h)
  have clkLo := fun m now => (waitLow (tp.bitPeriod.toNat / 4) now).imp fun _ h => finish_clkLo (m := m) h
  have waitHigh := fun m now => (clkLo 0 (now + m)).imp fun _ h => wait_down (by simp) (finish_waitHigh h)
  have clkHi := fun m now => (waitHigh (tp.bitPeriod.toNat / 2) now).imp fun _ h => finish_clkHi (m := m) h
  have waitSetup := fun m now => (clkHi 0 (now + m)).imp fun _ h => wait_down (by simp) (finish_waitSetup h)
  have driveMo := (waitSetup (tp.bitPeriod.toNat / 4) now).imp fun _ h => finish_driveMo (m := m) h
  obtain ⟨i, hi⟩ := decodeMaster_ok p hp
  cases decodeMaster_code hi with
  | idle h => exact absurd h h0
  | acquire h => exact absurd h h1
  | load h => exact h ▸ ends_load hc
  | driveMo h => exact h ▸ driveMo
  | waitSetup h => exact h ▸ waitSetup m now
  | clkHi h => exact h ▸ clkHi m now
  | waitHigh h => exact h ▸ waitHigh m now
  | clkLo h => exact h ▸ clkLo m now
  | waitLow h => exact h ▸ waitLow m now
  | waitSettle h => exact h ▸ waitSettle m now
  | sample h => exact h ▸ sample m now
  | nextBit h => exact h ▸ nextBit m now
  | report h => exact h ▸ ends_report hc

end Sys2Proof.Machine
end

