-- ==== Sys2Proof/Laws/Timeline.lean ====
section
/-! SUPPORT. The invariant behind the master's timeline (40_master.md R144): at every phase of a session without jitter, the tick is the one the timing policy gives it. -/

namespace Sys2Proof.Machine

/-- The phase of a running master and the tick, for quarter `q`, half `h`, round `d`, the tick `begun` of the byte's M.LOAD and the tick `round` of the bit's M.DRIVE_MO. -/
def PhaseAt (q h d begun round now timer : Nat) (p : PhaseCode) : Prop :=
  (p = 0x2#4 ∧ now = begun) ∨ (p = 0x3#4 ∧ now = round) ∨ (p = 0x4#4 ∧ now + timer = round + q) ∨
  (p = 0x5#4 ∧ now = round + q) ∨ (p = 0x6#4 ∧ now + timer = round + q + h) ∨
  (p = 0x7#4 ∧ now = round + q + h) ∨ (p = 0x8#4 ∧ now + timer = round + 2 * q + h) ∨
  (p = 0x9#4 ∧ now + timer = round + d) ∨ (p = 0xA#4 ∧ now = round + d) ∨ (p = 0xB#4 ∧ now = round + d) ∨
  (p = 0xC#4 ∧ now = begun + 8 * d)

/-- The reports of `n` bytes, the first of them at `t0 + 8 d`. -/
def ReportsAt (t0 d n : Nat) (before reports : List Report) : Prop :=
  ∃ rs, reports = before ++ rs ∧ rs.length = n ∧
    ∀ j (hj : j < rs.length), rs[j].t = t0 + 8 * d * (j + 1) ∧ rs[j].idx.toNat = j

/-- One more report, in its place. -/
theorem ReportsAt.snoc {t0 d n : Nat} {before reports : List Report} {r : Report} (h : ReportsAt t0 d n before reports)
    (ht : r.t = t0 + 8 * d * (n + 1)) (hi : r.idx.toNat = n) : ReportsAt t0 d (n + 1) before (reports ++ [r]) := by
  obtain ⟨rs, h1, h2, h3⟩ := h
  refine ⟨rs ++ [r], by simp [h1], by simp [h2], fun j hj => ?_⟩
  by_cases hl : j < rs.length
  · rw [List.getElem_append_left hl]
    exact h3 j hl
  · have : j = rs.length := by simp at hj; omega
    subst this
    simp [ht, hi, h2]

/-- Where a session that began at tick `t0` with timing `tp`, length `len` and reports `before` stands. -/
structure OnTime (t0 : Nat) (tp : Timing) (len : Word) (before : List Report) (t : State) : Prop where
  quiet : t.cfg.Quiet
  place : (t.master.state = .running ∧ t.tp = tp ∧ t.master.msgLen = len ∧ len ≠ 0#32 ∧
      ((t.master.phase = 0x1#4 ∧ t.now = t0 ∧ t.master.reports = before) ∨
        (t.master.cursor.toNat < len.toNat ∧ ReportsAt t0 (roundTicks tp) t.master.cursor.toNat before t.master.reports ∧
          PhaseAt (tp.bitPeriod.toNat / 4) (tp.bitPeriod.toNat / 2) (roundTicks tp)
            (t0 + 8 * roundTicks tp * t.master.cursor.toNat)
            (t0 + 8 * roundTicks tp * t.master.cursor.toNat + roundTicks tp * (7 - t.master.bit.toNat))
            t.now t.master.timer t.master.phase))) ∨
    (t.master.state = .done ∧ t0 + 8 * roundTicks tp * len.toNat ≤ t.now ∧ t.master.cursor.toNat = len.toNat ∧
      ReportsAt t0 (roundTicks tp) len.toNat before t.master.reports)

variable {t0 : Nat} {tp : Timing} {len : Word} {before : List Report}

theorem OnTime.keep {s u : State} (h : OnTime t0 tp len before s) (hm : u.master = s.master) (hn : u.now = s.now)
    (ht : u.tp = s.tp) (hc : u.cfg = s.cfg) : OnTime t0 tp len before u := by
  refine ⟨hc ▸ h.quiet, ?_⟩
  have := h.place
  rw [hm, hn, ht]
  exact this

theorem OnTime.over {s u : State} (h : OnTime t0 tp len before s) (hs : s.master.state ≠ .running)
    (h1 : u.master.state = s.master.state) (h2 : u.master.cursor = s.master.cursor)
    (h3 : u.master.reports = s.master.reports) (hn : s.now ≤ u.now) (hc : u.cfg = s.cfg) :
    OnTime t0 tp len before u := by
  refine ⟨hc ▸ h.quiet, ?_⟩
  rcases h.place with ⟨h, -⟩ | ⟨a, b, c, d⟩
  · exact absurd h hs
  right
  rw [h1, h2, h3]
  exact ⟨a, by omega, c, d⟩

theorem OnTime.move {s u : State} (h : OnTime t0 tp len before s) (hr : s.master.state = .running)
    (hm : MasterMove s u) : OnTime t0 tp len before u := by
  obtain ⟨hq, h⟩ := h
  have hj := quiet_jitter hq
  rcases h with ⟨-, htp, hlen, hne, h⟩ | ⟨hd, -⟩
  swap
  · rw [hr] at hd; cases hd
  have hl32 := len.isLt
  have hb := s.master.bit.isLt
  have hD : roundTicks tp = 2 * (tp.bitPeriod.toNat / 4) + tp.bitPeriod.toNat / 2 + tp.sampleSettle.toNat := rfl
  have hcu : s.master.cursor.toNat < len.toNat → (s.master.cursor + 1#32).toNat = s.master.cursor.toNat + 1 := by
    intro hc
    rw [BitVec.toNat_add]
    simp
    omega
  cases hm
  case acquireEmpty hp hn => rw [hlen] at hn; exact absurd hn hne
  case acquire hp hn =>
    rcases h with ⟨_, h1, h2⟩ | ⟨_, _, h⟩
    · have : len.toNat ≠ 0 := fun e => hne (BitVec.eq_of_toNat_eq (by simpa using e))
      refine ⟨hq, .inl ⟨hr, htp, hlen, hne, .inr ⟨by simp; omega, ⟨[], by simp [h2], by simp, by simp⟩,
        .inl ⟨rfl, by simpa using h1⟩⟩⟩⟩
    · simp [PhaseAt, hp] at h
  case report hp hc =>
    rcases h with ⟨h, _⟩ | ⟨hcl, hrs, h⟩
    · simp [hp] at h
    simp [PhaseAt, hp] at h
    have hcu := hcu hcl
    refine ⟨hq, .inl ⟨hr, htp, hlen, hne, .inr ⟨by rw [← hlen]; exact hc, ?_, .inl ⟨rfl, ?_⟩⟩⟩⟩
    · dsimp only
      rw [hcu]
      exact hrs.snoc (by rw [h]; ring) rfl
    · dsimp only
      rw [hcu, h]
      ring
  case lastReport hp hc =>
    rcases h with ⟨h, _⟩ | ⟨hcl, hrs, h⟩
    · simp [hp] at h
    simp [PhaseAt, hp] at h
    have hcu := hcu hcl
    rw [BitVec.lt_def, hcu, hlen] at hc
    have hn : len.toNat = s.master.cursor.toNat + 1 := by omega
    refine ⟨hq, .inr ⟨rfl, ?_, by dsimp only; rw [hcu, hn], ?_⟩⟩
    · dsimp only
      rw [hn, h]
      exact le_of_eq (by ring)
    · rw [hn]
      exact hrs.snoc (by rw [h]; ring) rfl
  all_goals
    rcases h with ⟨h, _⟩ | ⟨hcl, hrs, h⟩
    · simp [*] at h
  case inl.nextBit.inr hp hb =>
    simp [PhaseAt, hp] at h
    refine ⟨hq, .inl ⟨hr, htp, hlen, hne, .inr ⟨hcl, hrs, .inr (.inl ⟨rfl, ?_⟩)⟩⟩⟩
    have hz : s.master.bit.toNat ≠ 0 := fun e => hb (BitVec.eq_of_toNat_eq (by simpa using e))
    have e : (s.master.bit - 1#3).toNat = s.master.bit.toNat - 1 := by rw [BitVec.toNat_sub]; simp; omega
    dsimp only
    rw [e, h, show 7 - (s.master.bit.toNat - 1) = (7 - s.master.bit.toNat) + 1 by omega]
    ring
  case inl.lastBit.inr hp hb =>
    simp [PhaseAt, hp, hb] at h
    refine ⟨hq, .inl ⟨hr, htp, hlen, hne, .inr ⟨hcl, hrs, ?_⟩⟩⟩
    simp [PhaseAt]
    omega
  all_goals
    refine ⟨hq, .inl ⟨hr, htp, hlen, hne, .inr ⟨hcl, hrs, ?_⟩⟩⟩
    simp [PhaseAt, *] at h ⊢
    try omega

theorem OnTime.ticked {s : State} (h : OnTime t0 tp len before s) (hu : masterUrgent s = false) :
    OnTime t0 tp len before (tick s) := by
  by_cases hr : s.master.state = .running
  swap
  · exact h.over hr rfl rfl rfl (by simp) rfl
  obtain ⟨hq, h⟩ := h
  rcases h with ⟨-, htp, hlen, hne, h⟩ | ⟨hd, -⟩
  swap
  · rw [hr] at hd; cases hd
  refine ⟨hq, .inl ⟨hr, htp, hlen, hne, ?_⟩⟩
  simp [masterUrgent, hr, isMasterInstant, isMasterWait] at hu
  rcases h with ⟨h, _⟩ | ⟨hcl, hrs, h⟩
  · simp [h] at hu
  · refine .inr ⟨hcl, hrs, ?_⟩
    unfold PhaseAt at h
    casesm* _ ∨ _
    all_goals
      obtain ⟨hp, h⟩ := h
      simp [hp] at hu
    all_goals
      simp [PhaseAt, tick, hr, hp, isMasterWait, Nat.pos_of_ne_zero hu]
      omega

/-- Every step keeps the session on time, whoever acts, unless the host stops or starts the master. -/
theorem OnTime.step {s t : State} (h : OnTime t0 tp len before s) (hc : s.choice.noMasterControl)
    (hs : step s = .next t) : OnTime t0 tp len before t := by
  obtain ⟨-, -, u, rfl, ha⟩ := step_action hs
  suffices OnTime t0 tp len before u from this.keep rfl rfl rfl rfl
  have hq := h.quiet
  cases ha with
  | master ht h' =>
    cases h' with
    | move hr m => exact h.move hr m
    | nothing => exact h
    | setupError hr hp hf => simp [setupFails, hq.1] at hf
    | ioError hr l hl hf => simp [ioFails, hq.2.1] at hf
  | slave ht h' =>
    cases h' with
    | move hr m => cases m <;> exact h.keep rfl rfl rfl rfl
    | _ => exact h.keep rfl rfl rfl rfl
  | host w ht h' =>
    simp only [Choice.noMasterControl, Choice.hostOp, ht] at hc
    generalize decodeHtw w = i at h' hc
    cases h' with
    | stopMaster => simp at hc
    | startMaster => simp at hc
    | msgLen n hh _ => exact h.over hh rfl rfl rfl (le_refl _) rfl
    | msg n b hh _ => exact h.over hh rfl rfl rfl (le_refl _) rfl
    | bitPeriod x hh _ => exact h.over hh rfl rfl rfl (le_refl _) rfl
    | sampleSettle x hh _ => exact h.over hh rfl rfl rfl (le_refl _) rfl
    | stabilize x hh _ => exact h.over hh rfl rfl rfl (le_refl _) rfl
    | edgeWait x hh _ => exact h.over hh rfl rfl rfl (le_refl _) rfl
    | _ => exact h.keep rfl rfl rfl rfl
  | glitch l v ht hg => simp [hq.2.2.1] at hg
  | time ht hu _ => exact h.ticked hu
  | _ => exact h

end Sys2Proof.Machine
end

