-- ==== Sys2Proof/Tests/Slice0.lean ====
section
/-! SUPPORT. The implementer's own tests: ill-formed terms, words written out from the spec's encodings, one step of every instruction against spec/95_test_vectors.md, and a witness for the hypotheses of every statement that has any. -/

namespace Sys2Proof.Tests.Slice0

open Sys2Proof Sys2Proof.Machine

/-! ## Small states -/

/-- The conventions of 95_test_vectors.md: TP = (1000, 10, 50, 100), capacities 16, LAT_MIN = LAT_MAX = 100, no faults. -/
def conventions : Params where
  tick := 1000
  latMin := 100
  latMax := some 100
  jitterMax := 0
  msgCap := 16
  replyCap := 16
  tpResetBitPeriod := 1000#32
  tpResetSampleSettle := 10#32
  tpResetStabilize := 50#32
  tpResetEdgeWait := 100#32
  setupFaults := false
  ioFaults := false
  lineGlitch := false

/-- After reset, with the vectors' message "HI" and reply "OK" written, and turn `t` next. -/
def idle (t : Turn) : State :=
  { State.resetWith conventions with
    master.msgLen := 2#32, master.msg := [(0, 0x48#8), (1, 0x49#8)]
    slave.replyLen := 2#32, slave.reply := [(0, 0x4F#8), (1, 0x4B#8)]
    script := [plainChoice t] }

/-- The master RUNNING at phase `p`, its turn next. -/
def atM (p : PhaseCode) : State := { idle .master with master.state := .running, master.phase := p, master.tx := 0x48#8 }

/-- The slave RUNNING at phase `p`, its turn next. -/
def atS (p : PhaseCode) : State := { idle .slave with slave.state := .running, slave.phase := p, slave.tx := 0x4F#8 }

/-- The same with both fault parameters set and a draw that fails, on line `l` for an acquisition. -/
def failing (l : Line) (s : State) : State :=
  { s with cfg.setupFaults := true, cfg.ioFaults := true
           script := s.script.map fun c => { c with fail := true, failLine := l } }

/-- The same with an edge completion drawn. -/
def drawEdge (s : State) : State := { s with script := s.script.map fun c => { c with completion := .edge } }

/-- The result is a next state with this property. -/
def goesTo (r : Result) (p : State → Bool) : Bool :=
  match r with
  | .next t => p t
  | .fault _ => false
  | .refused _ => false

/-- What a read of `a` returns. -/
def reads (a : HostAddr) (s : State) (w : Word) : Bool := goesTo (exec (.hRd a) s) fun t => t.rdata == w

/-! ## Well-formedness: one ill-formed term for each check, R108 rows 2 to 13 -/

theorem test_wellFormed_stop : (Instr.hWrIgnored 0x0000#16 2#32).wellFormed = false := by decide
theorem test_wellFormed_start : (Instr.hWrIgnored 0x0100#16 1#32).wellFormed = false := by decide
theorem test_wellFormed_msgLen : (Instr.hWrIgnored 0x0008#16 0#32).wellFormed = false := by decide
theorem test_wellFormed_replyLen : (Instr.hWrIgnored 0x0108#16 0#32).wellFormed = false := by decide
theorem test_wellFormed_bitPeriod : (Instr.hWrIgnored 0x0200#16 7#32).wellFormed = false := by decide
theorem test_wellFormed_sampleSettle : (Instr.hWrIgnored 0x020C#16 7#32).wellFormed = false := by decide
theorem test_wellFormed_stabilize : (Instr.hWrIgnored 0x0210#16 7#32).wellFormed = false := by decide
theorem test_wellFormed_edgeWait : (Instr.hWrIgnored 0x0214#16 7#32).wellFormed = false := by decide
theorem test_wellFormed_msg : (Instr.hWrIgnored 0x1FFC#16 0#32).wellFormed = false := by decide
theorem test_wellFormed_reply : (Instr.hWrIgnored 0x2000#16 0#32).wellFormed = false := by decide
/-- The writes of V.H8, V.H9, V.H15, V.E7 and V.E8 are ignored ones. -/
theorem test_wellFormed_ignored :
    (Instr.hWrIgnored 0x0000#16 0#32).wellFormed = true ∧ (Instr.hWrIgnored 0x0000#16 4#32).wellFormed = true ∧
    (Instr.hWrIgnored 0x0204#16 7#32).wellFormed = true ∧ (Instr.hWrIgnored 0x0004#16 1#32).wellFormed = true ∧
    (Instr.hWrIgnored 0x1002#16 1#32).wellFormed = true := by decide

/-! ## Decoding: every constructor's word, written out from R101 to R104, R108 and V.E -/

theorem test_decode_master :
    decodeTableWord 8 0b0_0000 = some .mIdle ∧ decodeTableWord 8 0b0_0001 = some .mAcquire ∧
    decodeTableWord 8 0b0_0010 = some .mLoad ∧ decodeTableWord 8 0b0_0011 = some .mDriveMo ∧
    decodeTableWord 8 0b0_0100 = some .mWaitSetup ∧ decodeTableWord 8 0b0_0101 = some .mClkHi ∧
    decodeTableWord 8 0b0_0110 = some .mWaitHigh ∧ decodeTableWord 8 0b0_0111 = some .mClkLo ∧
    decodeTableWord 8 0b0_1000 = some .mWaitLow ∧ decodeTableWord 8 0b0_1001 = some .mWaitSettle ∧
    decodeTableWord 8 0b0_1010 = some .mSample ∧ decodeTableWord 8 0b0_1011 = some .mNextBit ∧
    decodeTableWord 8 0b0_1100 = some .mReport := by decide

theorem test_decode_slave :
    decodeTableWord 8 0b1_0000 = some .sIdle ∧ decodeTableWord 8 0b1_0001 = some .sAcquire ∧
    decodeTableWord 8 0b1_0010 = some .sInitial ∧ decodeTableWord 8 0b1_0011 = some .sAwaitEdge ∧
    decodeTableWord 8 0b1_0100 = some .sRetry ∧ decodeTableWord 8 0b1_0101 = some .sSample ∧
    decodeTableWord 8 0b1_0110 = some .sDriveNext ∧ decodeTableWord 8 0b1_0111 = some .sStabilize ∧
    decodeTableWord 8 0b1_1000 = some .sByteComplete := by decide

/-- V.E11: 0x0D and 0x19 are invalid. -/
theorem test_decode_reserved :
    decode (.mow 0x0D#5) = .error (.reservedMasterCode 0xD#4) ∧ decode (.mow 0x19#5) = .error (.reservedSlaveCode 0x9#4) := by
  decide

/-- V.E1 to V.E8 and the words of P1. -/
theorem test_decode_host :
    decodeTableWord 56 0x0_0104_0000_0000 = some (.hRd 0x0104#16) ∧
    decodeTableWord 56 0x1_0000_0000_0003 = some .hWrMStop ∧ decodeTableWord 56 0x1_0000_0000_0001 = some .hWrMStart ∧
    decodeTableWord 56 0x1_0100_0000_0002 = some .hWrSStop ∧ decodeTableWord 56 0x1_0100_0000_0001 = some .hWrSStart ∧
    decodeTableWord 56 0x1_0008_0000_0002 = some (.hWrMMsgLen 2#32) ∧
    decodeTableWord 56 0x1_0108_0000_0002 = some (.hWrSReplyLen 2#32) ∧
    decodeTableWord 56 0x1_0200_0000_03E8 = some (.hWrTpBitPeriod 1000#32) ∧
    decodeTableWord 56 0x1_020C_0000_000A = some (.hWrTpSampleSettle 10#32) ∧
    decodeTableWord 56 0x1_0210_0000_0032 = some (.hWrTpStabilize 50#32) ∧
    decodeTableWord 56 0x1_0214_0000_0064 = some (.hWrTpEdgeWait 100#32) ∧
    decodeTableWord 56 0x1_1004_0000_0049 = some (.hWrMMsg 1#10 0x49#8) ∧
    decodeTableWord 56 0x1_2000_0000_004F = some (.hWrSReply 0#10 0x4F#8) ∧
    decodeTableWord 56 0x1_0004_0000_0001 = some (.hWrIgnored 0x0004#16 1#32) ∧
    decodeTableWord 56 0x1_1002_0000_0001 = some (.hWrIgnored 0x1002#16 1#32) := by decide

/-- V.H18, V.H20: the data bits above the byte and the index bits of the last entry. -/
theorem test_decode_entries :
    decodeTableWord 56 0x1_1000_0000_0148 = some (.hWrMMsg 0#10 0x48#8) ∧
    decodeTableWord 56 0x1_1FFC_0000_0055 = some (.hWrMMsg 1023#10 0x55#8) ∧
    decodeTableWord 56 0x1_2FFC_FFFF_FF55 = some (.hWrSReply 1023#10 0x55#8) := by decide

/-- A word placed after reset is the one the next step runs. -/
theorem test_fetch_word :
    goesTo (step (State.reset.withFetchWord 56 0x1_0200_0000_03E8)) (fun t => t.tp.bitPeriod == 1000#32) = true ∧
    goesTo (step (State.reset.withFetchWord 8 0b0_0100)) (fun t => t.master.phase == 0x5#4) = true ∧
    goesTo (step (State.reset.withFetchWord 8 0b1_1000)) (fun t => t.slave.phase == 0x2#4) = true := by decide

/-! ## The master micro-operations, V.M -/

/-- V.M24. -/
theorem test_mIdle : goesTo (exec .mIdle (idle .master)) (fun t => t == idle .master) = true := by decide

/-- V.M1, V.M2. -/
theorem test_mAcquire :
    goesTo (exec .mAcquire { atM 0x1#4 with master.cursor := 5#32 })
      (fun t => t.master.cursor == 0#32 && t.master.phase == 0x2#4) = true ∧
    goesTo (exec .mAcquire { atM 0x1#4 with master.msgLen := 0#32 })
      (fun t => masterStatus t.master == 0x00030002#32) = true := by decide

/-- V.M3. -/
theorem test_mAcquire_fails :
    goesTo (exec .mAcquire { failing .mo (atM 0x1#4) with master.cursor := 5#32 })
      (fun t => masterStatus t.master == 0x00011013#32 && t.master.cursor == 5#32) = true := by decide

/-- V.M4. -/
theorem test_mLoad :
    goesTo (exec .mLoad { atM 0x2#4 with master.tx := 0#8, master.rx := 0xFF#8 })
      (fun t => t.master.tx == 0x48#8 && t.master.rx == 0#8 && t.master.bit == 7#3 && t.master.phase == 0x3#4) = true := by
  decide

/-- R79: an entry that the host has not written. -/
theorem test_mLoad_unwritten :
    exec .mLoad { atM 0x2#4 with master.cursor := 2#32 } = .fault (.unwrittenBuffer .master 2) := rfl

/-- V.M5, V.M7. -/
theorem test_mDriveMo :
    goesTo (exec .mDriveMo { atM 0x3#4 with master.bit := 6#3 })
      (fun t => t.lines.mo && t.master.phase == 0x4#4 && t.master.timer == 250) = true ∧
    goesTo (exec .mDriveMo { atM 0x3#4 with master.bit := 7#3, lines.mo := true }) (fun t => !t.lines.mo) = true := by
  decide

/-- V.M6. -/
theorem test_mDriveMo_fails :
    goesTo (exec .mDriveMo (failing .clk { atM 0x3#4 with master.bit := 7#3, lines.mo := true }))
      (fun t => masterStatus t.master == 0x00012733#32 && t.lines.mo) = true := by decide

/-- V.M7, V.M13. -/
theorem test_waits :
    goesTo (exec .mWaitSetup (atM 0x4#4)) (fun t => t.master.phase == 0x5#4) = true ∧
    goesTo (exec .mWaitHigh (atM 0x6#4)) (fun t => t.master.phase == 0x7#4) = true ∧
    goesTo (exec .mWaitSettle (atM 0x9#4)) (fun t => t.master.phase == 0xA#4) = true := by decide

/-- V.M16. -/
theorem test_mWaitLow :
    goesTo (exec .mWaitLow (atM 0x8#4)) (fun t => t.master.phase == 0x9#4 && t.master.timer == 10) = true ∧
    goesTo (exec .mWaitLow { atM 0x8#4 with master.timer := 3 }) (fun t => t == { atM 0x8#4 with master.timer := 3 }) = true := by
  decide

/-- V.M9, V.M12. -/
theorem test_mClkHi :
    goesTo (exec .mClkHi { atM 0x5#4 with now := 250, slave.state := .running, slave.phase := 0x3#4 })
      (fun t => t.lines.clk && t.slave.edgePend && t.slave.edgeT == 250 && t.master.timer == 500) = true ∧
    goesTo (exec .mClkHi (atM 0x5#4)) (fun t => t.lines.clk && !t.slave.edgePend) = true := by decide

/-- V.M10, V.M11. -/
theorem test_mClkHi_latch :
    goesTo (exec .mClkHi { atM 0x5#4 with now := 250, slave.state := .running, slave.edgePend := true, slave.edgeT := 7 })
      (fun t => t.lines.clk && t.slave.edgeT == 7 && t.history == [.edgeLost 250]) = true ∧
    goesTo (exec .mClkHi { atM 0x5#4 with now := 250, slave.state := .running, lines.clk := true })
      (fun t => t.lines.clk && !t.slave.edgePend && t.history == []) = true := by decide

/-- V.M15. -/
theorem test_mClkLo :
    goesTo (exec .mClkLo { atM 0x7#4 with slave.state := .running, lines.clk := true })
      (fun t => !t.lines.clk && !t.slave.edgePend && t.master.phase == 0x8#4 && t.master.timer == 250) = true := by decide

/-- V.M18, V.M19. -/
theorem test_mSample :
    goesTo (exec .mSample { atM 0xA#4 with master.bit := 7#3, lines.so := true })
      (fun t => t.master.rx == 0x80#8 && t.master.phase == 0xB#4) = true ∧
    goesTo (exec .mSample { atM 0xA#4 with master.bit := 0#3, master.rx := 0x9F#8 }) (fun t => t.master.rx == 0x9E#8) = true := by
  decide

/-- V.M20, V.M21. -/
theorem test_mNextBit :
    goesTo (exec .mNextBit { atM 0xB#4 with master.bit := 3#3 }) (fun t => t.master.bit == 2#3 && t.master.phase == 0x3#4) = true ∧
    goesTo (exec .mNextBit (atM 0xB#4)) (fun t => t.master.bit == 0#3 && t.master.phase == 0xC#4) = true := by decide

/-- V.M22, V.M23. -/
theorem test_mReport :
    goesTo (exec .mReport { atM 0xC#4 with master.rx := 0x9E#8, now := 8080 })
      (fun t => t.master.reports == [⟨0#32, 0x48#8, 0x9E#8, 8080⟩] && t.master.cursor == 1#32 && t.master.phase == 0x2#4) = true ∧
    goesTo (exec .mReport { atM 0xC#4 with master.cursor := 1#32 })
      (fun t => t.master.cursor == 2#32 && t.master.state == .done && t.master.phase == 0#4) = true := by decide

/-! ## The slave micro-operations, V.S -/

/-- V.S23. -/
theorem test_sIdle : goesTo (exec .sIdle (idle .slave)) (fun t => t == idle .slave) = true := by decide

/-- V.S9. -/
theorem test_sAcquire :
    goesTo (exec .sAcquire { atS 0x1#4 with slave.cursor := 1#32, slave.edgePend := true })
      (fun t => t.slave.cursor == 0#32 && !t.slave.edgePend && t.slave.phase == 0x2#4) = true := by decide

/-- V.S10. -/
theorem test_sAcquire_fails :
    goesTo (exec .sAcquire (failing .so (atS 0x1#4))) (fun t => slaveStatus t.slave == 0x00021013#32) = true := by decide

/-- V.S11, V.S12, V.S7. -/
theorem test_sInitial :
    goesTo (exec .sInitial { atS 0x2#4 with slave.rx := 0xFF#8 })
      (fun t => t.slave.tx == 0x4F#8 && t.slave.rx == 0#8 && t.slave.bit == 7#3 && !t.lines.so && t.slave.phase == 0x3#4
        && t.slave.totimer == 100#32) = true ∧
    goesTo (exec .sInitial { atS 0x2#4 with slave.reply := [(0, 0xA5#8)], tp.edgeWait := 0#32 })
      (fun t => t.lines.so && t.slave.totimer == 1#32) = true := by decide

/-- R79: an entry that the host has not written. -/
theorem test_sInitial_unwritten :
    exec .sInitial { atS 0x2#4 with slave.cursor := 9#32 } = .fault (.unwrittenBuffer .slave 9) := rfl

/-- V.S4: not before LAT_MIN, then at it. -/
theorem test_sAwaitEdge_edge :
    goesTo (exec .sAwaitEdge (drawEdge { atS 0x3#4 with slave.edgePend := true, slave.edgeT := 250, now := 349 }))
      (fun t => t.slave.phase == 0x3#4 && t.slave.edgePend) = true ∧
    goesTo (exec .sAwaitEdge (drawEdge { atS 0x3#4 with slave.edgePend := true, slave.edgeT := 250, now := 350 }))
      (fun t => t.slave.phase == 0x5#4 && !t.slave.edgePend) = true := by decide

/-- V.S6. -/
theorem test_sAwaitEdge_timeout :
    goesTo (exec .sAwaitEdge { atS 0x3#4 with slave.edgePend := true }) (fun t => t.slave.phase == 0x4#4 && t.slave.edgePend) = true ∧
    goesTo (exec .sAwaitEdge { atS 0x3#4 with slave.totimer := 1#32 }) (fun t => t.slave.phase == 0x3#4) = true := by decide

/-- V.S6. -/
theorem test_sRetry :
    goesTo (exec .sRetry (atS 0x4#4)) (fun t => t.slave.phase == 0x3#4 && t.slave.totimer == 100#32) = true := by decide

/-- V.S13, V.S14. -/
theorem test_sSample :
    goesTo (exec .sSample { atS 0x5#4 with slave.bit := 7#3 }) (fun t => t.slave.rx == 0#8 && t.slave.phase == 0x6#4) = true ∧
    goesTo (exec .sSample { atS 0x5#4 with slave.rx := 0x48#8, lines.mo := true })
      (fun t => t.slave.rx == 0x49#8 && t.slave.phase == 0x8#4) = true := by decide

/-- V.S15, V.S16. -/
theorem test_sDriveNext :
    goesTo (exec .sDriveNext { atS 0x6#4 with slave.bit := 7#3 })
      (fun t => t.lines.so && t.slave.bit == 6#3 && t.slave.phase == 0x7#4 && t.slave.timer == 50#32) = true ∧
    goesTo (exec .sDriveNext { atS 0x6#4 with slave.bit := 3#3, slave.tx := 0x4B#8, lines.so := true })
      (fun t => !t.lines.so && t.slave.bit == 2#3) = true := by decide

/-- V.T6. -/
theorem test_sDriveNext_fails :
    goesTo (exec .sDriveNext (failing .clk { atS 0x6#4 with slave.bit := 5#3 }))
      (fun t => slaveStatus t.slave == 0x00022563#32) = true := by decide

/-- V.S18. -/
theorem test_sStabilize :
    goesTo (exec .sStabilize (atS 0x7#4)) (fun t => t.slave.phase == 0x3#4 && t.slave.totimer == 100#32) = true ∧
    goesTo (exec .sStabilize { atS 0x7#4 with slave.timer := 1#32 }) (fun t => t.slave.phase == 0x7#4) = true := by decide

/-- V.S20, V.S21. -/
theorem test_sByteComplete :
    goesTo (exec .sByteComplete { atS 0x8#4 with slave.cursor := 1#32, slave.rx := 0x49#8, slave.tx := 0x4B#8, now := 15500 })
      (fun t => t.slave.reports == [⟨1#32, 0x4B#8, 0x49#8, 15500⟩] && t.slave.cursor == 0#32 && t.slave.phase == 0x2#4) = true ∧
    goesTo (exec .sByteComplete { atS 0x8#4 with slave.replyLen := 1#32 }) (fun t => t.slave.cursor == 0#32) = true := by decide

/-! ## The host operations, V.H and V.T -/

/-- V.H1 to V.H5. -/
theorem test_hRd :
    reads 0x0204#16 { idle .time with tp.bitPeriod := 1003#32 } 250#32 = true ∧
    reads 0x0208#16 { idle .time with tp.bitPeriod := 1003#32 } 501#32 = true ∧
    reads 0x0006#16 (idle .time) 0#32 = true ∧ reads 0x0000#16 (idle .time) 0#32 = true ∧
    reads 0x0300#16 { idle .time with lines.mo := true } 2#32 = true ∧ reads 0x1004#16 (idle .time) 0x49#32 = true ∧
    reads 0x2000#16 (idle .time) 0x4F#32 = true ∧ reads 0x1040#16 (idle .time) 0#32 = true := by decide

/-- V.H6, V.T1 to V.T5. -/
theorem test_hRd_status :
    reads 0x0004#16 { atM 0xA#4 with master.bit := 5#3 } 0x000305A1#32 = true ∧
    reads 0x0104#16 (idle .time) 0x00030000#32 = true ∧
    reads 0x0004#16 { idle .time with master.state := .done } 0x00030002#32 = true ∧
    reads 0x0104#16 { atS 0x3#4 with slave.bit := 7#3 } 0x00030731#32 = true ∧
    reads 0x0104#16 { atS 0x3#4 with slave.bit := 7#3, slave.edgePend := true } 0x00130731#32 = true ∧
    reads 0x0004#16
      { atM 0x5#4 with master.bit := 5#3, master.state := .fault, master.cause := .ioError, master.fline := some .clk }
      0x00002553#32 = true := by decide

/-- V.H7, V.H12. -/
theorem test_hWrMStop :
    goesTo (exec .hWrMStop { atM 0x6#4 with lines.clk := true, master.bit := 3#3, master.timer := 4, master.cause := .ioError })
      (fun t => t.master.state == .idle && t.lines.clk && t.master.bit == 3#3 && t.master.tx == 0x48#8 && t.master.timer == 0
        && masterStatus t.master == 0x00030300#32) = true := by decide

/-- V.H10, V.H11. -/
theorem test_hWrMStart :
    goesTo (exec .hWrMStart { idle .time with master.state := .fault, master.cause := .ioError, master.phase := 0x3#4 })
      (fun t => t.master.state == .fault && t.master.cause == .ioError && t.master.phase == 0x3#4) = true ∧
    goesTo (exec .hWrMStart { idle .time with master.state := .done, master.cursor := 2#32 })
      (fun t => t.master.state == .running && t.master.phase == 0x1#4) = true := by decide

/-- V.H14. -/
theorem test_hWrSStop :
    goesTo (exec .hWrSStop { atS 0x3#4 with slave.edgePend := true })
      (fun t => t.slave.state == .idle && !t.slave.edgePend && t.slave.phase == 0#4) = true := by decide

/-- V.H13. -/
theorem test_hWrSStart :
    goesTo (exec .hWrSStart { idle .time with slave.replyLen := 0#32 }) (fun t => t.slave.state == .idle) = true ∧
    goesTo (exec .hWrSStart (idle .time)) (fun t => t.slave.state == .running && t.slave.phase == 0x1#4) = true := by decide

/-- V.H16, V.H17. -/
theorem test_hWrMMsgLen :
    goesTo (exec (.hWrMMsgLen 17#32) (idle .time)) (fun t => t.master.msgLen == 2#32) = true ∧
    goesTo (exec (.hWrMMsgLen 16#32) (idle .time)) (fun t => t.master.msgLen == 16#32) = true ∧
    goesTo (exec (.hWrMMsgLen 1#32) (atM 0x4#4)) (fun t => t.master.msgLen == 2#32) = true := by decide

/-- V.H21. -/
theorem test_hWrSReplyLen :
    goesTo (exec (.hWrSReplyLen 0#32) (idle .time)) (fun t => t.slave.replyLen == 0#32) = true ∧
    goesTo (exec (.hWrSReplyLen 17#32) (idle .time)) (fun t => t.slave.replyLen == 2#32) = true := by decide

/-- V.H18, V.H19. -/
theorem test_hWrMMsg :
    goesTo (exec (.hWrMMsg 0#10 0x11#8) (idle .time)) (fun t => t.master.msg == [(0, 0x11#8), (1, 0x49#8)]) = true ∧
    goesTo (exec (.hWrMMsg 16#10 0x11#8) (idle .time)) (fun t => t.master.msg == [(0, 0x48#8), (1, 0x49#8)]) = true := by decide

/-- V.H22; an entry keeps its place in the list. -/
theorem test_hWrSReply :
    goesTo (exec (.hWrSReply 1#10 0x4B#8) { idle .time with slave.reply := [(0, 1#8), (2, 3#8)] })
      (fun t => t.slave.reply == [(0, 1#8), (1, 0x4B#8), (2, 3#8)]) = true ∧
    goesTo (exec (.hWrSReply 1#10 0x11#8) (atS 0x3#4)) (fun t => t.slave.reply == [(0, 0x4F#8), (1, 0x4B#8)]) = true := by decide

/-- V.H23, V.H24. -/
theorem test_hWrTpBitPeriod :
    goesTo (exec (.hWrTpBitPeriod 7#32) (atM 0x4#4)) (fun t => t.tp.bitPeriod == 1000#32) = true ∧
    goesTo (exec (.hWrTpBitPeriod 7#32) (atS 0x3#4)) (fun t => t.tp.bitPeriod == 1000#32) = true ∧
    goesTo (exec (.hWrTpBitPeriod 1003#32) (idle .time))
      (fun t => t.tp.bitPeriod == 1003#32 && t.tp.quarter == 250#32 && t.tp.half == 501#32) = true := by decide

/-- P1 lines 2 to 4, V.H25. -/
theorem test_hWrTp_others :
    goesTo (exec (.hWrTpSampleSettle 7#32) (idle .time)) (fun t => t.tp == ⟨1000#32, 7#32, 50#32, 100#32⟩) = true ∧
    goesTo (exec (.hWrTpStabilize 7#32) (idle .time)) (fun t => t.tp == ⟨1000#32, 10#32, 7#32, 100#32⟩) = true ∧
    goesTo (exec (.hWrTpEdgeWait 0#32) (idle .time)) (fun t => t.tp == ⟨1000#32, 10#32, 50#32, 0#32⟩) = true := by decide

/-- V.H15. -/
theorem test_hWrIgnored :
    goesTo (exec (.hWrIgnored 0x0204#16 7#32) (idle .time)) (fun t => t == idle .time) = true := by decide

/-- V.T7, the two ends of the range. -/
theorem test_periods :
    (Timing.quarter ⟨0xFFFFFFFF#32, 0, 0, 0⟩ = 0x3FFFFFFF#32 ∧ Timing.half ⟨0xFFFFFFFF#32, 0, 0, 0⟩ = 0x7FFFFFFF#32) ∧
    (Timing.quarter ⟨3#32, 0, 0, 0⟩ = 0#32 ∧ Timing.half ⟨3#32, 0, 0, 0⟩ = 1#32) := by decide

/-! ## The time step -/

/-- R89: not while an action is urgent, then one tick. -/
theorem test_tick :
    goesTo (step { atM 0x3#4 with script := [plainChoice .time] }) (fun t => t.now == 0) = true ∧
    goesTo (step { atM 0x4#4 with master.timer := 250, script := [plainChoice .time] })
      (fun t => t.now == 1 && t.master.timer == 249) = true := by decide

/-! ## Witnesses: for each statement with hypotheses, a state and operands that meet them, clause by clause -/

/-- The same state with a host access next. -/
def hostNext (w : Htw) (s : State) : State := { s with script := [plainChoice (.host w)] }

/-- The same state with turn `t` next. -/
def turn (t : Turn) (s : State) : State := { s with script := [plainChoice t] }

/-- Both engines RUNNING, the master at `p` and the slave at `q`. -/
def both (p q : PhaseCode) : State :=
  { atM p with slave.state := .running, slave.phase := q, slave.tx := 0x4F#8, slave.bit := 7#3, slave.timer := 5#32
               slave.totimer := 5#32 }

theorem witness_DecodeEncodeRoundTrip :
    (Instr.hWrIgnored 0x3000#16 0#32).wellFormed = true ∧ Instr.mSample.wellFormed = true := by decide

/-- The addresses where the rows of R108 meet. -/
theorem witness_HostDecodeTable :
    decodeHtw (htwOf 1#1 0x0FFC#16 1#32) = .hWrIgnored 0x0FFC#16 1#32 ∧
    decodeHtw (htwOf 1#1 0x1000#16 1#32) = .hWrMMsg 0#10 1#8 ∧
    decodeHtw (htwOf 1#1 0x1FFC#16 1#32) = .hWrMMsg 1023#10 1#8 ∧
    decodeHtw (htwOf 1#1 0x2000#16 1#32) = .hWrSReply 0#10 1#8 ∧
    decodeHtw (htwOf 1#1 0x2FFC#16 1#32) = .hWrSReply 1023#10 1#8 ∧
    decodeHtw (htwOf 1#1 0x3000#16 1#32) = .hWrIgnored 0x3000#16 1#32 ∧
    decodeHtw (htwOf 1#1 0x0000#16 3#32) = .hWrMStop ∧ decodeHtw (htwOf 1#1 0x0000#16 4#32) = .hWrIgnored 0#16 4#32 := by
  decide

theorem witness_ReservedCodesRefused :
    0xC < ({ idle .time with master.phase := 0xD#4 } : State).master.phase.toNat ∧
    0xC < ({ idle .time with master.phase := 0xF#4 } : State).master.phase.toNat ∧
    (idle .time).master.phase.toNat ≤ 0xC ∧ 0x8 < ({ idle .time with slave.phase := 0x9#4 } : State).slave.phase.toNat ∧
    0x8 < ({ idle .time with slave.phase := 0xF#4 } : State).slave.phase.toNat ∧
    goesTo (step (atM 0x3#4)) (fun _ => true) = true := by decide

theorem witness_PseudoExpansions : ([] : List Byte).length ≤ 1024 ∧ (List.replicate 1024 0x48#8).length ≤ 1024 :=
  ⟨by decide, by rw [List.length_replicate]⟩

theorem witness_StepRunsDecoded :
    ((atM 0x3#4).choice.turn = .master ∧ decode (.mow (mowOf 0#1 (atM 0x3#4).master.phase)) = .ok .mDriveMo ∧
      decode (.mow (mowOf 1#1 (atM 0x3#4).slave.phase)) = .ok .sIdle) ∧
    ((atS 0x5#4).choice.turn = .slave ∧ decode (.mow (mowOf 1#1 (atS 0x5#4).slave.phase)) = .ok .sSample) ∧
    ((hostNext 0x1_0000_0000_0001#49 (idle .time)).choice.turn = .host 0x1_0000_0000_0001#49 ∧
      decode (.htw 0x1_0000_0000_0001#49) = .ok .hWrMStart) := by
  refine ⟨⟨rfl, rfl, rfl⟩, ⟨rfl, rfl⟩, ⟨rfl, rfl⟩⟩

/-- One state for each way an action is urgent, and one with none. -/
theorem witness_TimeStepEffect :
    (turn .time (atM 0xC#4)).choice.turn = .time ∧ masterUrgent (turn .time (atM 0xC#4)) = true ∧
    masterUrgent (turn .time (atM 0x9#4)) = true ∧ slaveUrgent (turn .time (atS 0x8#4)) = true ∧
    slaveUrgent (turn .time (atS 0x7#4)) = true ∧ slaveUrgent (turn .time (atS 0x3#4)) = true ∧
    slaveUrgent { turn .time (both 0x4#4 0x3#4) with slave.edgePend := true, now := 100 } = true ∧
    slaveUrgent { turn .time (both 0x4#4 0x3#4) with slave.edgePend := true, now := 99 } = false ∧
    masterUrgent { turn .time (both 0x4#4 0x7#4) with master.timer := 1 } = false ∧
    slaveUrgent { turn .time (both 0x4#4 0x7#4) with master.timer := 1 } = false := by decide

/-- A time step with both engines IDLE, and one with both RUNNING in a wait. -/
theorem witness_NowOnlyByTimeStep :
    goesTo (step (idle .time)) (fun t => t.now != (idle .time).now) = true ∧
    (let s : State := { turn .time (both 0x4#4 0x7#4) with master.timer := 1, slave.timer := 1#32 }
     s.choice.turn = .time ∧ s.master.phase.toNat ≤ 0xC ∧ s.slave.phase.toNat ≤ 0x8 ∧ masterUrgent s = false ∧
      slaveUrgent s = false ∧ goesTo (step s) (fun t => t.now == s.now + 1) = true) := by decide

/-- A glitch of MO, and a rise of CLK with the slave IDLE, with an empty latch and with a full one. -/
theorem witness_GlitchEffect :
    (turn (.glitch .clk true) (both 0x4#4 0x3#4)).choice.turn = .glitch .clk true ∧
    (both 0x4#4 0x3#4).cfg.lineGlitch = false ∧
    goesTo (step { turn (.glitch .mo true) (both 0x4#4 0x3#4) with cfg.lineGlitch := true }) (fun t => t.lines.mo) = true ∧
    goesTo (step { turn (.glitch .clk true) (idle .time) with cfg.lineGlitch := true }) (fun t => t.lines.clk) = true ∧
    goesTo (step { turn (.glitch .clk true) (both 0x4#4 0x3#4) with cfg.lineGlitch := true })
      (fun t => t.lines.clk && t.slave.edgePend) = true ∧
    goesTo (step { turn (.glitch .clk true) (both 0x4#4 0x3#4) with cfg.lineGlitch := true, slave.edgePend := true })
      (fun t => t.history == [.edgeLost 0]) = true := by decide

/-- The three cases of a rise, and the three ways a latch is emptied. -/
theorem witness_EdgeLatch :
    goesTo (step (atM 0x5#4)) (fun t => t.lines.clk) = true ∧ (atM 0x5#4).lines.clk = false ∧
    goesTo (step (both 0x5#4 0x3#4)) (fun t => t.lines.clk && t.slave.edgePend) = true ∧
    goesTo (step { both 0x5#4 0x3#4 with slave.edgePend := true }) (fun t => t.lines.clk) = true ∧
    goesTo (step (both 0x3#4 0x3#4)) (fun t => !t.lines.clk) = true ∧
    goesTo (step { atS 0x1#4 with slave.edgePend := true }) (fun t => !t.slave.edgePend) = true ∧
    goesTo (step (drawEdge { atS 0x3#4 with slave.edgePend := true, now := 100 })) (fun t => !t.slave.edgePend) = true ∧
    goesTo (step (hostNext 0x1_0100_0000_0002#49 { atS 0x5#4 with slave.edgePend := true })) (fun t => !t.slave.edgePend)
      = true := by decide

theorem witness_StoppedEngineDoesNothing :
    Instr.mReport.isMasterOp = true ∧ (idle .master).master.state ≠ .running ∧ Instr.sInitial.isSlaveOp = true ∧
    (idle .slave).slave.state ≠ .running := by decide

/-- A failing acquisition, an empty message, and a message. -/
theorem witness_MAcquireResult :
    ((failing .so (atM 0x1#4)).master.state = .running ∧ (failing .so (atM 0x1#4)).cfg.setupFaults = true ∧
      (failing .so (atM 0x1#4)).choice.fail = true) ∧
    ({ atM 0x1#4 with master.msgLen := 0#32 } : State).master.state = .running ∧
    ((atM 0x1#4).master.state = .running ∧ (atM 0x1#4).cfg.setupFaults = false ∧ (atM 0x1#4).master.msgLen ≠ 0#32) := by
  decide

theorem witness_MLoadResult :
    ((atM 0x2#4).master.state = .running ∧ (atM 0x2#4).master.msg.read (atM 0x2#4).master.cursor.toNat = some 0x48#8) ∧
    ({ atM 0x2#4 with master.cursor := 1#32 } : State).master.msg.read 1 = some 0x49#8 ∧
    ({ atM 0x2#4 with master.cursor := 2#32 } : State).master.msg.read 2 = none := by decide

/-- A drive that fails and one that does not; the same draw fails at M.CLK_HI, M.CLK_LO and M.SAMPLE. -/
theorem witness_MDriveMoResult :
    ((failing .clk (atM 0x3#4)).master.state = .running ∧ (failing .clk (atM 0x3#4)).cfg.ioFaults = true ∧
      (failing .clk (atM 0x3#4)).choice.fail = true) ∧
    ((atM 0x3#4).master.state = .running ∧ (atM 0x3#4).cfg.ioFaults = false) := by decide

theorem witness_MWaitResults :
    ((atM 0x8#4).master.state = .running ∧ (atM 0x8#4).master.timer = 0) ∧
    ({ atM 0x8#4 with master.timer := 1 } : State).master.timer ≠ 0 := by decide

/-- CLK high already, the slave IDLE, a full latch and an empty one. -/
theorem witness_MClkHiResult :
    (atM 0x5#4).master.state = .running ∧ ({ atM 0x5#4 with lines.clk := true } : State).lines.clk = true ∧
    (atM 0x5#4).slave.state ≠ .running ∧
    ((both 0x5#4 0x3#4).master.state = .running ∧ (both 0x5#4 0x3#4).lines.clk = false ∧
      (both 0x5#4 0x3#4).slave.state = .running ∧ (both 0x5#4 0x3#4).slave.edgePend = false) ∧
    ({ both 0x5#4 0x3#4 with slave.edgePend := true } : State).slave.edgePend = true := by decide

theorem witness_MClkLoResult : (atM 0x7#4).master.state = .running := by decide

theorem witness_MSampleResult :
    (atM 0xA#4).master.state = .running ∧ (failing .clk (atM 0xA#4)).master.state = .running := by decide

theorem witness_MNextBitResult :
    (atM 0xB#4).master.state = .running ∧ (6#3).toNat + 1 = ({ atM 0xB#4 with master.bit := 7#3 } : State).master.bit.toNat ∧
    (0#3).toNat + 1 = ({ atM 0xB#4 with master.bit := 1#3 } : State).master.bit.toNat ∧ (atM 0xB#4).master.bit = 0#3 := by
  decide

theorem witness_MReportResult :
    (atM 0xC#4).master.state = .running ∧ ({ atM 0xC#4 with master.cursor := 1#32 } : State).master.state = .running := by
  decide

theorem witness_SAcquireResult :
    (atS 0x1#4).slave.state = .running ∧ (failing .so (atS 0x1#4)).slave.state = .running := by decide

theorem witness_SInitialResult :
    ((atS 0x2#4).slave.state = .running ∧ (atS 0x2#4).slave.reply.read (atS 0x2#4).slave.cursor.toNat = some 0x4F#8) ∧
    ({ atS 0x2#4 with slave.cursor := 2#32 } : State).slave.reply.read 2 = none := by decide

theorem witness_SAwaitEdgeResult :
    ((drawEdge (atS 0x3#4)).slave.state = .running ∧ (drawEdge (atS 0x3#4)).choice.completion = .edge) ∧
    ((atS 0x3#4).slave.state = .running ∧ (atS 0x3#4).choice.completion = .timeout) := by decide

theorem witness_SRetryResult : (atS 0x4#4).slave.state = .running := by decide

theorem witness_SSampleResult :
    (atS 0x5#4).slave.state = .running ∧ (failing .clk (atS 0x5#4)).slave.state = .running := by decide

theorem witness_SDriveNextResult :
    ({ atS 0x6#4 with slave.bit := 7#3 } : State).slave.state = .running ∧
    ({ atS 0x6#4 with slave.bit := 7#3 } : State).slave.bit ≠ 0#3 := by decide

theorem witness_SStabilizeResult :
    ((atS 0x7#4).slave.state = .running ∧ (atS 0x7#4).slave.timer = 0#32) ∧
    ({ atS 0x7#4 with slave.timer := 1#32 } : State).slave.timer ≠ 0#32 := by decide

theorem witness_SByteCompleteResult : (atS 0x8#4).slave.state = .running ∧ (atS 0x8#4).slave.replyLen ≠ 0#32 := by decide

/-- Misaligned, the last entry below the capacity, the first above it, written and not, and unmapped. -/
theorem witness_ReadResults :
    (0x1001#16).toNat % 4 ≠ 0 ∧ (15 < (idle .time).cfg.msgCap ∧ 15 < 1024) ∧ (15 < (idle .time).cfg.replyCap) ∧
    (idle .time).master.msg.read 1 = some 0x49#8 ∧ (idle .time).master.msg.read 15 = none ∧
    ¬ ((0x1040#16).toNat - 0x1000) / 4 < (idle .time).cfg.msgCap ∧
    ¬ ((0x2040#16).toNat - 0x2000) / 4 < (idle .time).cfg.replyCap ∧ ¬ 0x1000 ≤ (0x0FFC#16).toNat ∧
    ¬ (0x3000#16).toNat < 0x3000 := by decide

/-- A START that is taken and one that is not, on either side. -/
theorem witness_Starts :
    (idle .time).master.state = .idle ∧ (atM 0x4#4).master.state = .running ∧
    ((idle .time).slave.state = .idle ∧ 1 ≤ (idle .time).slave.replyLen.toNat) ∧
    ({ idle .time with slave.replyLen := 0#32 } : State).slave.replyLen.toNat = 0 := by decide

/-- The bounds of the lengths and of the entries. -/
theorem witness_LengthWriteResults :
    ((idle .time).master.state ≠ .running ∧ (16#32).toNat ≤ (idle .time).cfg.msgCap) ∧
    ¬ (17#32).toNat ≤ (idle .time).cfg.msgCap ∧ ((idle .time).slave.state ≠ .running ∧ (16#32).toNat ≤ (idle .time).cfg.replyCap) ∧
    ¬ (17#32).toNat ≤ (idle .time).cfg.replyCap := by decide

theorem witness_BufferWriteResults :
    ((idle .time).master.state ≠ .running ∧ (15#10).toNat < (idle .time).cfg.msgCap ∧ (idle .time).master.msg.wf = true) ∧
    ¬ ((idle .time).master.state ≠ .running ∧ (16#10).toNat < (idle .time).cfg.msgCap) ∧
    ((idle .time).slave.state ≠ .running ∧ (15#10).toNat < (idle .time).cfg.replyCap ∧ (idle .time).slave.reply.wf = true) ∧
    ¬ ((atS 0x3#4).slave.state ≠ .running ∧ (0#10).toNat < (atS 0x3#4).cfg.replyCap) := by decide

theorem witness_TimingWriteResults :
    ((idle .time).master.state ≠ .running ∧ (idle .time).slave.state ≠ .running) ∧ (atM 0x4#4).master.state = .running ∧
    (atS 0x3#4).slave.state = .running := by decide

theorem witness_IgnoredWriteResult :
    (0x0FFC#16 ∉ [0x0000#16, 0x0100#16, 0x0008#16, 0x0108#16, 0x0200#16, 0x020C#16, 0x0210#16, 0x0214#16] ∧
      ¬ ((0x0FFC#16).toNat % 4 = 0 ∧ 0x1000 ≤ (0x0FFC#16).toNat ∧ (0x0FFC#16).toNat < 0x3000)) ∧
    (0x2FFD#16 ∉ [0x0000#16, 0x0100#16, 0x0008#16, 0x0108#16, 0x0200#16, 0x020C#16, 0x0210#16, 0x0214#16] ∧
      ¬ ((0x2FFD#16).toNat % 4 = 0 ∧ 0x1000 ≤ (0x2FFD#16).toNat ∧ (0x2FFD#16).toNat < 0x3000)) ∧
    (0x0100#16 ∈ [0x0000#16, 0x0100#16] ∧ (4#32).getLsbD 0 = false ∧ (4#32).getLsbD 1 = false) := by decide

/-- A legal state in which both engines run, the master in a wait and the slave at the edge wait with a latched edge. -/
def legalState : State := { both 0x6#4 0x3#4 with lines.clk := true, master.bit := 7#3, slave.edgePend := true, now := 9 }

theorem witness_Legal : legalState.Legal := by
  refine ⟨?_, ?_, by decide, by decide, by simp [legalState, both, atM, idle, State.resetWith]⟩ <;>
    constructor <;> decide

theorem witness_EntriesWritten : legalState.EntriesWritten := by
  constructor <;> decide

/-- A legal state steps, and legal states whose engine is at an entry that the host has not written do not. -/
theorem witness_StepKeepsLegal : goesTo (step legalState) (fun t => t.master.phase == 0x7#4) = true := by decide

theorem witness_LegalStateHasNext :
    ({ atM 0x2#4 with master.msg := [] } : State).Legal ∧ step { atM 0x2#4 with master.msg := [] } = .fault (.unwrittenBuffer .master 0) ∧
    ({ atS 0x2#4 with slave.reply := [] } : State).Legal ∧
    step { atS 0x2#4 with slave.reply := [] } = .fault (.unwrittenBuffer .slave 0) := by
  refine ⟨⟨?_, ?_, by decide, by decide, ?_⟩, rfl, ⟨?_, ?_, by decide, by decide, ?_⟩, rfl⟩
  case refine_3 => simp [atM, idle, State.resetWith]
  case refine_6 => simp [atS, idle, State.resetWith]
  all_goals constructor <;> decide

/-- Each line's clause at a state that meets it, and a step from it. -/
theorem witness_LinesFollowRegisters :
    legalState.LinesDriven ∧ legalState.cfg.lineGlitch = false ∧ goesTo (step legalState) (fun t => t.master.phase == 0x7#4) = true := by
  refine ⟨?_, by decide, by decide⟩
  constructor <;> decide

theorem witness_MasterFrame :
    Instr.mSample.isMasterOp = true ∧ goesTo (exec .mSample (atM 0xA#4)) (fun t => t.master.state == .running) = true ∧
    goesTo (exec .mSample (failing .clk (atM 0xA#4))) (fun t => t.master.state == .fault) = true := by decide

theorem witness_SlaveFrame :
    Instr.sSample.isSlaveOp = true ∧ goesTo (exec .sSample (atS 0x5#4)) (fun t => t.slave.state == .running) = true ∧
    goesTo (exec .sSample (failing .clk (atS 0x5#4))) (fun t => t.slave.state == .fault) = true := by decide

theorem witness_HostFrame : Instr.hWrMStop.isHostOp = true ∧ (Instr.hWrIgnored 0#16 0#32).isHostOp = true := by decide

/-- Every micro-operation of R232, with a draw that fails. -/
theorem witness_FaultEntry :
    (∀ p ∈ [0x1#4, 0x3#4, 0x5#4, 0x7#4, 0xA#4],
      goesTo (step (failing .so (atM p))) (fun t => t.master.state == .fault) = true ∧ (failing .so (atM p)).master.state ≠ .fault) ∧
    (∀ p ∈ [0x1#4, 0x2#4, 0x3#4, 0x5#4, 0x6#4],
      goesTo (step (failing .so (atS p))) (fun t => t.slave.state == .fault) = true ∧ (failing .so (atS p)).slave.state ≠ .fault) := by
  decide

/-- A master and a slave in FAULT, with a tick and with a STOP. -/
theorem witness_FaultSticky :
    goesTo (step (turn .time { atM 0x5#4 with master.state := .fault })) (fun t => t.master.state == .fault) = true ∧
    goesTo (step (hostNext 0x1_0000_0000_0002#49 { atM 0x5#4 with master.state := .fault })) (fun t => t.master.state == .idle) = true ∧
    goesTo (step (turn .time { atS 0x5#4 with slave.state := .fault })) (fun t => t.slave.state == .fault) = true ∧
    goesTo (step (hostNext 0x1_0100_0000_0002#49 { atS 0x5#4 with slave.state := .fault })) (fun t => t.slave.state == .idle) = true := by
  decide

theorem witness_StateTransitions :
    goesTo (step (hostNext 0x1_0000_0000_0001#49 (idle .time))) (fun t => t.master.state == .running) = true ∧
    goesTo (step (hostNext 0x1_0100_0000_0001#49 (idle .time))) (fun t => t.slave.state == .running) = true ∧
    goesTo (step { atM 0xC#4 with master.cursor := 1#32 }) (fun t => t.master.state == .done) = true := by decide

theorem witness_NoFaultWithoutParameters :
    (atM 0x3#4).cfg.setupFaults = false ∧ (atM 0x3#4).cfg.ioFaults = false ∧ (atM 0x3#4).master.state ≠ .fault ∧
    (atM 0x3#4).slave.state ≠ .fault ∧ ∃ t, Runs 1 (atM 0x3#4) t :=
  ⟨by decide, by decide, by decide, by decide, _, rfl⟩

theorem witness_FrozenWhileRunning :
    goesTo (step (hostNext 0x1_1000_0000_0011#49 (both 0x4#4 0x3#4))) (fun t => t.master.state == .running && t.slave.state == .running)
      = true := by decide

theorem witness_PhaseOrder : goesTo (step (atM 0xB#4)) (fun t => t.master.phase == 0xC#4) = true := by decide

/-- Both engines IDLE for the timing policy, and each beside the other RUNNING for its own buffer and length. -/
theorem witness_HostReadsBack :
    ((idle .time).master.state ≠ .running ∧ (idle .time).slave.state ≠ .running) ∧
    ((atS 0x3#4).master.state ≠ .running ∧ (atS 0x3#4).slave.state = .running ∧ (15#10).toNat < (atS 0x3#4).cfg.msgCap ∧
      (1#10 : BitVec 10) ≠ 15#10 ∧ (atS 0x3#4).master.msg.read (1#10).toNat ≠ none ∧
      (atS 0x3#4).slave.reply.read (1#10).toNat ≠ none ∧ (16#32).toNat ≤ (atS 0x3#4).cfg.msgCap) ∧
    ((atM 0x4#4).slave.state ≠ .running ∧ (atM 0x4#4).master.state = .running ∧ (15#10).toNat < (atM 0x4#4).cfg.replyCap ∧
      (atM 0x4#4).slave.reply.read (1#10).toNat ≠ none ∧ (atM 0x4#4).master.msg.read (1#10).toNat ≠ none ∧
      (16#32).toNat ≤ (atM 0x4#4).cfg.replyCap) := by decide

theorem witness_ValueOperations : (1#32 : Word) ≠ 0#32 := by decide

theorem witness_MasterTimeline :
    (atM 0x1#4).cfg.Quiet ∧ (atM 0x1#4).master.state = .running ∧ (atM 0x1#4).master.phase = 0x1#4 ∧
    (atM 0x1#4).master.msgLen ≠ 0#32 ∧ 1 ≤ (atM 0x1#4).script.length ∧
    (∀ c ∈ (atM 0x1#4).script.take 1, c.noMasterControl) ∧ ∃ t, Runs 1 (atM 0x1#4) t := by
  refine ⟨⟨rfl, rfl, rfl, rfl⟩, rfl, rfl, by decide, by decide, ?_, _, rfl⟩
  intro c hc
  obtain rfl : c = plainChoice .master := by simpa [atM, idle] using hc
  simp [Choice.noMasterControl, Choice.hostOp, plainChoice]

/-- Both engines run, each at the last byte of its buffer. -/
def lastByte : State := { both 0x5#4 0x3#4 with master.cursor := 1#32, slave.cursor := 1#32 }

/-- M.ACQUIRE beside a slave that is not RUNNING, and M.CLK_HI of the last byte beside a RUNNING one at its last byte. -/
theorem witness_MessageCompletes :
    ((atM 0x1#4).master.state = .running ∧ (atM 0x1#4).master.phase = 0x1#4 ∧
      (∀ i, i < (atM 0x1#4).master.msgLen.toNat → (atM 0x1#4).master.msg.read i ≠ none) ∧
      (atM 0x1#4).slave.phase.toNat ≤ 0x8 ∧ (∀ x, (atM 0x1#4).cfg.latMax = some x → (atM 0x1#4).cfg.latMin ≤ x) ∧
      (atM 0x1#4).slave.state ≠ .running) ∧
    (lastByte.master.state = .running ∧ lastByte.master.phase = 0x5#4 ∧ lastByte.master.phase.toNat ≤ 0xC ∧
      lastByte.master.cursor.toNat < lastByte.master.msgLen.toNat ∧
      (∀ i, i < lastByte.master.msgLen.toNat → lastByte.master.msg.read i ≠ none) ∧
      lastByte.slave.phase.toNat ≤ 0x8 ∧ (∀ x, lastByte.cfg.latMax = some x → lastByte.cfg.latMin ≤ x) ∧
      lastByte.slave.state = .running ∧ lastByte.slave.replyLen ≠ 0#32 ∧
      (∀ i, i < lastByte.slave.replyLen.toNat → lastByte.slave.reply.read i ≠ none) ∧
      lastByte.slave.cursor.toNat < lastByte.slave.replyLen.toNat) := by
  refine ⟨⟨rfl, rfl, by decide, by decide, ?_, by decide⟩, rfl, rfl, by decide, by decide, by decide, by decide, ?_, rfl,
    by decide, by decide, by decide⟩ <;>
  · intro x hx
    cases hx
    decide

/-- The same master beside an IDLE slave and beside a RUNNING one, over one tick each. -/
theorem witness_MasterIndependentOfSlave :
    ∃ s₁ s₂ t₁ t₂ : State, s₁.cfg.Quiet ∧ s₂.cfg.Quiet ∧ s₁.master.state = .running ∧ s₁.masterView = s₂.masterView ∧
      s₁.now = s₂.now ∧ s₁.tp = s₂.tp ∧ s₁.master.msgLen = s₂.master.msgLen ∧ s₁.master.msg = s₂.master.msg ∧
      s₁.slave.state ≠ s₂.slave.state ∧ 1 ≤ s₁.script.length ∧ 1 ≤ s₂.script.length ∧
      (∀ c ∈ s₁.script.take 1, c.noMasterControl) ∧ (∀ c ∈ s₂.script.take 1, c.noMasterControl) ∧
      Runs 1 s₁ t₁ ∧ Runs 1 s₂ t₂ ∧ t₁.now = t₂.now ∧ masterUrgent t₁ = false ∧ masterUrgent t₂ = false := by
  have hc : ∀ c ∈ [plainChoice .time].take 1, c.noMasterControl := by
    simp [Choice.noMasterControl, Choice.hostOp, plainChoice]
  exact ⟨turn .time { atM 0x4#4 with master.timer := 9 }, turn .time { both 0x4#4 0x3#4 with master.timer := 9 }, _, _,
    ⟨rfl, rfl, rfl, rfl⟩, ⟨rfl, rfl, rfl, rfl⟩, rfl, rfl, rfl, rfl, rfl, rfl, by decide, by decide, by decide, hc, hc,
    rfl, rfl, rfl, rfl, rfl⟩

/-- The state of P1 at its first M.CLK_HI. -/
def contractState : State := { both 0x5#4 0x3#4 with master.bit := 7#3 }

theorem witness_TimingContract :
    ContractStart contractState [0x48#8, 0x49#8] [0x4F#8, 0x4B#8] 0 ∧ 1 ≤ contractState.script.length ∧
    (∀ c ∈ contractState.script.take 1, c.noControl) ∧ ∃ t, Runs 1 contractState t := by
  refine ⟨?_, by decide, ?_, _, rfl⟩
  · constructor
    case p5 => exact ⟨100, by decide⟩
    case msg_bytes => unfold HoldsBytes; decide
    case reply_bytes => unfold HoldsBytes; decide
    all_goals decide
  · intro c hc
    obtain rfl : c = plainChoice .master := by simpa [contractState, both, atM, idle] using hc
    simp [Choice.noControl, Choice.hostOp, plainChoice]

end Sys2Proof.Tests.Slice0
end

/-! The scope of the model: the parameters of R9 and the operations on values of R18, R41 and R49. -/

namespace Sys2Proof

/-- LAT_MAX is LAT_MIN and a span above it, or ∞ (00_scope.md R9). -/
theorem params_latMin_le_latMax : ∀ x ∈ Config.params.latMax, Config.params.latMin ≤ x := by
  intro x hx
  obtain ⟨span, -, rfl⟩ := Option.mem_map.1 hx
  exact Nat.le_add_right Config.latMin span

theorem params_msgCap_bounds : 1 ≤ Config.params.msgCap ∧ Config.params.msgCap ≤ 1024 :=
  ⟨Nat.le_add_left 1 _, Config.msgCapPred.isLt⟩

theorem params_replyCap_bounds : 1 ≤ Config.params.replyCap ∧ Config.params.replyCap ≤ 1024 :=
  ⟨Nat.le_add_left 1 _, Config.replyCapPred.isLt⟩

theorem params_legal : Config.params.Legal :=
  ⟨params_latMin_le_latMax, params_msgCap_bounds, params_replyCap_bounds⟩

/-- The defaults of D8 and D10 to D12 are the quiet ones. -/
theorem params_quiet : Config.params.Quiet := ⟨rfl, rfl, rfl, rfl⟩

/-- Settles O41: the free capacities and the latency span are drawn so that the bounds hold by construction. -/
theorem parametersLegal : Obligations.ParametersLegal := ⟨params_legal, params_quiet⟩

namespace Machine

/-- Bit extract on numbers (00_scope.md R18). -/
theorem byteBit_toNat (v : Byte) (b : BitIndex) : (byteBit v b).toNat = v.toNat / 2 ^ b.toNat % 2 :=
  Nat.toNat_testBit v.toNat b.toNat

/-- A bit inserted where it already stands changes nothing (00_scope.md R18). -/
theorem setByteBit_byteBit_self (v : Byte) (b : BitIndex) : setByteBit v b (byteBit v b) = v := by
  refine Contract.byte_ext fun i => ?_
  rw [byteBit_setByteBit]
  split
  · next h => rw [h]
  · rfl

/-- The OR of a bit insert is a sum, since the place of the bit was cleared (00_scope.md R18). -/
theorem setByteBit_toNat (v : Byte) (b : BitIndex) (x : Bool) :
    (setByteBit v b x).toNat = (v &&& ~~~(1#8 <<< b.toNat)).toNat + x.toNat * 2 ^ b.toNat := by
  have hdisjoint : (v &&& ~~~(1#8 <<< b.toNat)) &&& ((BitVec.ofBool x).setWidth 8 <<< b.toNat) = 0#8 := by
    cases x
    · simp
    · simp [BitVec.and_assoc]
  have hbit : ((BitVec.ofBool x).setWidth 8 <<< b.toNat).toNat = x.toNat * 2 ^ b.toNat := by
    have hpow : 2 ^ b.toNat < 2 ^ 8 := Nat.pow_lt_pow_right (by decide) b.isLt
    cases x
    · simp
    · simpa [Nat.shiftLeft_eq] using hpow
  rw [setByteBit, ← BitVec.add_eq_or_of_and_eq_zero _ _ hdisjoint, BitVec.toNat_add_of_and_eq_zero hdisjoint, hbit]

/-- A bit insert exchanges the weight of the old bit for that of the new one (00_scope.md R18). -/
theorem setByteBit_toNat_exchange (v : Byte) (b : BitIndex) (x : Bool) :
    (setByteBit v b x).toNat + (byteBit v b).toNat * 2 ^ b.toNat = v.toNat + x.toNat * 2 ^ b.toNat := by
  have hnew := setByteBit_toNat v b x
  have hold := setByteBit_toNat v b (byteBit v b)
  rw [setByteBit_byteBit_self] at hold
  omega

/-- Settles O56: one rule for each operation. -/
theorem valueOperations : Obligations.ValueOperations :=
  ⟨byteBit_toNat, setByteBit_toNat_exchange,
    fun tp => ⟨quarter_toNat tp, half_toNat tp, edgeTimeout_toNat tp⟩, fun _ _ => cursorNext_toNat⟩

end Machine

end Sys2Proof

/-! Every step keeps the legal states (10_state.md R33 to R47, R59; 60_exceptions.md R231, R232): each engine's rules by its own moves, then by the host, the edge detector and time. -/

namespace Sys2Proof

namespace Machine

theorem word_pos_of_ne_zero {w : Word} (h : w ≠ 0#32) : 0 < w.toNat :=
  Nat.pos_of_ne_zero fun h0 => h (BitVec.eq_of_toNat_eq h0)

/-- Without jitter a loaded counter is a 32-bit register's value (00_scope.md R18). -/
theorem wait_load_fits (s : State) (x : Word) (h : s.cfg.jitterMax = 0) : x.toNat + jitter s < 2 ^ 32 := by
  have hj := jitter_le s
  have hx := x.isLt
  omega

/-! ## The master's registers -/

section
variable {cfg : Params} {m : Master}

/-- Outside FAULT there is no cause and no line (60_exceptions.md R231). -/
theorem Master.Legal.clean (h : Master.Legal cfg m) (hs : m.state ≠ .fault) : m.cause = .none ∧ m.fline = none :=
  ⟨not_ne_iff.1 (mt h.cause_fault.1 hs), not_ne_iff.1 (mt h.fline_fault.1 hs)⟩

/-- A running master goes to a phase past M.ACQUIRE with its cursor below the length. -/
theorem Master.Legal.enter (h : Master.Legal cfg m) (hr : m.state = .running) {p : PhaseCode} {b : BitIndex} {c : Word}
    {tx rx : Byte} {n : Nat} {rs : List Report} (hp : 0x2 ≤ p.toNat ∧ p.toNat ≤ 0xC)
    (hc : c.toNat < m.msgLen.toNat) (hn : cfg.jitterMax = 0 → n < 2 ^ 32) :
    Master.Legal cfg { m with phase := p, bit := b, cursor := c, tx := tx, rx := rx, timer := n, reports := rs } :=
  { h with
    phase_code := hp.2
    phase_idle := ⟨fun (h0 : p = 0x0#4) => absurd hp.1 (by simp [h0]), by simp [hr]⟩
    phase_fault := by simp [hr]
    cause_setup := by simp [hr]
    cursor_len := fun _ _ => hc
    timer_width := hn }

/-- A master without a fault comes to rest in IDLE or DONE (10_state.md R33). -/
theorem Master.Legal.rest (h : Master.Legal cfg m) {st : MState} {c : Word} {n : Nat} {k : Cause} {f : Option Line}
    {rs : List Report} (hst : st = .idle ∨ st = .done) (hk : k = .none ∧ f = none)
    (hn : cfg.jitterMax = 0 → n < 2 ^ 32) :
    Master.Legal cfg
      { m with state := st, phase := 0x0#4, cursor := c, timer := n, cause := k, fline := f, reports := rs } := by
  obtain ⟨rfl, rfl⟩ := hk
  rcases hst with rfl | rfl <;>
    exact
      { h with
        phase_code := by simp
        phase_idle := by simp
        phase_fault := by simp
        cause_fault := by simp
        cause_setup := by simp
        fline_fault := by simp
        cursor_len := by simp
        timer_width := hn }

/-- Fault entry at a phase that can raise the cause (60_exceptions.md R232). -/
theorem Master.Legal.raise (h : Master.Legal cfg m) {k : Cause} {l : Line}
    (hp : m.phase ∈ [0x1#4, 0x3#4, 0x5#4, 0x7#4, 0xA#4]) (hk : k ≠ .none)
    (hsetup : k = .setupError ↔ m.phase = 0x1#4) :
    Master.Legal cfg { m with state := .fault, cause := k, fline := some l } :=
  { h with
    phase_idle := ⟨fun (h0 : m.phase = 0x0#4) => absurd hp (by simp [h0]), by simp⟩
    phase_fault := fun _ => hp
    cause_fault := by simp [hk]
    cause_setup := fun _ => hsetup
    fline_fault := by simp
    cursor_len := by simp }

theorem Master.Legal.start (h : Master.Legal cfg m) :
    Master.Legal cfg { m with state := .running, cause := .none, fline := none, phase := 0x1#4 } :=
  { h with
    phase_code := by simp
    phase_idle := by simp
    phase_fault := by simp
    cause_fault := by simp
    cause_setup := by simp
    fline_fault := by simp
    cursor_len := by simp }

end

variable {s u : State}

/-- Every move of a running master, by the phase it enters: all but the two ends of a session are past M.ACQUIRE. -/
theorem MasterMove.legal (hm : MasterMove s u) (hr : s.master.state = .running) (h : Master.Legal s.cfg s.master) :
    Master.Legal u.cfg u.master := by
  have ht := h.timer_width
  have hclean := h.clean (by simp [hr])
  have hc : ∀ {p : PhaseCode}, s.master.phase = p → p ≠ 0x1#4 → s.master.cursor.toNat < s.master.msgLen.toNat :=
    fun hp h1 => h.cursor_len hr (hp ▸ h1)
  cases hm with
  | acquireEmpty hp hn => exact h.rest (.inr rfl) hclean ht
  | acquire hp hn => exact h.enter hr (by decide) (word_pos_of_ne_zero hn) ht
  | load hp b hb => exact h.enter hr (by decide) (hc hp (by decide)) ht
  | driveMo hp => exact h.enter hr (by decide) (hc hp (by decide)) (wait_load_fits s _)
  | waitSetup hp h0 => exact h.enter hr (by decide) (hc hp (by decide)) ht
  | clkHi hp hclk => exact h.enter hr (by decide) (hc hp (by decide)) (wait_load_fits s _)
  | clkHiLost hp hclk hv he => exact h.enter hr (by decide) (hc hp (by decide)) (wait_load_fits s _)
  | clkHiEdge hp hclk hv he => exact h.enter hr (by decide) (hc hp (by decide)) (wait_load_fits s _)
  | waitHigh hp h0 => exact h.enter hr (by decide) (hc hp (by decide)) ht
  | clkLo hp => exact h.enter hr (by decide) (hc hp (by decide)) (wait_load_fits s _)
  | waitLow hp h0 => exact h.enter hr (by decide) (hc hp (by decide)) (wait_load_fits s _)
  | waitSettle hp h0 => exact h.enter hr (by decide) (hc hp (by decide)) ht
  | sample hp => exact h.enter hr (by decide) (hc hp (by decide)) ht
  | lastBit hp hb => exact h.enter hr (by decide) (hc hp (by decide)) ht
  | nextBit hp hb => exact h.enter hr (by decide) (hc hp (by decide)) ht
  | report hp hlt => exact h.enter hr (by decide) hlt ht
  | lastReport hp hge => exact h.rest (.inr rfl) hclean ht

theorem MasterAction.legal (ha : MasterAction s u) (h : Master.Legal s.cfg s.master) :
    Master.Legal u.cfg u.master := by
  cases ha with
  | nothing => exact h
  | setupError hr hp hf => exact h.raise (by simp [hp]) (by simp) (by simp [hp])
  | ioError hr l hl hf =>
    have hp : s.master.phase ∈ [0x3#4, 0x5#4, 0x7#4, 0xA#4] := by
      rcases hl with ⟨hp, -⟩ | ⟨hp, -⟩ | ⟨hp, -⟩ | ⟨hp, -⟩ <;> simp [hp]
    exact h.raise (List.mem_cons_of_mem _ hp) (by simp) ⟨by simp, fun h1 => absurd hp (by simp [h1])⟩
  | move hr hm => exact hm.legal hr h

/-- What the host may do to the master: START and STOP at any time, the length and the buffer while it does not run. -/
theorem HostAction.master_legal {i : Instr} (ha : HostAction s i u) (h : Master.Legal s.cfg s.master) :
    Master.Legal u.cfg u.master := by
  cases ha with
  | stopMaster => exact h.rest (.inl rfl) ⟨rfl, rfl⟩ fun _ => by decide
  | startMaster hs => exact h.start
  | msgLen n hs hn => exact { h with len_cap := hn, cursor_len := fun hr => absurd hr hs }
  | msg i v hs hi =>
    exact { h with msg_form := ⟨memory_wf_write _ v h.msg_form.1, memory_below_write v h.msg_form.2 hi⟩ }
  | _ => exact h

/-! ## The slave's registers -/

section
variable {cfg : Params} {now : Nat} {v : Slave}

/-- A running slave goes to a phase past S.ACQUIRE with its cursor below the length and the bit index of that phase. -/
theorem Slave.Legal.enter (h : Slave.Legal cfg now v) (hr : v.state = .running) {p : PhaseCode} {b : BitIndex}
    {c timer totimer : Word} {tx rx : Byte} {e : Bool} {rs : List Report} (hp : 0x2 ≤ p.toNat ∧ p.toNat ≤ 0x8)
    (hc : c.toNat < v.replyLen.toNat) (hdrive : p = 0x6#4 → b ≠ 0#3 := by simp)
    (hcomplete : p = 0x8#4 → b = 0#3 := by simp) :
    Slave.Legal cfg now
      { v with phase := p, bit := b, cursor := c, tx := tx, rx := rx, timer := timer, totimer := totimer,
               edgePend := e, reports := rs } :=
  { h with
    phase_code := hp.2
    phase_idle := ⟨fun (h0 : p = 0x0#4) => absurd hp.1 (by simp [h0]), by simp [hr]⟩
    phase_fault := by simp [hr]
    cause_setup := by simp [hr]
    cursor_len := fun _ _ => hc
    bit_drive := fun _ => hdrive
    bit_complete := fun _ => hcomplete
    latch_idle := by simp [hr] }

/-- Fault entry at a phase that can raise the cause (60_exceptions.md R232). -/
theorem Slave.Legal.raise (h : Slave.Legal cfg now v) {k : Cause} {l : Line}
    (hp : v.phase ∈ [0x1#4, 0x2#4, 0x3#4, 0x5#4, 0x6#4]) (hk : k ≠ .none)
    (hsetup : k = .setupError ↔ v.phase = 0x1#4) :
    Slave.Legal cfg now { v with state := .fault, cause := k, fline := some l } :=
  { h with
    phase_idle := ⟨fun (h0 : v.phase = 0x0#4) => absurd hp (by simp [h0]), by simp⟩
    phase_fault := fun _ => hp
    cause_fault := by simp [hk]
    cause_setup := fun _ => hsetup
    fline_fault := by simp
    len_running := by simp
    cursor_len := by simp
    bit_drive := by simp
    bit_complete := by simp
    latch_idle := by simp }

theorem Slave.Legal.start (h : Slave.Legal cfg now v) (hl : v.replyLen ≠ 0#32) :
    Slave.Legal cfg now { v with state := .running, cause := .none, fline := none, phase := 0x1#4 } :=
  { h with
    phase_code := by simp
    phase_idle := by simp
    phase_fault := by simp
    cause_fault := by simp
    cause_setup := by simp
    fline_fault := by simp
    len_running := fun _ => hl
    cursor_len := by simp
    bit_drive := by simp
    bit_complete := by simp
    latch_idle := by simp }

theorem Slave.Legal.stop (h : Slave.Legal cfg now v) :
    Slave.Legal cfg now
      { v with state := .idle, phase := 0x0#4, cause := .none, fline := none, timer := 0#32, totimer := 0#32,
               edgePend := false } :=
  { h with
    phase_code := by simp
    phase_idle := by simp
    phase_fault := by simp
    cause_fault := by simp
    cause_setup := by simp
    fline_fault := by simp
    len_running := by simp
    cursor_len := by simp
    bit_drive := by simp
    bit_complete := by simp
    latch_idle := by simp }

end

/-- Every move of a running slave leads past S.ACQUIRE: the cursor is set, kept or taken modulo the length. -/
theorem SlaveMove.legal (hm : SlaveMove s u) (hr : s.slave.state = .running)
    (h : Slave.Legal s.cfg s.now s.slave) : Slave.Legal u.cfg u.now u.slave := by
  have hlen := h.len_running hr
  have hc : ∀ {p : PhaseCode}, s.slave.phase = p → p ≠ 0x1#4 → s.slave.cursor.toNat < s.slave.replyLen.toNat :=
    fun hp h1 => h.cursor_len hr (hp ▸ h1)
  cases hm with
  | acquire hp => exact h.enter hr (by decide) (word_pos_of_ne_zero hlen)
  | initial hp b hb => exact h.enter hr (by decide) (hc hp (by decide))
  | edge hp he => exact h.enter hr (by decide) (hc hp (by decide))
  | timeout hp h0 => exact h.enter hr (by decide) (hc hp (by decide))
  | retry hp => exact h.enter hr (by decide) (hc hp (by decide))
  | lastSample hp hb => exact h.enter hr (by decide) (hc hp (by decide)) (hcomplete := fun _ => hb)
  | sample hp hb => exact h.enter hr (by decide) (hc hp (by decide)) (fun _ => hb)
  | driveNext hp b hb => exact h.enter hr (by decide) (hc hp (by decide))
  | stabilize hp h0 => exact h.enter hr (by decide) (hc hp (by decide))
  | byteComplete hp =>
    refine h.enter hr (by decide) ?_
    rw [cursorNext_toNat hlen]
    exact Nat.mod_lt _ (word_pos_of_ne_zero hlen)

theorem SlaveAction.legal (ha : SlaveAction s u) (h : Slave.Legal s.cfg s.now s.slave) :
    Slave.Legal u.cfg u.now u.slave := by
  cases ha with
  | nothing => exact h
  | setupError hr hp hf => exact h.raise (by simp [hp]) (by simp) (by simp [hp])
  | ioError hr l hl hf =>
    have hp : s.slave.phase ∈ [0x2#4, 0x3#4, 0x5#4, 0x6#4] := by
      rcases hl with ⟨hp, -⟩ | ⟨hp, -⟩ | ⟨hp, -⟩ | ⟨hp, -⟩ <;> simp [hp]
    exact h.raise (List.mem_cons_of_mem _ hp) (by simp) ⟨by simp, fun h1 => absurd hp (by simp [h1])⟩
  | move hr hm => exact hm.legal hr h

/-- What the host may do to the slave: START and STOP at any time, the length and the buffer while it does not run. -/
theorem HostAction.slave_legal {i : Instr} (ha : HostAction s i u) (h : Slave.Legal s.cfg s.now s.slave) :
    Slave.Legal u.cfg u.now u.slave := by
  cases ha with
  | stopSlave => exact h.stop
  | startSlave hs hl => exact h.start hl
  | replyLen n hs hn =>
    exact { h with len_cap := hn, len_running := fun hr => absurd hr hs, cursor_len := fun hr => absurd hr hs }
  | reply i v hs hi =>
    exact { h with reply_form := ⟨memory_wf_write _ v h.reply_form.1, memory_below_write v h.reply_form.2 hi⟩ }
  | _ => exact h

/-! ## The edge detector, the reports and the history -/

/-- What a rise of CLK may do beyond the lines and the master: set the slave's latch, or record a lost edge (41_slave.md R160, R161). -/
structure EdgeHeard (s u : State) : Prop where
  now : u.now = s.now
  slave : u.slave = s.slave ∨
    s.slave.state = .running ∧ u.slave = { s.slave with edgePend := true, edgeT := s.now }
  history : u.history = s.history ∨ u.history = s.history ++ [.edgeLost s.now]

theorem MasterAction.edgeHeard (ha : MasterAction s u) : EdgeHeard s u := by
  cases ha with
  | move hr hm =>
    cases hm with
    | clkHiLost hp hclk hv he => exact ⟨rfl, .inl rfl, .inr rfl⟩
    | clkHiEdge hp hclk hv he => exact ⟨rfl, .inr ⟨hv, rfl⟩, .inl rfl⟩
    | _ => exact ⟨rfl, .inl rfl, .inl rfl⟩
  | _ => exact ⟨rfl, .inl rfl, .inl rfl⟩

theorem driveLine_edgeHeard (l : Line) (v : Bool) (s : State) : EdgeHeard s (driveLine l v s) := by
  generalize hd : driveLine l v s = d
  cases hd ▸ driveLine_action s l v with
  | plain h => exact ⟨rfl, .inl rfl, .inl rfl⟩
  | unheard hl hc hv hr => exact ⟨rfl, .inl rfl, .inl rfl⟩
  | lost hl hc hv hr he => exact ⟨rfl, .inl rfl, .inr rfl⟩
  | edge hl hc hv hr he => exact ⟨rfl, .inr ⟨hr, rfl⟩, .inl rfl⟩

/-- Only a running slave latches an edge, and it latches it now. -/
theorem EdgeHeard.slave_legal (he : EdgeHeard s u) (hcfg : u.cfg = s.cfg) (h : Slave.Legal s.cfg s.now s.slave) :
    Slave.Legal u.cfg u.now u.slave := by
  rw [hcfg, he.now]
  rcases he.slave with hv | ⟨hr, hv⟩
  · exact hv ▸ h
  · rw [hv]
    exact { h with latch_idle := by simp [hr], latch_past := le_refl _ }

/-- A list that stays or takes one more element keeps a property of its elements. -/
theorem forall_mem_same_or_snoc {α : Type} {p : α → Prop} {xs ys : List α} {x : α}
    (he : ys = xs ∨ ys = xs ++ [x]) (h : ∀ y ∈ xs, p y) (hx : p x) : ∀ y ∈ ys, p y := by
  rcases he with rfl | rfl
  · exact h
  · exact List.forall_mem_append.2 ⟨h, List.forall_mem_singleton.2 hx⟩

theorem EdgeHeard.history_past (he : EdgeHeard s u) (h : ∀ e ∈ s.history, ∃ t, e = .edgeLost t ∧ t ≤ s.now) :
    ∀ e ∈ u.history, ∃ t, e = .edgeLost t ∧ t ≤ u.now := by
  rw [he.now]
  exact forall_mem_same_or_snoc he.history h ⟨s.now, rfl, le_refl _⟩

/-- The master adds at most one report, of this tick (10_state.md R52). -/
theorem MasterAction.reports (ha : MasterAction s u) : u.master.reports = s.master.reports ∨
    u.master.reports = s.master.reports ++ [⟨s.master.cursor, s.master.tx, s.master.rx, s.now⟩] := by
  cases ha with
  | move hr hm =>
    cases hm with
    | report hp hlt => exact .inr rfl
    | lastReport hp hge => exact .inr rfl
    | _ => exact .inl rfl
  | _ => exact .inl rfl

/-- The slave adds at most one report, of this tick (10_state.md R52). -/
theorem SlaveAction.reports (ha : SlaveAction s u) : u.slave.reports = s.slave.reports ∨
    u.slave.reports = s.slave.reports ++ [⟨s.slave.cursor, s.slave.tx, s.slave.rx, s.now⟩] := by
  cases ha with
  | move hr hm =>
    cases hm with
    | byteComplete hp => exact .inr rfl
    | _ => exact .inl rfl
  | _ => exact .inl rfl

/-- A slave's action leaves the master, the tick and the history alone. -/
theorem SlaveAction.frame (ha : SlaveAction s u) : u.master = s.master ∧ u.now = s.now ∧ u.history = s.history := by
  cases ha with
  | move hr hm => cases hm <;> exact ⟨rfl, rfl, rfl⟩
  | _ => exact ⟨rfl, rfl, rfl⟩

/-- The host touches no report, no history and no tick (42_host_interface.md R190, R208). -/
theorem HostAction.frame {i : Instr} (ha : HostAction s i u) : u.now = s.now ∧ u.history = s.history ∧
    u.master.reports = s.master.reports ∧ u.slave.reports = s.slave.reports := by
  cases ha <;> exact ⟨rfl, rfl, rfl, rfl⟩

/-! ## Whole states -/

theorem legal_masterAction (h : s.Legal) (ha : MasterAction s u) (hcfg : u.cfg = s.cfg) : u.Legal := by
  have he := ha.edgeHeard
  refine ⟨ha.legal h.master, he.slave_legal hcfg h.slave, ?_, ?_, he.history_past h.history⟩
  · rw [he.now]
    exact forall_mem_same_or_snoc ha.reports h.master_reports (le_refl _)
  · rw [he.now]
    rcases he.slave with hv | ⟨-, hv⟩ <;> exact hv ▸ h.slave_reports

theorem legal_slaveAction (h : s.Legal) (ha : SlaveAction s u) (hcfg : u.cfg = s.cfg) : u.Legal := by
  obtain ⟨hm, hn, hh⟩ := ha.frame
  refine ⟨hcfg ▸ hm ▸ h.master, ha.legal h.slave, hm ▸ hn ▸ h.master_reports, ?_, hh ▸ hn ▸ h.history⟩
  rw [hn]
  exact forall_mem_same_or_snoc ha.reports h.slave_reports (le_refl _)

theorem legal_hostAction (h : s.Legal) {i : Instr} (ha : HostAction s i u) : u.Legal := by
  obtain ⟨hn, hh, hm, hv⟩ := ha.frame
  exact ⟨ha.master_legal h.master, ha.slave_legal h.slave, hm ▸ hn ▸ h.master_reports, hv ▸ hn ▸ h.slave_reports,
    hh ▸ hn ▸ h.history⟩

/-- Time only moves on: the counters fall and what lies in the past stays there. -/
theorem legal_tick (h : s.Legal) : (tick s).Legal where
  master :=
    { h.master with
      timer_width := fun h0 => by
        have ht := h.master.timer_width h0
        simp only [tick]
        split <;> omega }
  slave := { h.slave with latch_past := h.slave.latch_past.trans (Nat.le_succ _) }
  master_reports r hr := (h.master_reports r hr).trans (Nat.le_succ _)
  slave_reports r hr := (h.slave_reports r hr).trans (Nat.le_succ _)
  history e he := (h.history e he).imp fun _ ⟨h1, h2⟩ => ⟨h1, h2.trans (Nat.le_succ _)⟩

theorem legal_driveLine (h : s.Legal) (l : Line) (v : Bool) : (driveLine l v s).Legal := by
  have he := driveLine_edgeHeard l v s
  refine ⟨?_, he.slave_legal (driveLine_cfg l v s) h.slave, ?_, ?_, he.history_past h.history⟩
  · simpa using h.master
  · simpa using h.master_reports
  · simpa using h.slave_reports

theorem legal_stepAction (h : s.Legal) (ha : StepAction s u) : u.Legal := by
  have hcfg := (stepAction_keeps ha).1
  cases ha with
  | master ht ha => exact legal_masterAction h ha hcfg
  | slave ht ha => exact legal_slaveAction h ha hcfg
  | host w ht ha => exact legal_hostAction h ha
  | time ht hm hv => exact legal_tick h
  | early ht hu => exact h
  | glitch l v ht hg => exact legal_driveLine h l v
  | noGlitch l v ht hg => exact h

/-- Settles O43: whoever acts, the action keeps the legal states, and using up the choice touches no register. -/
theorem stepKeepsLegal : Obligations.StepKeepsLegal := by
  intro s t h hs
  obtain ⟨-, -, u, rfl, ha⟩ := step_action hs
  exact { legal_stepAction h ha with }

end Machine

end Sys2Proof

/-! What an engine's micro-operation leaves alone (10_state.md R30, R31, R53; 30_encoding.md R106), in any state: a micro-operation of its own also runs where the phase is another one, so its move is that of the state put at its code. -/

namespace Sys2Proof

namespace Machine

/-! ## The master -/

/-- What a master micro-operation does to a state at any phase: nothing, fault entry, or the move of its own code. -/
inductive MasterExec (i : Instr) (s : State) : State → Prop
  | nothing : MasterExec i s s
  | raised (k : Cause) (l : Line) : MasterExec i s (raise .master k l s)
  | moved (hr : s.master.state = .running) {p : PhaseCode} (hd : decodeMaster p = .ok i) {u : State}
    (hm : MasterMove { s with master.phase := p } u) : MasterExec i s u

section
variable {i : Instr} {s t u : State}

/-- Only a running master acts. -/
theorem MasterExec.while_master (h : s.master.state = .running → MasterExec i s t) :
    MasterExec i s (whileMaster s t) := by
  by_cases hr : s.master.state = .running
  · rw [whileMaster_running hr]
    exact h hr
  · rw [whileMaster_stopped hr]
    exact .nothing

theorem MasterExec.unless_ioError (l : Line) (h : MasterExec i s t) : MasterExec i s (unlessIoError .master l s t) := by
  rcases unlessIoError_cases .master l s t with ⟨-, e⟩ | ⟨-, e⟩
  · rw [e]
    exact .raised _ _
  · rw [e]
    exact h

theorem MasterExec.unless_setupError (h : MasterExec i s t) : MasterExec i s (unlessSetupError .master s t) := by
  rcases unlessSetupError_cases .master s t with ⟨-, e⟩ | ⟨-, e⟩
  · rw [e]
    exact .raised _ _
  · rw [e]
    exact h

/-- A wait moves at a counter of 0 and does nothing before (40_master.md R134). -/
theorem MasterExec.wait_then {p q : PhaseCode} (hd : decodeMaster q = .ok i)
    (h : s.master.timer = 0 → MasterMove { s with master.phase := q } (enterMaster p s)) :
    MasterExec i s (masterWaitThen p s) :=
  .while_master fun hr => iteInduction (motive := MasterExec i s) (fun h0 => .moved hr hd (h h0)) fun _ => .nothing

/-- The phase a state is in decides nothing about a drive followed by the entry to another phase. -/
theorem enterMaster_driveLine_phase (p q : PhaseCode) (l : Line) (v : Bool) (s : State) :
    enterMaster p (driveLine l v { s with master.phase := q }) = enterMaster p (driveLine l v s) := by
  simp only [driveLine, edgeDetect]
  repeat' split
  all_goals rfl

theorem masterExec_mLoad (h : exec .mLoad s = .next u) : MasterExec .mLoad s u := by
  simp only [exec, execMLoad] at h
  split at h
  · next hr =>
    split at h
    · cases h
    · next b hb =>
      cases h
      exact .moved hr (p := 0x2#4) rfl (.load rfl b hb)
  · cases h
    exact .nothing

/-- Every master micro-operation, in any state (40_master.md R131 to R143). -/
theorem master_exec (hi : i.isMasterOp = true) (h : exec i s = .next u) : MasterExec i s u := by
  cases i <;> simp only [Instr.isMasterOp, Bool.false_eq_true] at hi
  case mIdle =>
    cases h
    exact .nothing
  case mAcquire =>
    cases h
    refine .while_master fun hr => .unless_setupError ?_
    split
    · next hn => exact .moved hr (p := 0x1#4) rfl (.acquireEmpty rfl hn)
    · next hn => exact .moved hr (p := 0x1#4) rfl (.acquire rfl hn)
  case mLoad => exact masterExec_mLoad h
  case mDriveMo =>
    cases h
    rw [driveLine_mo]
    exact .while_master fun hr => .unless_ioError _ (.moved hr (p := 0x3#4) rfl (.driveMo rfl))
  case mWaitSetup =>
    cases h
    exact .wait_then (q := 0x4#4) rfl fun h0 => .waitSetup rfl h0
  case mClkHi =>
    cases h
    rw [← enterMaster_driveLine_phase _ 0x5#4]
    exact .while_master fun hr => .unless_ioError _ (.moved hr (p := 0x5#4) rfl (clkHi_move rfl))
  case mWaitHigh =>
    cases h
    exact .wait_then (q := 0x6#4) rfl fun h0 => .waitHigh rfl h0
  case mClkLo =>
    cases h
    rw [driveLine_clk_low]
    exact .while_master fun hr => .unless_ioError _ (.moved hr (p := 0x7#4) rfl (.clkLo rfl))
  case mWaitLow =>
    cases h
    exact .wait_then (q := 0x8#4) rfl fun h0 => .waitLow rfl h0
  case mWaitSettle =>
    cases h
    exact .wait_then (q := 0x9#4) rfl fun h0 => .waitSettle rfl h0
  case mSample =>
    cases h
    exact .while_master fun hr => .unless_ioError _ (.moved hr (p := 0xA#4) rfl (.sample rfl))
  case mNextBit =>
    cases h
    refine .while_master fun hr => ?_
    split
    · next hb => exact .moved hr (p := 0xB#4) rfl (.lastBit rfl hb)
    · next hb => exact .moved hr (p := 0xB#4) rfl (.nextBit rfl hb)
  case mReport =>
    cases h
    refine .while_master fun hr => ?_
    split
    · next hc => exact .moved hr (p := 0xC#4) rfl (.report rfl hc)
    · next hc => exact .moved hr (p := 0xC#4) rfl (.lastReport rfl hc)

end

/-- Settles O46: nothing and fault entry keep what the statement asks, and a move is a record update that names the registers of its own operation only. -/
theorem masterFrame : Obligations.MasterFrame := by
  intro i s t hi h
  cases master_exec hi h with
  | nothing => simp
  | raised k l => simp
  | @moved hr p hd _ hm =>
    cases hm <;> (cases ‹p = _›; cases hd; simp [hr])

/-! ## The slave -/

/-- What a slave micro-operation does to a state at any phase: nothing, fault entry, or the move of its own code. -/
inductive SlaveExec (i : Instr) (s : State) : State → Prop
  | nothing : SlaveExec i s s
  | raised (k : Cause) (l : Line) : SlaveExec i s (raise .slave k l s)
  | moved (hr : s.slave.state = .running) {p : PhaseCode} (hd : decodeSlave p = .ok i) {u : State}
    (hm : SlaveMove { s with slave.phase := p } u) : SlaveExec i s u

section
variable {i : Instr} {s t u : State}

/-- Only a running slave acts. -/
theorem SlaveExec.while_slave (h : s.slave.state = .running → SlaveExec i s t) : SlaveExec i s (whileSlave s t) := by
  by_cases hr : s.slave.state = .running
  · rw [whileSlave_running hr]
    exact h hr
  · rw [whileSlave_stopped hr]
    exact .nothing

theorem SlaveExec.unless_ioError (l : Line) (h : SlaveExec i s t) : SlaveExec i s (unlessIoError .slave l s t) := by
  rcases unlessIoError_cases .slave l s t with ⟨-, e⟩ | ⟨-, e⟩
  · rw [e]
    exact .raised _ _
  · rw [e]
    exact h

theorem SlaveExec.unless_setupError (h : SlaveExec i s t) : SlaveExec i s (unlessSetupError .slave s t) := by
  rcases unlessSetupError_cases .slave s t with ⟨-, e⟩ | ⟨-, e⟩
  · rw [e]
    exact .raised _ _
  · rw [e]
    exact h

theorem slaveExec_sInitial (h : exec .sInitial s = .next u) : SlaveExec .sInitial s u := by
  simp only [exec, execSInitial, driveLine_so] at h
  split at h
  · next hr =>
    split at h
    · cases h
    · next b hb =>
      cases h
      exact .unless_ioError _ (.moved hr (p := 0x2#4) rfl (.initial rfl b hb))
  · cases h
    exact .nothing

theorem slaveExec_edgeCompletion (hr : s.slave.state = .running) : SlaveExec .sAwaitEdge s (edgeCompletion s) := by
  unfold edgeCompletion
  split
  · next he => exact .unless_ioError _ (.moved hr (p := 0x3#4) rfl (.edge rfl he))
  · exact .nothing

theorem slaveExec_timeoutCompletion (hr : s.slave.state = .running) :
    SlaveExec .sAwaitEdge s (timeoutCompletion s) := by
  unfold timeoutCompletion
  split
  · next h0 => exact .unless_ioError _ (.moved hr (p := 0x3#4) rfl (.timeout rfl h0))
  · exact .nothing

/-- Every slave micro-operation, in any state (41_slave.md R163 to R171). -/
theorem slave_exec (hi : i.isSlaveOp = true) (h : exec i s = .next u) : SlaveExec i s u := by
  cases i <;> simp only [Instr.isSlaveOp, Bool.false_eq_true] at hi
  case sIdle =>
    cases h
    exact .nothing
  case sAcquire =>
    cases h
    exact .while_slave fun hr => .unless_setupError (.moved hr (p := 0x1#4) rfl (.acquire rfl))
  case sInitial => exact slaveExec_sInitial h
  case sAwaitEdge =>
    cases h
    refine .while_slave fun hr => ?_
    split
    · exact slaveExec_edgeCompletion hr
    · exact slaveExec_timeoutCompletion hr
  case sRetry =>
    cases h
    exact .while_slave fun hr => .moved hr (p := 0x4#4) rfl (.retry rfl)
  case sSample =>
    cases h
    refine .while_slave fun hr => .unless_ioError _ ?_
    split
    · next hb => exact .moved hr (p := 0x5#4) rfl (.lastSample rfl hb)
    · next hb => exact .moved hr (p := 0x5#4) rfl (.sample rfl hb)
  case sDriveNext =>
    cases h
    rw [driveLine_so]
    exact .while_slave fun hr => .unless_ioError _ (.moved hr (p := 0x6#4) rfl (.driveNext rfl _ rfl))
  case sStabilize =>
    cases h
    refine .while_slave fun hr => ?_
    split
    · next h0 => exact .moved hr (p := 0x7#4) rfl (.stabilize rfl h0)
    · exact .nothing
  case sByteComplete =>
    cases h
    exact .while_slave fun hr => .moved hr (p := 0x8#4) rfl (.byteComplete rfl)

end

/-- Settles O47: nothing and fault entry keep what the statement asks, and a move is a record update that names the registers of its own operation only. -/
theorem slaveFrame : Obligations.SlaveFrame := by
  intro i s t hi h
  cases slave_exec hi h with
  | nothing => simp
  | raised k l => simp
  | @moved hr p hd _ hm =>
    cases hm <;> (cases ‹p = _›; cases hd; simp [hr])

end Machine

end Sys2Proof

/-! The transitions of both engines' STATE and PHASE (10_state.md R32, R42, R56; 40_master.md R130; 60_exceptions.md R236), by whose action it is, and the step as the instruction that its word decodes to (10_state.md R40). -/

namespace Sys2Proof

namespace Machine

section
variable {s u : State}

/-! ## The master's STATE and PHASE -/

/-- By its own action the master goes on, ends its session or faults (10_state.md R32). -/
theorem MasterAction.state_cases (ha : MasterAction s u) : u.master.state = s.master.state ∨
    (u.master.state = .done ∧ s.master.state = .running ∧
      (s.master.phase = 0x1#4 ∧ s.master.msgLen = 0#32 ∨
        s.master.phase = 0xC#4 ∧ ¬ (s.master.cursor + 1#32 < s.master.msgLen))) ∨
    (u.master.state = .fault ∧ s.master.state = .running) := by
  cases ha with
  | nothing => exact .inl rfl
  | setupError hr hp hf => exact .inr (.inr ⟨rfl, hr⟩)
  | ioError hr l hl hf => exact .inr (.inr ⟨rfl, hr⟩)
  | move hr hm =>
    cases hm with
    | acquireEmpty hp hn => exact .inr (.inl ⟨rfl, hr, .inl ⟨hp, hn⟩⟩)
    | lastReport hp hc => exact .inr (.inl ⟨rfl, hr, .inr ⟨hp, hc⟩⟩)
    | _ => exact .inl rfl

/-- A move enters a phase that the current one names (40_master.md R130). -/
theorem MasterMove.phase_mem (hm : MasterMove s u) : u.master.phase ∈ masterSuccessors s.master.phase := by
  cases hm <;> (rw [‹s.master.phase = _›]; simp [masterSuccessors])

theorem MasterAction.phase_cases (ha : MasterAction s u) : u.master.phase = s.master.phase ∨
    (s.master.state = .running ∧ u.master.phase ∈ masterSuccessors s.master.phase) := by
  cases ha with
  | move hr hm => exact .inr ⟨hr, hm.phase_mem⟩
  | _ => exact .inl rfl

/-- Of the host's operations only START and STOP move the master (42_host_interface.md R194, R195). -/
theorem HostAction.master_control {i : Instr} (ha : HostAction s i u) :
    (u.master.state = s.master.state ∧ u.master.phase = s.master.phase) ∨
    (i = .hWrMStart ∧ (s.master.state = .idle ∨ s.master.state = .done) ∧ u.master.state = .running ∧
      u.master.phase = 0x1#4) ∨
    (i = .hWrMStop ∧ u.master.state = .idle ∧ u.master.phase = 0x0#4) := by
  cases ha with
  | startMaster h => exact .inr (.inl ⟨rfl, h, rfl, rfl⟩)
  | stopMaster => exact .inr (.inr ⟨rfl, rfl, rfl⟩)
  | _ => exact .inl ⟨rfl, rfl⟩

/-- Only the master itself and the host move the master. -/
theorem StepAction.master_mover (ha : StepAction s u) : (s.choice.turn = .master ∧ MasterAction s u) ∨
    (∃ i, s.choice.hostOp = some i ∧ HostAction s i u) ∨
    (u.master.state = s.master.state ∧ u.master.phase = s.master.phase) := by
  cases ha with
  | master ht hm => exact .inl ⟨ht, hm⟩
  | host w ht hh => exact .inr (.inl ⟨_, by simp [Choice.hostOp, ht], hh⟩)
  | slave ht hv =>
    refine .inr (.inr ?_)
    rw [hv.frame.1]
    exact ⟨rfl, rfl⟩
  | glitch l v ht hg => exact .inr (.inr (by simp))
  | _ => exact .inr (.inr ⟨rfl, rfl⟩)

/-! ## The slave's STATE and PHASE -/

/-- By its own action the slave goes on or faults, and never ends (41_slave.md R173). -/
theorem SlaveAction.state_cases (ha : SlaveAction s u) :
    u.slave.state = s.slave.state ∨ (u.slave.state = .fault ∧ s.slave.state = .running) := by
  cases ha with
  | nothing => exact .inl rfl
  | setupError hr hp hf => exact .inr ⟨rfl, hr⟩
  | ioError hr l hl hf => exact .inr ⟨rfl, hr⟩
  | move hr hm => cases hm <;> exact .inl rfl

/-- A move enters a phase that the current one names (41_slave.md R163 to R170). -/
theorem SlaveMove.phase_mem (hm : SlaveMove s u) : u.slave.phase ∈ slaveSuccessors s.slave.phase := by
  cases hm <;> (rw [‹s.slave.phase = _›]; simp [slaveSuccessors])

theorem SlaveAction.phase_cases (ha : SlaveAction s u) : u.slave.phase = s.slave.phase ∨
    (s.slave.state = .running ∧ u.slave.phase ∈ slaveSuccessors s.slave.phase) := by
  cases ha with
  | move hr hm => exact .inr ⟨hr, hm.phase_mem⟩
  | _ => exact .inl rfl

/-- Of the host's operations only START and STOP move the slave (42_host_interface.md R196, R197). -/
theorem HostAction.slave_control {i : Instr} (ha : HostAction s i u) :
    (u.slave.state = s.slave.state ∧ u.slave.phase = s.slave.phase) ∨
    (i = .hWrSStart ∧ s.slave.state = .idle ∧ s.slave.replyLen ≠ 0#32 ∧ u.slave.state = .running ∧
      u.slave.phase = 0x1#4) ∨
    (i = .hWrSStop ∧ u.slave.state = .idle ∧ u.slave.phase = 0x0#4) := by
  cases ha with
  | startSlave h hl => exact .inr (.inl ⟨rfl, h, hl, rfl, rfl⟩)
  | stopSlave => exact .inr (.inr ⟨rfl, rfl, rfl⟩)
  | _ => exact .inl ⟨rfl, rfl⟩

/-- Hearing an edge moves no engine. -/
theorem EdgeHeard.slave_control (he : EdgeHeard s u) :
    u.slave.state = s.slave.state ∧ u.slave.phase = s.slave.phase := by
  rcases he.slave with hv | ⟨-, hv⟩ <;> simp [hv]

/-- Only the slave itself and the host move the slave. -/
theorem StepAction.slave_mover (ha : StepAction s u) : (s.choice.turn = .slave ∧ SlaveAction s u) ∨
    (∃ i, s.choice.hostOp = some i ∧ HostAction s i u) ∨
    (u.slave.state = s.slave.state ∧ u.slave.phase = s.slave.phase) := by
  cases ha with
  | master ht hm => exact .inr (.inr hm.edgeHeard.slave_control)
  | slave ht hv => exact .inl ⟨ht, hv⟩
  | host w ht hh => exact .inr (.inl ⟨_, by simp [Choice.hostOp, ht], hh⟩)
  | glitch l v ht hg => exact .inr (.inr (driveLine_edgeHeard l v s).slave_control)
  | _ => exact .inr (.inr ⟨rfl, rfl⟩)

end

/-! ## The statements -/

/-- Settles O51: for each engine, by its own action, by the host's START and STOP, and by nothing else. -/
theorem stateTransitions : Obligations.StateTransitions := by
  intro s t hs
  obtain ⟨-, -, u, rfl, ha⟩ := step_action hs
  constructor
  · rcases ha.master_mover with ⟨ht, hm⟩ | ⟨i, hi, hh⟩ | ⟨h, -⟩
    · rcases hm.state_cases with h | ⟨h, hr, hend⟩ | ⟨h, hr⟩
      · exact .inl h
      · exact .inr (.inr (.inr (.inl ⟨h, hr, ht, hend⟩)))
      · exact .inr (.inr (.inr (.inr ⟨h, hr, ht⟩)))
    · rcases hh.master_control with ⟨h, -⟩ | ⟨rfl, hs, h, -⟩ | ⟨rfl, h, -⟩
      · exact .inl h
      · exact .inr (.inl ⟨h, hs, hi⟩)
      · exact .inr (.inr (.inl ⟨h, hi⟩))
    · exact .inl h
  · rcases ha.slave_mover with ⟨ht, hv⟩ | ⟨i, hi, hh⟩ | ⟨h, -⟩
    · rcases hv.state_cases with h | ⟨h, hr⟩
      · exact .inl h
      · exact .inr (.inr (.inr ⟨h, hr, ht⟩))
    · rcases hh.slave_control with ⟨h, -⟩ | ⟨rfl, hs, hl, h, -⟩ | ⟨rfl, h, -⟩
      · exact .inl h
      · exact .inr (.inl ⟨h, hs, hl, hi⟩)
      · exact .inr (.inr (.inl ⟨h, hi⟩))
    · exact .inl h

/-- Settles O54: the movers are those of the STATE fields, and an engine's own moves follow the table of successors. -/
theorem phaseOrder : Obligations.PhaseOrder := by
  intro s t hs
  obtain ⟨-, -, u, rfl, ha⟩ := step_action hs
  constructor
  · rcases ha.master_mover with ⟨ht, hm⟩ | ⟨i, hi, hh⟩ | ⟨-, h⟩
    · exact hm.phase_cases.imp_right fun ⟨hr, h⟩ => .inl ⟨ht, hr, h⟩
    · rcases hh.master_control with ⟨-, h⟩ | ⟨rfl, -, hr, h⟩ | ⟨rfl, -, h⟩
      · exact .inl h
      · exact .inr (.inr (.inl ⟨hi, h, hr⟩))
      · exact .inr (.inr (.inr ⟨hi, h⟩))
    · exact .inl h
  · rcases ha.slave_mover with ⟨ht, hv⟩ | ⟨i, hi, hh⟩ | ⟨-, h⟩
    · exact hv.phase_cases.imp_right fun ⟨hr, h⟩ => .inl ⟨ht, hr, h⟩
    · rcases hh.slave_control with ⟨-, h⟩ | ⟨rfl, -, -, hr, h⟩ | ⟨rfl, -, h⟩
      · exact .inl h
      · exact .inr (.inr (.inl ⟨hi, h, hr⟩))
      · exact .inr (.inr (.inr ⟨hi, h⟩))
    · exact .inl h

/-- Settles O6: at phases that decode, the step is `exec` of the chosen agent's instruction, with the choice used up afterwards. -/
theorem stepRunsDecoded : Obligations.StepRunsDecoded := by
  intro s im iv hm hv i hi
  have hstep : step s = settle (exec i s) := by
    rw [step_eq ((decodeMow_master _).symm.trans hm) ((decodeMow_slave _).symm.trans hv)]
    rcases hi with ⟨ht, rfl⟩ | ⟨ht, rfl⟩ | ⟨w, ht, hw⟩
    · rw [ht]
    · rw [ht]
    · cases hw
      rw [ht]
  rw [hstep]
  cases exec i s <;> rfl

end Machine

end Sys2Proof

/-! The actions of the environment (20_memory.md R77, R88, R89), what stops a step (R79, R87), what the lines show while an engine runs (R76), and what no action writes while an engine runs (R94; 42_host_interface.md R203). -/

namespace Sys2Proof

namespace Machine

section
variable {s u : State} {i : Instr}

/-! ## The environment's turns -/

/-- At phases that decode, time's turn is the time step. -/
theorem step_of_time_turn (hm : s.master.phase.toNat ≤ 0xC) (hv : s.slave.phase.toNat ≤ 0x8)
    (ht : s.choice.turn = .time) : step s = .next (timeStep s).advance := by
  obtain ⟨im, him⟩ := decodeMaster_ok _ hm
  obtain ⟨iv, hiv⟩ := decodeSlave_ok _ hv
  rw [step_eq him hiv, ht]
  rfl

/-- At phases that decode, a glitch's turn is the glitch. -/
theorem step_of_glitch_turn {l : Line} {b : Bool} (hm : s.master.phase.toNat ≤ 0xC) (hv : s.slave.phase.toNat ≤ 0x8)
    (ht : s.choice.turn = .glitch l b) : step s = .next (glitchStep l b s).advance := by
  obtain ⟨im, him⟩ := decodeMaster_ok _ hm
  obtain ⟨iv, hiv⟩ := decodeSlave_ok _ hv
  rw [step_eq him hiv, ht]
  rfl

/-- The wait phases of the master (30_encoding.md R103). -/
theorem isMasterWait_iff (p : PhaseCode) : isMasterWait p = true ↔ p ∈ [0x4#4, 0x6#4, 0x8#4, 0x9#4] := by
  simp [isMasterWait, or_assoc]

/-- M.TIMER counts down to 0 and stays there, as the difference of natural numbers does (20_memory.md R89). -/
theorem tick_master_timer (s : State) : (tick s).master.timer =
    if s.master.state = .running ∧ s.master.phase ∈ [0x4#4, 0x6#4, 0x8#4, 0x9#4] then s.master.timer - 1
    else s.master.timer := by
  simp only [tick, isMasterWait_iff, ← and_assoc]
  by_cases h0 : s.master.timer = 0
  · simp [h0]
  · simp only [gt_iff_lt, Nat.pos_of_ne_zero h0, and_true]

/-- No action but an enabled time step moves the tick (20_memory.md R88). -/
theorem StepAction.now_cases (ha : StepAction s u) : u.now = s.now ∨ (s.choice.turn = .time ∧ u.now = s.now + 1) := by
  cases ha with
  | master ht hm => exact .inl hm.edgeHeard.now
  | slave ht hv => exact .inl hv.frame.2.1
  | host w ht hh => exact .inl hh.frame.1
  | time ht hm hv => exact .inr ⟨ht, rfl⟩
  | glitch l v ht hg => exact .inl (driveLine_now l v s)
  | _ => exact .inl rfl

/-- A stopped slave hears no edge (41_slave.md R160). -/
theorem driveLine_clk_rise_stopped (hc : s.lines.clk = false) (hr : s.slave.state ≠ .running) :
    driveLine .clk true s = { s with lines.clk := true } :=
  (driveLine_clk_rise hc).trans (if_pos hr)

/-- An empty latch takes the edge (41_slave.md R160). -/
theorem driveLine_clk_rise_empty (hc : s.lines.clk = false) (hr : s.slave.state = .running)
    (he : s.slave.edgePend = false) :
    driveLine .clk true s = { s with lines.clk := true, slave.edgePend := true, slave.edgeT := s.now } := by
  simp [driveLine_clk_rise hc, edgeDetect, hr, he]

/-- A full latch loses the edge (41_slave.md R161). -/
theorem driveLine_clk_rise_full (hc : s.lines.clk = false) (hr : s.slave.state = .running)
    (he : s.slave.edgePend = true) :
    driveLine .clk true s = { s with lines.clk := true, history := s.history ++ [.edgeLost s.now] } := by
  simp [driveLine_clk_rise hc, edgeDetect, hr, he]

/-! ## A step stops at an unwritten entry only -/

/-- M.LOAD stops at an unwritten entry and nowhere else (20_memory.md R79). -/
theorem exec_mLoad_stops (s : State) : (∃ u, exec .mLoad s = .next u) ∨
    (s.master.state = .running ∧ s.master.msg.read s.master.cursor.toNat = none ∧
      exec .mLoad s = .fault (.unwrittenBuffer .master s.master.cursor.toNat)) := by
  by_cases hr : s.master.state = .running
  · cases hb : bufRead .master s.master.cursor.toNat s with
    | none => exact .inr ⟨hr, hb, by simp [exec, execMLoad, hr, hb]⟩
    | some b =>
      left
      rw [exec, execMLoad, if_pos hr, hb]
      exact ⟨_, rfl⟩
  · exact .inl ⟨s, if_neg hr⟩

/-- S.INITIAL stops at an unwritten entry and nowhere else (20_memory.md R79). -/
theorem exec_sInitial_stops (s : State) : (∃ u, exec .sInitial s = .next u) ∨
    (s.slave.state = .running ∧ s.slave.reply.read s.slave.cursor.toNat = none ∧
      exec .sInitial s = .fault (.unwrittenBuffer .slave s.slave.cursor.toNat)) := by
  by_cases hr : s.slave.state = .running
  · cases hb : bufRead .slave s.slave.cursor.toNat s with
    | none => exact .inr ⟨hr, hb, by simp [exec, execSInitial, hr, hb]⟩
    | some b =>
      left
      rw [exec, execSInitial, if_pos hr, hb]
      exact ⟨_, rfl⟩
  · exact .inl ⟨s, if_neg hr⟩

/-- Of the master's micro-operations only M.LOAD can stop. -/
theorem master_turn_stops (hd : decodeMaster s.master.phase = .ok i) : (∃ u, exec i s = .next u) ∨
    (s.master.state = .running ∧ s.master.phase = 0x2#4 ∧ s.master.msg.read s.master.cursor.toNat = none ∧
      exec i s = .fault (.unwrittenBuffer .master s.master.cursor.toNat)) := by
  cases decodeMaster_code hd with
  | load hp => exact (exec_mLoad_stops s).imp_right fun ⟨hr, hf⟩ => ⟨hr, hp, hf⟩
  | _ => exact .inl ⟨_, rfl⟩

/-- Of the slave's micro-operations only S.INITIAL can stop. -/
theorem slave_turn_stops (hd : decodeSlave s.slave.phase = .ok i) : (∃ u, exec i s = .next u) ∨
    (s.slave.state = .running ∧ s.slave.phase = 0x2#4 ∧ s.slave.reply.read s.slave.cursor.toNat = none ∧
      exec i s = .fault (.unwrittenBuffer .slave s.slave.cursor.toNat)) := by
  cases decodeSlave_code hd with
  | initial hp => exact (exec_sInitial_stops s).imp_right fun ⟨hr, hf⟩ => ⟨hr, hp, hf⟩
  | _ => exact .inl ⟨_, rfl⟩

/-- At phases that decode, a step stops only where an engine reads an unwritten entry. -/
theorem step_stops (hm : s.master.phase.toNat ≤ 0xC) (hv : s.slave.phase.toNat ≤ 0x8) : (∃ t, step s = .next t) ∨
    (s.choice.turn = .master ∧ s.master.state = .running ∧ s.master.phase = 0x2#4 ∧
      s.master.msg.read s.master.cursor.toNat = none ∧
      step s = .fault (.unwrittenBuffer .master s.master.cursor.toNat)) ∨
    (s.choice.turn = .slave ∧ s.slave.state = .running ∧ s.slave.phase = 0x2#4 ∧
      s.slave.reply.read s.slave.cursor.toNat = none ∧
      step s = .fault (.unwrittenBuffer .slave s.slave.cursor.toNat)) := by
  obtain ⟨im, him⟩ := decodeMaster_ok _ hm
  obtain ⟨iv, hiv⟩ := decodeSlave_ok _ hv
  have hs := step_eq him hiv
  cases ht : s.choice.turn with
  | master =>
    rw [ht] at hs
    rcases master_turn_stops him with ⟨u, hu⟩ | ⟨hr, hp, hb, hf⟩
    · exact .inl ⟨u.advance, hs.trans (congrArg settle hu)⟩
    · exact .inr (.inl ⟨rfl, hr, hp, hb, hs.trans (congrArg settle hf)⟩)
  | slave =>
    rw [ht] at hs
    rcases slave_turn_stops hiv with ⟨u, hu⟩ | ⟨hr, hp, hb, hf⟩
    · exact .inl ⟨u.advance, hs.trans (congrArg settle hu)⟩
    · exact .inr (.inr ⟨rfl, hr, hp, hb, hs.trans (congrArg settle hf)⟩)
  | host w =>
    rw [ht] at hs
    obtain ⟨u, hu, -⟩ := host_action _ s (decodeHtw_isHostOp w)
    exact .inl ⟨u.advance, hs.trans (congrArg settle hu)⟩
  | time => exact .inl ⟨_, step_of_time_turn hm hv ht⟩
  | glitch l b => exact .inl ⟨_, step_of_glitch_turn hm hv ht⟩

/-! ## The lines show the registers of the engines that run -/

/-- M.DRIVE_MO puts the current bit on MO, and neither MO, M.TX nor M.BIT changes up to M.NEXT_BIT. -/
theorem MasterMove.mo_driven (hm : MasterMove s u) (hr : s.master.state = .running) (h : s.LinesDriven) :
    0x4 ≤ u.master.phase.toNat → u.master.phase.toNat ≤ 0xB → u.lines.mo = byteBit u.master.tx u.master.bit := by
  have kept {p : PhaseCode} (hp : s.master.phase = p) (hround : 0x4 ≤ p.toNat ∧ p.toNat ≤ 0xB) :
      s.lines.mo = byteBit s.master.tx s.master.bit := h.mo hr (hp ▸ hround.1) (hp ▸ hround.2)
  cases hm with
  | driveMo hp => exact fun _ _ => rfl
  | waitSetup hp _ | clkHi hp _ | clkHiLost hp _ _ _ | clkHiEdge hp _ _ _ | waitHigh hp _ | clkLo hp | waitLow hp _
  | waitSettle hp _ | sample hp => exact fun _ _ => kept hp (by decide)
  | _ => simp

/-- M.CLK_HI raises CLK, and CLK is high up to M.CLK_LO. -/
theorem MasterMove.clk_high_driven (hm : MasterMove s u) (hr : s.master.state = .running) (h : s.LinesDriven) :
    u.master.phase ∈ [0x6#4, 0x7#4] → u.lines.clk = true := by
  cases hm with
  | clkHi hp _ | clkHiLost hp _ _ _ | clkHiEdge hp _ _ _ => exact fun _ => rfl
  | waitHigh hp _ => exact fun _ => h.clk_high hr (by simp [hp])
  | _ => simp

/-- M.CLK_LO lowers CLK, and CLK is low up to the end of the byte's last round. -/
theorem MasterMove.clk_low_driven (hm : MasterMove s u) (hr : s.master.state = .running) (h : s.LinesDriven) :
    0x8 ≤ u.master.phase.toNat → u.lines.clk = false := by
  cases hm with
  | clkLo hp => exact fun _ => rfl
  | waitLow hp _ | waitSettle hp _ | sample hp | lastBit hp _ => exact fun _ => h.clk_low hr (by simp [hp])
  | _ => simp

/-- S.INITIAL and S.DRIVE_NEXT put the current bit on SO, and neither SO, S.TX nor S.BIT changes up to the next drive. -/
theorem SlaveMove.so_driven (hm : SlaveMove s u) (hr : s.slave.state = .running) (h : s.LinesDriven) :
    0x3 ≤ u.slave.phase.toNat → u.lines.so = byteBit u.slave.tx u.slave.bit := by
  cases hm with
  | initial hp b hb => exact fun _ => rfl
  | driveNext hp b hb => exact fun _ => rfl
  | edge hp _ | timeout hp _ | retry hp | lastSample hp _ | sample hp _ | stabilize hp _ =>
    exact fun _ => h.so hr (by simp [hp])
  | _ => simp

/-- A master's action leaves SO and the slave's bit as they are. -/
theorem MasterAction.linesDriven (ha : MasterAction s u) (h : s.LinesDriven) : u.LinesDriven := by
  cases ha with
  | nothing => exact h
  | setupError | ioError => exact { h with mo := by simp, clk_high := by simp, clk_low := by simp }
  | move hr hm =>
    exact
      { mo := fun _ => hm.mo_driven hr h
        clk_high := fun _ => hm.clk_high_driven hr h
        clk_low := fun _ => hm.clk_low_driven hr h
        so := by cases hm <;> exact h.so }

/-- A slave's action leaves CLK, MO and the master as they are. -/
theorem SlaveAction.linesDriven (ha : SlaveAction s u) (h : s.LinesDriven) : u.LinesDriven := by
  cases ha with
  | nothing => exact h
  | setupError | ioError => exact { h with so := by simp }
  | move hr hm =>
    exact
      { mo := by cases hm <;> exact h.mo
        clk_high := by cases hm <;> exact h.clk_high
        clk_low := by cases hm <;> exact h.clk_low
        so := fun _ => hm.so_driven hr h }

/-- The host drives no line, and START takes an engine to a phase at which it has driven none. -/
theorem HostAction.linesDriven (ha : HostAction s i u) (h : s.LinesDriven) : u.LinesDriven := by
  cases ha with
  | stopMaster | startMaster => exact { h with mo := by simp, clk_high := by simp, clk_low := by simp }
  | stopSlave | startSlave => exact { h with so := by simp }
  | _ => exact { h with }

theorem StepAction.linesDriven (ha : StepAction s u) (hg : s.cfg.lineGlitch = false) (h : s.LinesDriven) :
    u.LinesDriven := by
  cases ha with
  | master ht hm => exact hm.linesDriven h
  | slave ht hv => exact hv.linesDriven h
  | host w ht hh => exact hh.linesDriven h
  | time ht hm hv => exact { h with }
  | glitch l v ht hg' => simp [hg] at hg'
  | _ => exact h

/-! ## What is in use is not written -/

/-- From `s` to `u` nothing that a running engine uses was written. -/
structure Frozen (s u : State) : Prop where
  master : s.master.state = .running → u.master.msgLen = s.master.msgLen ∧ u.master.msg = s.master.msg
  slave : s.slave.state = .running → u.slave.replyLen = s.slave.replyLen ∧ u.slave.reply = s.slave.reply
  timing : s.master.state = .running ∨ s.slave.state = .running → u.tp = s.tp

theorem Frozen.refl (s : State) : Frozen s s := ⟨fun _ => ⟨rfl, rfl⟩, fun _ => ⟨rfl, rfl⟩, fun _ => rfl⟩

theorem MasterAction.frozen (ha : MasterAction s u) : Frozen s u := by
  cases ha with
  | move hr hm => cases hm <;> exact { Frozen.refl s with }
  | _ => exact { Frozen.refl s with }

theorem SlaveAction.frozen (ha : SlaveAction s u) : Frozen s u := by
  cases ha with
  | move hr hm => cases hm <;> exact { Frozen.refl s with }
  | _ => exact { Frozen.refl s with }

/-- A host write to a length, a buffer or the timing policy is taken only while no engine uses it. -/
theorem HostAction.frozen (ha : HostAction s i u) : Frozen s u := by
  cases ha with
  | msgLen _ hs _ | msg _ _ hs _ => exact { Frozen.refl s with master := fun hr => absurd hr hs }
  | replyLen _ hs _ | reply _ _ hs _ => exact { Frozen.refl s with slave := fun hr => absurd hr hs }
  | bitPeriod _ hm hv | sampleSettle _ hm hv | stabilize _ hm hv | edgeWait _ hm hv =>
    exact { Frozen.refl s with timing := fun hr => absurd hr (not_or_intro hm hv) }
  | _ => exact { Frozen.refl s with }

theorem StepAction.frozen (ha : StepAction s u) : Frozen s u := by
  cases ha with
  | master ht hm => exact hm.frozen
  | slave ht hv => exact hv.frozen
  | host w ht hh => exact hh.frozen
  | glitch l v ht hg => exact ⟨by simp, by simp, by simp⟩
  | _ => exact { Frozen.refl s with }

end

/-! ## The statements -/

/-- Settles O8: the tick counter moves with the time step, which is a tick when no engine is urgent. -/
theorem nowOnlyByTimeStep : Obligations.NowOnlyByTimeStep := by
  refine ⟨fun _ => rfl, fun s ht hm hv hmu hvu => ⟨_, step_of_time_turn hm hv ht, ?_⟩, fun s t hs hne => ?_⟩
  · simp [timeStep, hmu, hvu]
  · obtain ⟨-, -, u, rfl, ha⟩ := step_action hs
    exact ha.now_cases.resolve_left hne

/-- Settles O44: the phases of a legal state decode, and the cursor of a legal running session is below the length. -/
theorem legalStateHasNext : Obligations.LegalStateHasNext := by
  have stops := fun (s : State) (h : s.Legal) => step_stops h.master.phase_code h.slave.phase_code
  refine ⟨stops, fun s h hw => ?_⟩
  rcases stops s h with hn | ⟨-, hr, hp, hb, -⟩ | ⟨-, hr, hp, hb, -⟩
  · exact hn
  · exact absurd hb (hw.1 _ (h.master.cursor_len hr (by simp [hp])))
  · exact absurd hb (hw.2 _ (h.slave.cursor_len hr (by simp [hp])))

/-- Settles O45: each engine drives its own lines with its own registers, and without glitches nothing else drives a line. -/
theorem linesFollowRegisters : Obligations.LinesFollowRegisters := by
  intro s t hg h hs
  obtain ⟨-, -, u, rfl, ha⟩ := step_action hs
  exact { ha.linesDriven hg h with }

/-- Settles O53: only the host writes these registers, and only while no engine uses them. -/
theorem frozenWhileRunning : Obligations.FrozenWhileRunning := by
  intro s t hs
  obtain ⟨-, -, u, rfl, ha⟩ := step_action hs
  obtain ⟨hm, hv, htp⟩ := ha.frozen
  exact ⟨fun hr => (hm hr).imp_right fun h _ => congrArg (Memory.read · _) h,
    fun hr => (hv hr).imp_right fun h _ => congrArg (Memory.read · _) h, htp⟩

/-- Settles O7: the two engines' urgent actions are those of the statement, and a tick lowers the counters of the waits. -/
theorem timeStepEffect : Obligations.TimeStepEffect := by
  intro s ht hm hv urgent
  have hurgent : urgent ↔ masterUrgent s = true ∨ slaveUrgent s = true :=
    or_congr (masterUrgent_iff s).symm (slaveUrgent_iff s).symm
  rw [step_of_time_turn hm hv ht]
  rcases timeStep_cases s with ⟨hu, e⟩ | ⟨hmu, hvu, e⟩
  · exact ⟨fun _ => by rw [e]; rfl, fun hn => absurd (hurgent.2 hu) hn⟩
  · refine ⟨fun hu => absurd (hurgent.1 hu) (by simp [hmu, hvu]), fun _ => ?_⟩
    rw [e, ← tick_master_timer]
    rfl

/-- Settles O9: a glitch is a drive of its line, and the edge detector decides what a rise of CLK does to the slave. -/
theorem glitchEffect : Obligations.GlitchEffect := by
  intro s l v ht hm hv
  refine ⟨_, step_of_glitch_turn hm hv ht, ?_⟩
  rcases glitchStep_cases l v s with ⟨hg, e⟩ | ⟨hg, e⟩
  · rw [e]
    exact ⟨rfl, rfl, rfl, fun _ => rfl, by simp [hg]⟩
  · rw [e]
    refine ⟨by simp, by simp, by simp, by simp [hg], fun _ => ⟨by simp, fun k hk => by simp [hk], fun hrise => ?_, ?_⟩⟩
    · rw [driveLine_plain hrise]
      exact ⟨rfl, rfl⟩
    · rintro ⟨rfl, hc, rfl⟩
      refine ⟨fun hr => ?_, fun hr he => ?_, fun hr he => ?_⟩
      · rw [driveLine_clk_rise_stopped hc hr]
        exact ⟨rfl, rfl⟩
      · rw [driveLine_clk_rise_empty hc hr he]
        exact ⟨rfl, rfl⟩
      · rw [driveLine_clk_rise_full hc hr he]
        exact ⟨rfl, rfl⟩

/-- Settles O12: every micro-operation is guarded by its engine's STATE. -/
theorem stoppedEngineDoesNothing : Obligations.StoppedEngineDoesNothing := by
  constructor
  · intro i s hi hs
    cases i <;> simp only [Instr.isMasterOp, Bool.false_eq_true] at hi
    case mIdle => rfl
    case mLoad => exact if_neg hs
    all_goals exact congrArg Host.Outcome.next (whileMaster_stopped hs)
  · intro i s hi hs
    cases i <;> simp only [Instr.isSlaveOp, Bool.false_eq_true] at hi
    case sIdle => rfl
    case sInitial => exact if_neg hs
    all_goals exact congrArg Host.Outcome.next (whileSlave_stopped hs)

end Machine

end Sys2Proof

/-! The encodings (30_encoding.md R101 to R112): the table of host writes as a relation between a write's fields and the operation they name, the round trip through it, the reserved codes, and the expansions of the pseudo-instructions. -/

namespace Sys2Proof

section
variable {a : HostAddr} {d : Word} {i : Instr}

/-! ## The rows of R108 -/

/-- The row of R108, 2 to 14, that names `i`, as a condition on a write's address and data; no such row names a read or a micro-operation. -/
def WriteRow (a : HostAddr) (d : Word) : Instr → Prop
  | .hWrMStop => a = Addr.mCtrl ∧ d.getLsbD 1 = true
  | .hWrMStart => a = Addr.mCtrl ∧ d.getLsbD 1 = false ∧ d.getLsbD 0 = true
  | .hWrSStop => a = Addr.sCtrl ∧ d.getLsbD 1 = true
  | .hWrSStart => a = Addr.sCtrl ∧ d.getLsbD 1 = false ∧ d.getLsbD 0 = true
  | .hWrMMsgLen n => a = Addr.mMsgLen ∧ n = d
  | .hWrSReplyLen n => a = Addr.sReplyLen ∧ n = d
  | .hWrTpBitPeriod x => a = Addr.tpBitPeriod ∧ x = d
  | .hWrTpSampleSettle x => a = Addr.tpSampleSettle ∧ x = d
  | .hWrTpStabilize x => a = Addr.tpStabilize ∧ x = d
  | .hWrTpEdgeWait x => a = Addr.tpEdgeWait ∧ x = d
  | .hWrMMsg j v => a.toNat = 0x1000 + 4 * j.toNat ∧ v = d.extractLsb' 0 8
  | .hWrSReply j v => a.toNat = 0x2000 + 4 * j.toNat ∧ v = d.extractLsb' 0 8
  | .hWrIgnored x y => x = a ∧ y = d ∧ isIgnoredWrite a d = true
  | _ => False

/-- Only row 14 asks for well-formedness, and it takes only what the others leave. -/
theorem WriteRow.wellFormed (h : WriteRow a d i) : i.wellFormed = true := by
  cases i with
  | hWrIgnored x y =>
    obtain ⟨rfl, rfl, hi⟩ := h
    exact hi
  | _ => rfl

/-- An aligned address of the message window is that of the entry it carries (R107). -/
theorem toNat_of_msg_window (h : (addrWindow a == 1#4 && addrAligned a) = true) :
    a.toNat = 0x1000 + 4 * (addrIndex a).toNat := by
  obtain ⟨hw, ha⟩ := by simpa only [Bool.and_eq_true, beq_iff_eq] using h
  exact (entry_iff a _ 1).2 ⟨(addrWindow_iff a 1#4).1 hw, (addrAligned_iff a).1 ha, rfl⟩

/-- An aligned address of the reply window is that of the entry it carries (R107). -/
theorem toNat_of_reply_window (h : (addrWindow a == 2#4 && addrAligned a) = true) :
    a.toNat = 0x2000 + 4 * (addrIndex a).toNat := by
  obtain ⟨hw, ha⟩ := by simpa only [Bool.and_eq_true, beq_iff_eq] using h
  exact (entry_iff a _ 2).2 ⟨(addrWindow_iff a 2#4).1 hw, (addrAligned_iff a).1 ha, rfl⟩

/-- A write satisfies the condition of the row that its tests, in table order, select (R108, R109). -/
theorem writeRow_decodeWrite (a : HostAddr) (d : Word) : WriteRow a d (decodeWrite a d) := by
  unfold decodeWrite
  rw [ctrl_stop, ctrl_start]
  repeat' refine iteInduction (fun h => ?_) (fun _ => ?_)
  · simpa [WriteRow] using h
  · exact ⟨by simp_all, by simp_all⟩
  · simpa [WriteRow] using h
  · exact ⟨by simp_all, by simp_all⟩
  iterate 6 exact ⟨eq_of_beq h, rfl⟩
  · exact ⟨toNat_of_msg_window h, rfl⟩
  · exact ⟨toNat_of_reply_window h, rfl⟩
  · -- No test of the rows above holds; `isIgnoredWrite` asks for just that.
    refine ⟨rfl, rfl, ?_⟩
    simp_all only [isIgnoredWrite, addrWindow, addrAligned]
    grind [ctrl_neither]

/-- Above the registers only the two windows are left (R108 rows 12 to 14). -/
theorem decodeWrite_above_registers (h : 0x1000 ≤ a.toNat) : decodeWrite a d =
    if addrWindow a == 1#4 && addrAligned a then .hWrMMsg (addrIndex a) (d.extractLsb' 0 8)
    else if addrWindow a == 2#4 && addrAligned a then .hWrSReply (addrIndex a) (d.extractLsb' 0 8)
    else .hWrIgnored a d := by
  have hreg : ∀ r : HostAddr, r.toNat < 0x1000 → (a == r) = false := fun r hr =>
    beq_eq_false_iff_ne.2 fun e => absurd (e ▸ h) (by omega)
  simp [decodeWrite, hreg]

theorem decodeWrite_ignored (h : isIgnoredWrite a d = true) : decodeWrite a d = .hWrIgnored a d := by
  obtain ⟨hctrl, hreg, hentry⟩ := (isIgnoredWrite_iff a d).1 h
  have hindex := (addrIndex a).isLt
  have hmsg : ¬ (addrWindow a == 1#4 && addrAligned a) = true := fun hw =>
    hentry (by have := toNat_of_msg_window hw; omega)
  have hreply : ¬ (addrWindow a == 2#4 && addrAligned a) = true := fun hw =>
    hentry (by have := toNat_of_reply_window hw; omega)
  simp only [decodeWrite, ctrl_stop, ctrl_start, hmsg, hreply]
  grind

/-- The rows exclude one another: a write decodes to the operation whose row it satisfies (R108). -/
theorem decodeWrite_of_writeRow (h : WriteRow a d i) : decodeWrite a d = i := by
  cases i with
  | hWrMStop | hWrSStop =>
    obtain ⟨rfl, h1⟩ := h
    rw [decodeWrite, ctrl_stop, h1]
    rfl
  | hWrMStart | hWrSStart =>
    obtain ⟨rfl, h1, h0⟩ := h
    rw [decodeWrite, ctrl_stop, ctrl_start, h1, h0]
    rfl
  | hWrMMsgLen n | hWrSReplyLen n | hWrTpBitPeriod n | hWrTpSampleSettle n | hWrTpStabilize n | hWrTpEdgeWait n =>
    obtain ⟨rfl, rfl⟩ := h
    rfl
  | hWrMMsg j v =>
    obtain ⟨ha, rfl⟩ := h
    obtain ⟨hw, hal, rfl⟩ := (entry_iff a j 1).1 ha
    rw [decodeWrite_above_registers (by omega), (addrWindow_iff a 1#4).2 hw, (addrAligned_iff a).2 hal]
    rfl
  | hWrSReply j v =>
    obtain ⟨ha, rfl⟩ := h
    obtain ⟨hw, hal, rfl⟩ := (entry_iff a j 2).1 ha
    rw [decodeWrite_above_registers (by omega), (addrWindow_iff a 2#4).2 hw, (addrAligned_iff a).2 hal]
    rfl
  | hWrIgnored x y =>
    obtain ⟨rfl, rfl, hi⟩ := h
    exact decodeWrite_ignored hi
  | _ => exact h.elim

/-- Rows 2 to 14 of R108 as a relation. -/
theorem decodeWrite_eq_iff : decodeWrite a d = i ↔ WriteRow a d i :=
  ⟨fun h => h ▸ writeRow_decodeWrite a d, decodeWrite_of_writeRow⟩

/-- A host word is a read or a write (R102). -/
theorem decodeHtw_cases (w : Htw) :
    (w.extractLsb' 48 1 = 0#1 ∧ decodeHtw w = .hRd (w.extractLsb' 32 16)) ∨
    (w.extractLsb' 48 1 = 1#1 ∧ decodeHtw w = decodeWrite (w.extractLsb' 32 16) (w.extractLsb' 0 32)) := by
  unfold decodeHtw
  have hbit : ∀ wr : BitVec 1, wr = 0#1 ∨ wr = 1#1 := by decide
  exact (hbit (w.extractLsb' 48 1)).imp (fun h => ⟨h, by rw [h]; rfl⟩) (fun h => ⟨h, by rw [h]; rfl⟩)

/-- Row 1 of R108: a word names a read exactly when its WR bit is 0. -/
theorem decodeHtw_eq_read_iff (w : Htw) (x : HostAddr) :
    decodeHtw w = .hRd x ↔ w.extractLsb' 48 1 = 0#1 ∧ x = w.extractLsb' 32 16 := by
  rcases decodeHtw_cases w with ⟨hwr, e⟩ | ⟨hwr, e⟩
  · simp [hwr, e, eq_comm]
  · rw [e, hwr, decodeWrite_eq_iff]
    exact ⟨False.elim, fun h => absurd h.1 (by decide)⟩

/-- Rows 2 to 14 of R108: a word names any other operation exactly when it is a write that satisfies its row. -/
theorem decodeHtw_eq_write_iff (w : Htw) (hi : ∀ x, .hRd x ≠ i) : decodeHtw w = i ↔
    w.extractLsb' 48 1 = 1#1 ∧ WriteRow (w.extractLsb' 32 16) (w.extractLsb' 0 32) i := by
  rcases decodeHtw_cases w with ⟨hwr, e⟩ | ⟨hwr, e⟩
  · simp [hwr, e, hi]
  · simp [hwr, e, decodeWrite_eq_iff]

/-- Every host word names a well-formed operation (R109). -/
theorem decodeHtw_wellFormed (w : Htw) : (decodeHtw w).wellFormed = true := by
  rcases decodeHtw_cases w with ⟨-, e⟩ | ⟨-, e⟩
  · rw [e]
    rfl
  · rw [e]
    exact (writeRow_decodeWrite _ _).wellFormed

/-- A write's word names the operation whose row its fields satisfy. -/
theorem decode_writeOf (h : WriteRow a d i) : decode (writeOf a d) = .ok i :=
  congrArg Except.ok ((decodeHtw_write a d).trans (decodeWrite_of_writeRow h))

end

/-! ## The round trip and the table -/

/-- Settles O1: a micro-operation by its code, a read by its address, a write by the row of R108 that its fields satisfy. -/
theorem decodeEncodeRoundTrip : Obligations.DecodeEncodeRoundTrip := by
  intro i hi
  cases i with
  | hRd a => exact congrArg Except.ok (decodeHtw_read a 0#32)
  | hWrMStop | hWrSStop => exact decode_writeOf ⟨rfl, by decide⟩
  | hWrMStart | hWrSStart => exact decode_writeOf ⟨rfl, by decide, by decide⟩
  | hWrMMsgLen n | hWrSReplyLen n | hWrTpBitPeriod n | hWrTpSampleSettle n | hWrTpStabilize n | hWrTpEdgeWait n =>
    exact decode_writeOf ⟨rfl, rfl⟩
  | hWrMMsg j v => exact decode_writeOf ⟨msgAddr_toNat j, (dataByte_setWidth v).symm⟩
  | hWrSReply j v => exact decode_writeOf ⟨replyAddr_toNat j, (dataByte_setWidth v).symm⟩
  | hWrIgnored a d => exact decode_writeOf ⟨rfl, rfl, hi⟩
  | _ => rfl

/-- Settles O2: rows 2 to 13 are clauses of `WriteRow`, and row 14 is the clause whose test is written out by number. -/
theorem hostDecodeTable : Obligations.HostDecodeTable := by
  intro w wr a d
  have row {i : Instr} := decodeHtw_eq_write_iff (i := i) w
  refine ⟨decodeHtw_eq_read_iff w, row nofun, row nofun, row nofun, row nofun, fun n => row nofun, fun n => row nofun,
    fun x => row nofun, fun x => row nofun, fun x => row nofun, fun x => row nofun, fun j v => row nofun,
    fun j v => row nofun, fun x y => ?_, decodeHtw_wellFormed w⟩
  rw [← isIgnoredWrite_iff]
  exact row nofun

/-- The decoder reads a word that the encoder writes. -/
theorem decode_of_encode_eq {i : Instr} {e : Encoded} (hi : i.wellFormed = true) (h : encode i = e) :
    decode e = .ok i :=
  h ▸ decodeEncodeRoundTrip i hi

/-- Settles O4: the encoder writes the words of R112, and the round trip reads them back. -/
theorem workedEncodings : Obligations.WorkedEncodings := by
  have period : encode (.hWrTpBitPeriod 1000#32) = .htw 0x1_0200_0000_03E8#49 := by decide
  have start : encode .hWrMStart = .htw 0x1_0000_0000_0001#49 := by decide
  have stop : encode .hWrSStop = .htw 0x1_0100_0000_0002#49 := by decide
  have entry : encode (.hWrMMsg 1#10 0x49#8) = .htw 0x1_1004_0000_0049#49 := by decide
  have status : encode (.hRd 0x0004#16) = .htw 0x0_0004_0000_0000#49 := by decide
  have sample : encode .mSample = .mow 0b0_1010#5 := by decide
  have driveNext : encode .sDriveNext = .mow 0b1_0110#5 := by decide
  exact ⟨decode_of_encode_eq rfl period, period, decode_of_encode_eq rfl start, start,
    decode_of_encode_eq rfl stop, stop, decode_of_encode_eq rfl entry, entry, decode_of_encode_eq rfl status, status,
    decode_of_encode_eq rfl sample, sample, decode_of_encode_eq rfl driveNext, driveNext⟩

/-! ## The pseudo-instructions of R111 -/

theorem msgAddr_ofNat {j : Nat} (hj : j < 1024) : msgAddr (BitVec.ofNat 10 j) = BitVec.ofNat 16 (0x1000 + 4 * j) := by
  apply BitVec.eq_of_toNat_eq
  rw [msgAddr_toNat, BitVec.toNat_ofNat, BitVec.toNat_ofNat]
  omega

theorem replyAddr_ofNat {j : Nat} (hj : j < 1024) :
    replyAddr (BitVec.ofNat 10 j) = BitVec.ofNat 16 (0x2000 + 4 * j) := by
  apply BitVec.eq_of_toNat_eq
  rw [replyAddr_toNat, BitVec.toNat_ofNat, BitVec.toNat_ofNat]
  omega

/-- The writes of a list of bytes, entry by entry, as long as the entries lie in the window at `base`. -/
theorem writeBytes_eq_map_zipIdx {window : BitVec 10 → HostAddr} {base : Nat}
    (hwindow : ∀ {j}, j < 1024 → window (BitVec.ofNat 10 j) = BitVec.ofNat 16 (base + 4 * j)) (bytes : List Byte)
    (i : Nat) (hfit : i + bytes.length ≤ 1024) :
    writeBytes window i bytes = (bytes.zipIdx i).map fun p =>
      .htw (htwOf 1#1 (BitVec.ofNat 16 (base + 4 * p.2)) (p.1.setWidth 32)) := by
  induction bytes generalizing i with
  | nil => rfl
  | cons b bs ih =>
    rw [List.length_cons] at hfit
    rw [writeBytes, hwindow (by omega), ih (i + 1) (by omega)]
    rfl

/-- Settles O5: all but the two loads are their expansions by definition, and a load writes its entries in order. -/
theorem pseudoExpansions : Obligations.PseudoExpansions := by
  refine ⟨rfl, rfl, rfl, rfl, fun _ _ _ _ => rfl, fun bytes hlen => ?_, fun _ => rfl, fun _ _ _ => beq_iff_eq⟩
  have hfit : 0 + bytes.length ≤ 1024 := by omega
  exact ⟨congrArg (· ++ _) (writeBytes_eq_map_zipIdx msgAddr_ofNat bytes 0 hfit),
    congrArg (· ++ _) (writeBytes_eq_map_zipIdx replyAddr_ofNat bytes 0 hfit)⟩

/-! ## The reserved codes of R105 -/

/-- The master's decoder names the reserved code it refuses. -/
theorem decodeMaster_reserved (p : PhaseCode) (h : 0xC < p.toNat) : decodeMaster p = .error (.reservedMasterCode p) := by
  revert p; decide

/-- The slave's decoder names the reserved code it refuses. -/
theorem decodeSlave_reserved (p : PhaseCode) (h : 0x8 < p.toNat) : decodeSlave p = .error (.reservedSlaveCode p) := by
  revert p; decide

theorem masterSuccessors_in_range : ∀ p : PhaseCode, ∀ q ∈ masterSuccessors p, q.toNat ≤ 0xC := by decide

theorem slaveSuccessors_in_range : ∀ p : PhaseCode, ∀ q ∈ slaveSuccessors p, q.toNat ≤ 0x8 := by decide

namespace Machine

section
variable {s t : State}

theorem step_refuses_master_code (h : 0xC < s.master.phase.toNat) :
    step s = .refused (.reservedMasterCode s.master.phase) := by
  simp [step, fetch, masterWord, decodeMaster_reserved _ h]

theorem step_refuses_slave_code (hm : s.master.phase.toNat ≤ 0xC) (h : 0x8 < s.slave.phase.toNat) :
    step s = .refused (.reservedSlaveCode s.slave.phase) := by
  obtain ⟨i, hi⟩ := decodeMaster_ok _ hm
  simp [step, fetch, masterWord, slaveWord, hi, decodeSlave_reserved _ h]

/-- A step starts at phases that decode, and the phases it can enter are listed. -/
theorem step_phases_in_range (hs : step s = .next t) : t.master.phase.toNat ≤ 0xC ∧ t.slave.phase.toNat ≤ 0x8 := by
  obtain ⟨hm, hv, -⟩ := step_action hs
  obtain ⟨hmaster, hslave⟩ := phaseOrder s t hs
  constructor
  · rcases hmaster with h | ⟨-, -, h⟩ | ⟨-, h, -⟩ | ⟨-, h⟩
    · exact h ▸ hm
    · exact masterSuccessors_in_range _ _ h
    · simp [h]
    · simp [h]
  · rcases hslave with h | ⟨-, -, h⟩ | ⟨-, h, -⟩ | ⟨-, h⟩
    · exact h ▸ hv
    · exact slaveSuccessors_in_range _ _ h
    · simp [h]
    · simp [h]

end

/-- Settles O3: the decoders name the codes they refuse, and a step neither starts at one nor enters one. -/
theorem reservedCodesRefused : Obligations.ReservedCodesRefused := by
  simp only [Obligations.ReservedCodesRefused, decodeMow_master, decodeMow_slave]
  exact ⟨fun p => ⟨fun ⟨_, h⟩ => decodeMaster_range h, decodeMaster_ok p⟩,
    fun p => ⟨fun ⟨_, h⟩ => decodeSlave_range h, decodeSlave_ok p⟩, decodeMaster_reserved, decodeSlave_reserved,
    fun _ => step_refuses_master_code, fun _ => step_refuses_slave_code, fun _ _ => step_phases_in_range⟩

end Machine

end Sys2Proof

/-! The master's micro-operations, one result each (40_master.md R131 to R143), as the records that fault entry (60_exceptions.md R233) and the entry to a phase (10_state.md R41) leave. -/

namespace Sys2Proof

namespace Machine

section
variable {s : State}

/-! ## Fault entry and the entry to a phase -/

/-- A line operation of the master fails exactly on a drawn failure under IO_FAULTS (20_memory.md R74, R90). -/
theorem unlessIoError_master (l : Line) (s t : State) : unlessIoError .master l s t =
    if s.cfg.ioFaults = true ∧ s.choice.fail = true then
      { s with master.state := .fault, master.cause := .ioError, master.fline := some l }
    else t := by
  simp [unlessIoError, ioFails, raise]

/-- The master's acquisition fails exactly on a drawn failure under SETUP_FAULTS (40_master.md R131). -/
theorem unlessSetupError_master (s t : State) : unlessSetupError .master s t =
    if s.cfg.setupFaults = true ∧ s.choice.fail = true then
      { s with master.state := .fault, master.cause := .setupError, master.fline := some s.choice.failLine }
    else t := by
  simp [unlessSetupError, setupFails, raise]

/-- A phase that is no wait is entered without a load of the counter (10_state.md R41). -/
theorem enterMaster_other {p : PhaseCode} (h : isMasterWait p = false) :
    enterMaster p s = { s with master.phase := p } := by
  rw [enterMaster, masterTimerOn_other h]

/-! ## The lines and the bits -/

/-- M.CLK_HI's drive: no transition, a rise that a stopped slave does not hear, a lost edge, or a latched one (41_slave.md R160, R161). -/
theorem driveLine_clk_high (s : State) : driveLine .clk true s =
    if s.lines.clk = true ∨ s.slave.state ≠ .running then { s with lines.clk := true }
    else if s.slave.edgePend = true then { s with lines.clk := true, history := s.history ++ [.edgeLost s.now] }
    else { s with lines.clk := true, slave.edgePend := true, slave.edgeT := s.now } := by
  split
  · next h =>
    cases hc : s.lines.clk with
    | true => exact driveLine_clk_held hc
    | false => exact driveLine_clk_rise_stopped hc (h.resolve_left (by simp [hc]))
  · next h =>
    obtain ⟨hc, hr⟩ : s.lines.clk = false ∧ s.slave.state = .running := by simpa using h
    split
    · next he => exact driveLine_clk_rise_full hc hr he
    · next he => exact driveLine_clk_rise_empty hc hr (by simpa using he)

/-- A bit insert at a place of the byte and at every other (00_scope.md R18). -/
theorem setByteBit_getLsbD (v : Byte) (b : BitIndex) (x : Bool) : (setByteBit v b x).getLsbD b.toNat = x ∧
    ∀ i, i ≠ b.toNat → (setByteBit v b x).getLsbD i = v.getLsbD i := by
  refine ⟨(byteBit_setByteBit v b b x).trans (if_pos rfl), fun i hi => ?_⟩
  by_cases h8 : i < 8
  · have hni : (BitVec.ofNat 3 i).toNat = i := Nat.mod_eq_of_lt h8
    have hother := byteBit_setByteBit v b (BitVec.ofNat 3 i) x
    rw [if_neg fun h => hi (by rw [← hni, h])] at hother
    simpa only [byteBit, hni] using hother
  · rw [BitVec.getLsbD_of_ge _ _ (Nat.le_of_not_lt h8), BitVec.getLsbD_of_ge _ _ (Nat.le_of_not_lt h8)]

/-- The index below a bit index above 0 (40_master.md R141). -/
theorem bitIndex_sub_one {b c : BitIndex} (h : b.toNat + 1 = c.toNat) : c ≠ 0#3 ∧ c - 1#3 = b := by
  bv_omega

/-! ## The waits -/

/-- A wait that is over enters the next phase (40_master.md R134). -/
theorem masterWaitThen_over {p : PhaseCode} (hr : s.master.state = .running) (h0 : s.master.timer = 0) :
    masterWaitThen p s = enterMaster p s := by
  simp [masterWaitThen, hr, h0]

/-- A wait that is not over changes nothing, whether the master runs or not (20_memory.md R89). -/
theorem masterWaitThen_before {p : PhaseCode} (h0 : s.master.timer ≠ 0) : masterWaitThen p s = s := by
  simp [masterWaitThen, whileMaster, h0]

end

/-! ## The statements -/

/-- Settles O11: neither phase has an action. -/
theorem idlePhases : Obligations.IdlePhases := ⟨rfl, rfl, fun _ => ⟨rfl, rfl⟩⟩

/-- Settles O13: an acquisition that does not fail enters M.LOAD, or ends the empty session. -/
theorem mAcquireResult : Obligations.MAcquireResult := by
  refine ⟨rfl, fun s hr => ?_⟩
  rw [exec, execMAcquire, whileMaster_running hr, unlessSetupError_master, enterMaster_other rfl]
  rfl

/-- Settles O14: a written entry becomes M.TX, and an unwritten one stops the run. -/
theorem mLoadResult : Obligations.MLoadResult := by
  refine ⟨rfl, fun s b hr hb => ?_, fun s hr hb => ?_⟩
  · simp only [exec, execMLoad, if_pos hr, bufRead, State.buffer, hb]
    rw [enterMaster_other rfl]
  · simp only [exec, execMLoad, if_pos hr, bufRead, State.buffer, hb]

/-- Settles O15: the drive of MO makes no edge, and M.WAIT_SETUP loads TP.QUARTER. -/
theorem mDriveMoResult : Obligations.MDriveMoResult := by
  refine ⟨rfl, fun s hr => ?_⟩
  rw [exec, execMDriveMo, whileMaster_running hr, unlessIoError_master, driveLine_mo, ← quarter_toNat]
  rfl

/-- Settles O16: the four waits are one operation with four next phases, of which M.WAIT_SETTLE alone loads the counter. -/
theorem mWaitResults : Obligations.MWaitResults := by
  refine ⟨rfl, rfl, rfl, rfl, fun s hr h0 => ?_, fun s h0 => ?_⟩
  · simp only [exec, execMWaitSetup, execMWaitHigh, execMWaitLow, execMWaitSettle, masterWaitThen_over hr h0]
    exact ⟨by rw [enterMaster_other rfl], by rw [enterMaster_other rfl], rfl, by rw [enterMaster_other rfl]⟩
  · simp only [exec, execMWaitSetup, execMWaitHigh, execMWaitLow, execMWaitSettle, masterWaitThen_before h0, and_self]

/-- Settles O17: the drive of CLK by its four cases, and M.WAIT_HIGH loads TP.HALF. -/
theorem mClkHiResult : Obligations.MClkHiResult := by
  refine ⟨rfl, fun s hr => ?_⟩
  rw [exec, execMClkHi, whileMaster_running hr, unlessIoError_master, driveLine_clk_high, ← half_toNat]
  congr 2
  split
  · rfl
  · split <;> rfl

/-- Settles O18: a fall of CLK makes no edge, and M.WAIT_LOW loads TP.QUARTER. -/
theorem mClkLoResult : Obligations.MClkLoResult := by
  refine ⟨rfl, fun s hr => ?_⟩
  rw [exec, execMClkLo, whileMaster_running hr, unlessIoError_master, driveLine_clk_low, ← quarter_toNat]
  rfl

/-- Settles O19: the byte is M.RX with the bit inserted. -/
theorem mSampleResult : Obligations.MSampleResult := by
  refine ⟨rfl, fun s hr => ⟨setByteBit s.master.rx s.master.bit s.lines.so, ?_⟩⟩
  obtain ⟨hbit, hothers⟩ := setByteBit_getLsbD s.master.rx s.master.bit s.lines.so
  refine ⟨hbit, hothers, ?_⟩
  rw [exec, execMSample, whileMaster_running hr, unlessIoError_master, enterMaster_other rfl]
  rfl

/-- Settles O20: above bit 0 the next round begins, at bit 0 the byte is finished. -/
theorem mNextBitResult : Obligations.MNextBitResult := by
  refine ⟨rfl, fun s hr => ⟨fun b hb => ?_, fun hb => ?_⟩⟩
  · obtain ⟨hne, hsub⟩ := bitIndex_sub_one hb
    rw [exec, execMNextBit, whileMaster_running hr, if_neg hne, enterMaster_other rfl, hsub]
  · rw [exec, execMNextBit, whileMaster_running hr, if_pos hb, enterMaster_other rfl]

/-- Settles O21: the report is emitted either way, and the cursor's successor decides whether a byte is left. -/
theorem mReportResult : Obligations.MReportResult := by
  refine ⟨rfl, fun s hr => ?_⟩
  intro c
  rw [exec, execMReport, whileMaster_running hr, enterMaster_other rfl]
  by_cases hc : c < s.master.msgLen
  · have hlt : c.toNat < s.master.msgLen.toNat := hc
    rw [if_pos hc, if_pos hlt, if_pos hlt, ← hr]
    rfl
  · have hge : ¬ c.toNat < s.master.msgLen.toNat := hc
    rw [if_neg hc, if_neg hge, if_neg hge]
    rfl

end Machine

end Sys2Proof

/-! The master's sessions (40_master.md R144, R145, R280): where a session without jitter stands at each tick, the choices that end it, and the moves that two masters with the same inputs share. -/

namespace Sys2Proof

namespace Machine

/-! ## The timeline -/

/-- The session that is about to begin is on time. -/
theorem OnTime.begin {s : State} (hq : s.cfg.Quiet) (hr : s.master.state = .running) (hp : s.master.phase = 0x1#4)
    (hn : s.master.msgLen ≠ 0#32) : OnTime s.now s.tp s.master.msgLen s.master.reports s :=
  ⟨hq, .inl ⟨hr, rfl, rfl, hn, .inl ⟨hp, rfl, rfl⟩⟩⟩

/-- Settles O57: a session is on time at M.ACQUIRE, and every step without START and STOP keeps it so. -/
theorem masterTimeline : Obligations.MasterTimeline := by
  intro k s t hq hr hp hn hk hc hruns
  have htime := runs_keep_scripted (fun _ _ h hc hs => h.step hc hs) (OnTime.begin hq hr hp hn) hk hc hruns
  exact htime.place.imp_left fun ⟨hr, _, _, _, hplace⟩ => ⟨hr, hplace⟩

/-! ## The end of a session -/

/-- Settles O58: from M.ACQUIRE the whole message is sent on time, and from a later phase the rest of it ends at some tick. -/
theorem messageCompletes : Obligations.MessageCompletes := by
  intro s hr h0 hphase hcursor hwritten hvphase hlat hserved
  have hv : Served s.cfg s.slave :=
    ⟨hvphase, hlat, fun hv => (hserved hv).1, fun hv => (hserved hv).2.1, fun hv => (hserved hv).2.2⟩
  have hat : At s.tp s.master.msgLen s.master.phase s.master.bit s.master.cursor.toNat s.master.timer s.now
      s.master.reports.length s := ⟨hr, hv, hwritten, rfl, rfl, rfl, rfl, rfl, rfl, rfl, rfl⟩
  by_cases h1 : s.master.phase = 0x1#4
  · obtain ⟨script, t, hruns, hturns, hdone, hnow, hreports⟩ := finish_message s (h1 ▸ hat)
    exact ⟨script, t, hruns, hturns, hdone, fun _ => ⟨hnow, hreports⟩, fun h => absurd h1 h⟩
  · obtain ⟨T, hends⟩ := ends_any (hcursor h1) h1 h0 hphase
    obtain ⟨script, t, hruns, hturns, hdone, -, hreports⟩ := hends s hat
    exact ⟨script, t, hruns, hturns, hdone, fun h => absurd h h1, fun _ => hreports⟩

/-! ## Independence of the slave -/

/-- `t` is a place on the master's own way from `s`: up to what the master does not depend on, its moves while it is urgent and ticks while it is not. -/
inductive MasterPath : State → State → Prop
  | stay {s t : State} (h : SameMaster s t) : MasterPath s t
  | move {s s' u t : State} (h : SameMaster s s') (hu : masterUrgent s' = true) (hr : s'.master.state = .running)
    (hm : MasterMove s' u) (ht : MasterPath u t) : MasterPath s t
  | tick {s s' t : State} (h : SameMaster s s') (hu : masterUrgent s' = false) (ht : MasterPath (tick s') t) :
    MasterPath s t

section
variable {s s₁ s₂ t t₁ t₂ u : State}

theorem SameMaster.refl (hq : s.cfg.Quiet) : SameMaster s s := ⟨hq, hq, rfl, rfl, fun _ => ⟨rfl, rfl, rfl⟩⟩

theorem MasterPath.from_same (h : SameMaster s₁ s₂) (hp : MasterPath s₂ t) : MasterPath s₁ t := by
  cases hp with
  | stay h' => exact .stay (h.trans h')
  | move h' hu hr hm ht => exact .move (h.trans h') hu hr hm ht
  | tick h' hu ht => exact .tick (h.trans h') hu ht

/-- The tick never goes back. -/
theorem MasterPath.now_le (hp : MasterPath s t) : s.now ≤ t.now := by
  induction hp with
  | stay h => exact h.now.le
  | move h hu hr hm ht ih => exact h.now.trans_le ((MasterAction.move hr hm).edgeHeard.now ▸ ih)
  | tick h hu ht ih => exact h.now.trans_le ((Nat.le_succ _).trans ih)

/-- A path past a tick ends at a later one. -/
theorem MasterPath.now_lt (hp : MasterPath (Machine.tick s) t) : s.now < t.now := hp.now_le

/-- Each step of a quiet machine goes along the path, or stays. -/
theorem MasterPath.step (hq : s.cfg.Quiet) (hc : s.choice.noMasterControl) (hs : step s = .next u)
    (hp : MasterPath u t) : MasterPath s t := by
  rcases master_progress hq hc hs with h | ⟨hu, hr, v, hm, h⟩ | ⟨hu, h⟩
  · exact .from_same h hp
  · exact .move (.refl hq) hu hr hm (.from_same h hp)
  · exact .tick (.refl hq) hu (.from_same h hp)

theorem masterPath_of_runs {k : Nat} (hq : s.cfg.Quiet) (hk : k ≤ s.script.length)
    (hc : ∀ c ∈ s.script.take k, c.noMasterControl) (hruns : Runs k s t) : MasterPath s t := by
  have hkeep := runs_keep_scripted (Inv := fun u => u.cfg.Quiet ∧ ∀ t, MasterPath u t → MasterPath s t)
    (fun v w ⟨hv, hpath⟩ hc hs => ⟨(step_keeps hs).1 ▸ hv, fun t hp => hpath t (hp.step hv hc hs)⟩)
    ⟨hq, fun _ hp => hp⟩ hk hc hruns
  exact hkeep.2 t (.stay (.refl hkeep.1))

/-- The path forks nowhere: two masters that agree still agree at a tick's end. -/
theorem MasterPath.agree (h₁ : MasterPath s₁ t₁) (h₂ : MasterPath s₂ t₂) (h : SameMaster s₁ s₂) (hnow : t₁.now = t₂.now)
    (hu₁ : masterUrgent t₁ = false) (hu₂ : masterUrgent t₂ = false) : SameMaster t₁ t₂ := by
  induction h₁ generalizing s₂ with
  | stay e₁ =>
    have h' := e₁.symm.trans h
    cases h₂ with
    | stay e₂ => exact h'.trans e₂
    | move e₂ hu hr hm ht => simp [← (h'.trans e₂).urgent, hu₁] at hu
    | tick e₂ hu ht => exact absurd hnow ((h'.trans e₂).now.trans_lt ht.now_lt).ne
  | move e₁ hu hr hm ht ih =>
    have h' := e₁.symm.trans h
    cases h₂ with
    | stay e₂ => simp [(h'.trans e₂).urgent, hu₂] at hu
    | move e₂ hu' hr' hm' ht' => exact ih ht' ((h'.trans e₂).move hr hm hm') hnow hu₁
    | tick e₂ hu' ht' => simp [(h'.trans e₂).urgent, hu'] at hu
  | tick e₁ hu ht ih =>
    have h' := e₁.symm.trans h
    cases h₂ with
    | stay e₂ => exact absurd hnow ((h'.trans e₂).now.symm.trans_lt ht.now_lt).ne'
    | move e₂ hu' hr' hm' ht' => simp [(h'.trans e₂).urgent, hu'] at hu
    | tick e₂ hu' ht' => exact ih ht' (h'.trans e₂).tick hnow hu₁

end

/-- Settles O59: both runs follow the master's own path, which does not fork. -/
theorem masterIndependentOfSlave : Obligations.MasterIndependentOfSlave := by
  intro k₁ k₂ s₁ s₂ t₁ t₂ hq₁ hq₂ hr hview hnow htp hlen hmsg hk₁ hc₁ hk₂ hc₂ hruns₁ hruns₂ hnow' hu₁ hu₂
  have hsame : SameMaster s₁ s₂ := ⟨hq₁, hq₂, hview, hnow, fun _ => ⟨htp, hlen, hmsg⟩⟩
  exact ((masterPath_of_runs hq₁ hk₁ hc₁ hruns₁).agree (masterPath_of_runs hq₂ hk₂ hc₂ hruns₂) hsame hnow' hu₁ hu₂).view

end Machine

end Sys2Proof

/-! The slave's edge latch over every action (41_slave.md R160, R161; 10_state.md R47), and the slave's micro-operations, one result each (41_slave.md R163 to R170). -/

namespace Sys2Proof

namespace Machine

section
variable {s u : State} {i : Instr}

/-! ## The edge latch -/

/-- How an action treats the latch: by what it does to CLK, by the slave's STATE and by the latch it finds. -/
inductive LatchEffect (s u : State) : Prop
  /-- No rise of CLK that the slave hears. -/
  | unheard (hc : s.lines.clk = false → u.lines.clk = true → s.slave.state ≠ .running)
    (hv : u.slave = s.slave) (hh : u.history = s.history)
  /-- A rise that a running slave loses. -/
  | lost (hc : s.lines.clk = false) (hu : u.lines.clk = true) (hr : s.slave.state = .running)
    (he : s.slave.edgePend = true) (hv : u.slave = s.slave) (hh : u.history = s.history ++ [.edgeLost s.now])
  /-- A rise that a running slave latches. -/
  | latched (hc : s.lines.clk = false) (hu : u.lines.clk = true) (hr : s.slave.state = .running)
    (he : s.slave.edgePend = false) (hv : u.slave = { s.slave with edgePend := true, edgeT := s.now })
    (hh : u.history = s.history)
  /-- CLK is not driven, and the latch is kept. -/
  | kept (hc : u.lines.clk = s.lines.clk) (hh : u.history = s.history) (ht : u.slave.edgeT = s.slave.edgeT)
    (he : u.slave.edgePend = s.slave.edgePend)
  /-- CLK is not driven, and the slave's own operation or its STOP empties the latch. -/
  | emptied (hc : u.lines.clk = s.lines.clk) (hh : u.history = s.history) (ht : u.slave.edgeT = s.slave.edgeT)
    (he : u.slave.edgePend = false)
    (hby : (s.choice.turn = .slave ∧ s.slave.phase ∈ [0x1#4, 0x3#4]) ∨ s.choice.hostOp = some .hWrSStop)

/-- Of the master's moves only M.CLK_HI raises CLK, by the three cases of the edge detector (41_slave.md R160). -/
theorem MasterAction.latchEffect (ha : MasterAction s u) : LatchEffect s u := by
  cases ha with
  | move hr hm =>
    cases hm with
    | clkHi hp hclk => exact .unheard (fun hc _ => hclk.resolve_left (by simp [hc])) rfl rfl
    | clkHiLost hp hclk hv he => exact .lost hclk rfl hv he rfl rfl
    | clkHiEdge hp hclk hv he => exact .latched hclk rfl hv he rfl rfl
    | clkLo hp => exact .unheard (by simp) rfl rfl
    | _ => exact .kept rfl rfl rfl rfl
  | _ => exact .kept rfl rfl rfl rfl

/-- Of the slave's moves only S.ACQUIRE and the edge completion of S.AWAIT_EDGE write the latch. -/
theorem SlaveAction.latchEffect (ht : s.choice.turn = .slave) (ha : SlaveAction s u) : LatchEffect s u := by
  cases ha with
  | move hr hm =>
    cases hm with
    | acquire hp => exact .emptied rfl rfl rfl rfl (.inl ⟨ht, by simp [hp]⟩)
    | edge hp he => exact .emptied rfl rfl rfl rfl (.inl ⟨ht, by simp [hp]⟩)
    | _ => exact .kept rfl rfl rfl rfl
  | _ => exact .kept rfl rfl rfl rfl

/-- Of the host's operations only the slave's STOP writes the latch (42_host_interface.md R197). -/
theorem HostAction.latchEffect (hi : s.choice.hostOp = some i) (ha : HostAction s i u) : LatchEffect s u := by
  cases ha with
  | stopSlave => exact .emptied rfl rfl rfl rfl (.inr hi)
  | _ => exact .kept rfl rfl rfl rfl

/-- A glitch is no rise of CLK, or one by the three cases of the edge detector (20_memory.md R77). -/
theorem driveLine_latchEffect (l : Line) (v : Bool) (s : State) : LatchEffect s (driveLine l v s) := by
  generalize hd : driveLine l v s = d
  cases hd ▸ driveLine_action s l v with
  | plain h =>
    refine .unheard (fun hc hu => absurd ?_ h) rfl rfl
    cases l with
    | clk => exact ⟨rfl, hc, hu⟩
    | mo | so => simp [Lines.set, hc] at hu
  | unheard hl hc hv hr => exact .unheard (fun _ _ => hr) rfl rfl
  | lost hl hc hv hr he => exact .lost hc rfl hr he rfl rfl
  | edge hl hc hv hr he => exact .latched hc rfl hr he rfl rfl

theorem StepAction.latchEffect (ha : StepAction s u) : LatchEffect s u := by
  cases ha with
  | master ht hm => exact hm.latchEffect
  | slave ht hv => exact hv.latchEffect ht
  | host w ht hh => exact hh.latchEffect (by simp [Choice.hostOp, ht])
  | glitch l v ht hg => exact driveLine_latchEffect l v s
  | _ => exact .kept rfl rfl rfl rfl

/-! ## Fault entry and the entry to a phase -/

/-- A line operation of the slave fails exactly on a drawn failure under IO_FAULTS (20_memory.md R74, R90). -/
theorem unlessIoError_slave (l : Line) (s t : State) : unlessIoError .slave l s t =
    if s.cfg.ioFaults = true ∧ s.choice.fail = true then
      { s with slave.state := .fault, slave.cause := .ioError, slave.fline := some l }
    else t := by
  simp [unlessIoError, ioFails, raise]

/-- The slave's acquisition fails exactly on a drawn failure under SETUP_FAULTS (41_slave.md R165). -/
theorem unlessSetupError_slave (s t : State) : unlessSetupError .slave s t =
    if s.cfg.setupFaults = true ∧ s.choice.fail = true then
      { s with slave.state := .fault, slave.cause := .setupError, slave.fline := some s.choice.failLine }
    else t := by
  simp [unlessSetupError, setupFails, raise]

/-- S.AWAIT_EDGE alone is entered with a load of the timeout counter (10_state.md R41). -/
theorem enterSlave_awaitEdge (s : State) : enterSlave 0x3#4 s =
    { s with slave.phase := 0x3#4
             slave.totimer := if s.tp.edgeWait = 0#32 then 1#32 else s.tp.edgeWait } := rfl

/-- A phase that is neither of the slave's waits is entered without a load of a counter (10_state.md R41). -/
theorem enterSlave_other {p : PhaseCode} (hs : p ≠ 0x7#4) (ha : p ≠ 0x3#4) :
    enterSlave p s = { s with slave.phase := p } := by
  rw [enterSlave, if_neg hs, if_neg ha]

/-- The index below the bit, where the rule states one (41_slave.md R168). -/
theorem bitBelow_toNat {b : BitIndex} (h : b ≠ 0#3) (n : Nat) : (bitBelow b n).toNat + 1 = b.toNat := by
  rw [bitBelow, if_neg h]
  bv_omega

/-- The edge completion is enabled by a full latch of enough age (41_slave.md R163). -/
theorem edgeReady_iff (s : State) :
    edgeReady s = true ↔ s.slave.edgePend = true ∧ s.slave.edgeT + s.cfg.latMin ≤ s.now := by
  simp [edgeReady]

end

/-! ## The statements -/

/-- Settles O10: the two agents that can raise CLK run the edge detector with it, and the others keep the line. -/
theorem edgeLatch : Obligations.EdgeLatch := by
  intro s t hs
  obtain ⟨-, -, u, rfl, ha⟩ := step_action hs
  simp only [advance_lines, advance_slave, advance_history]
  cases ha.latchEffect with
  | unheard hc hv hh =>
    rw [hv, hh]
    exact ⟨fun h0 h1 => by simp [hc h0 h1], fun _ => ⟨rfl, rfl, id, fun h1 h0 => by simp [h1] at h0⟩⟩
  | lost hc hu hr he hv hh =>
    rw [hv, hh]
    exact ⟨fun _ _ => by simp [hr, he], fun hn => absurd ⟨hc, hu⟩ hn⟩
  | latched hc hu hr he hv hh =>
    rw [hv, hh]
    exact ⟨fun _ _ => by simp [hr, he], fun hn => absurd ⟨hc, hu⟩ hn⟩
  | kept hc hh ht he =>
    rw [hc, hh, ht, he]
    exact ⟨fun h0 h1 => by simp [h0] at h1, fun _ => ⟨rfl, rfl, id, fun h1 h0 => by simp [h1] at h0⟩⟩
  | emptied hc hh ht he hby =>
    rw [hc, hh, ht, he]
    exact ⟨fun h0 h1 => by simp [h0] at h1, fun _ => ⟨rfl, rfl, by simp, fun _ _ => hby⟩⟩

/-- Settles O22: an acquisition that does not fail clears the cursor and the latch and enters S.INITIAL. -/
theorem sAcquireResult : Obligations.SAcquireResult := by
  refine ⟨rfl, fun s hr => ?_⟩
  rw [exec, execSAcquire, whileSlave_running hr, unlessSetupError_slave, enterSlave_other (by decide) (by decide)]

/-- Settles O23: a written entry becomes S.TX with its bit 7 on SO, and an unwritten one stops the run before the drive. -/
theorem sInitialResult : Obligations.SInitialResult := by
  refine ⟨rfl, fun s b hr hb => ?_, fun s hr hb => ?_⟩
  · simp only [exec, execSInitial, if_pos hr, bufRead, State.buffer, hb]
    rw [unlessIoError_slave, driveLine_so, enterSlave_awaitEdge]
    rfl
  · simp only [exec, execSInitial, if_pos hr, bufRead, State.buffer, hb]

/-- Settles O24: the drawn completion, guarded by its own condition. -/
theorem sAwaitEdgeResult : Obligations.SAwaitEdgeResult := by
  refine ⟨rfl, fun s hr => ⟨fun hc => ?_, fun hc => ?_⟩⟩
  · rw [exec, execSAwaitEdge, whileSlave_running hr, hc]
    simp only [edgeCompletion, edgeReady_iff]
    rw [unlessIoError_slave, enterSlave_other (by decide) (by decide)]
  · rw [exec, execSAwaitEdge, whileSlave_running hr, hc]
    simp only [timeoutCompletion]
    rw [unlessIoError_slave, enterSlave_other (by decide) (by decide)]

/-- Settles O25: a retry is the entry to S.AWAIT_EDGE. -/
theorem sRetryResult : Obligations.SRetryResult := by
  refine ⟨rfl, fun s hr => ?_⟩
  rw [exec, execSRetry, whileSlave_running hr, enterSlave_awaitEdge]

/-- Settles O26: the byte is S.RX with the bit inserted, and bit 0 is the last. -/
theorem sSampleResult : Obligations.SSampleResult := by
  refine ⟨rfl, fun s hr => ⟨setByteBit s.slave.rx s.slave.bit s.lines.mo, ?_⟩⟩
  obtain ⟨hbit, hothers⟩ := setByteBit_getLsbD s.slave.rx s.slave.bit s.lines.mo
  refine ⟨hbit, hothers, ?_⟩
  rw [exec, execSSample, whileSlave_running hr, unlessIoError_slave,
    enterSlave_other (by split <;> decide) (by split <;> decide)]
  rfl

/-- Settles O27: the index is the one below the bit, and S.STABILIZE loads TP.STABILIZE. -/
theorem sDriveNextResult : Obligations.SDriveNextResult := by
  refine ⟨rfl, fun s hr => ⟨bitBelow s.slave.bit s.seq, fun hb => bitBelow_toNat hb _, ?_⟩⟩
  rw [exec, execSDriveNext, whileSlave_running hr, unlessIoError_slave, driveLine_so]
  rfl

/-- Settles O28: a wait that is over enters S.AWAIT_EDGE, and one that is not does nothing, whether the slave runs or not. -/
theorem sStabilizeResult : Obligations.SStabilizeResult := by
  refine ⟨rfl, fun s => ⟨fun hr h0 => ?_, fun h0 => ?_⟩⟩
  · rw [exec, execSStabilize, whileSlave_running hr, if_pos h0, enterSlave_awaitEdge]
  · simp [exec, execSStabilize, whileSlave, h0]

/-- Settles O29: the report is emitted at the old cursor, and the cursor moves on modulo the length. -/
theorem sByteCompleteResult : Obligations.SByteCompleteResult := by
  refine ⟨rfl, fun s hr => ⟨cursorNext s.slave.cursor s.slave.replyLen, fun hn => cursorNext_toNat hn, ?_⟩⟩
  rw [exec, execSByteComplete, whileSlave_running hr, enterSlave_other (by decide) (by decide)]
  rfl

end Machine

end Sys2Proof

/-! What the host's operations return, write and leave unchanged (42_host_interface.md R190 to R208; 20_memory.md R83). -/

namespace Sys2Proof

namespace Machine

section
variable {s u : State} {i : Instr}

/-! ## Reads -/

/-- A read returns the word at its address and changes nothing else (20_memory.md R83; log 8). -/
theorem exec_hRd {a : HostAddr} {v : Word} (h : hostRead a s = v) :
    exec (.hRd a) s = .next { s with rdata := v } := by
  rw [← h]
  rfl

theorem hostRead_misaligned {a : HostAddr} (h : a.toNat % 4 ≠ 0) : hostRead a s = 0#32 := by
  rw [hostRead, if_pos (by rw [Bool.not_eq_true', ← Bool.not_eq_true, addrAligned_iff]; exact h)]

/-- The derived periods are those of the number TP.BIT_PERIOD (10_state.md R49). -/
theorem quarter_eq_ofNat (tp : Timing) : tp.quarter = BitVec.ofNat 32 (tp.bitPeriod.toNat / 4) := by
  rw [← quarter_toNat, BitVec.ofNat_toNat, BitVec.setWidth_eq]

theorem half_eq_ofNat (tp : Timing) : tp.half = BitVec.ofNat 32 (tp.bitPeriod.toNat / 2) := by
  rw [← half_toNat, BitVec.ofNat_toNat, BitVec.setWidth_eq]

theorem linesWord_eq_ofNat (l : Lines) :
    linesWord l = BitVec.ofNat 32 (4 * l.so.toNat + 2 * l.mo.toNat + l.clk.toNat) := by
  obtain ⟨clk, mo, so⟩ := l
  cases clk <;> cases mo <;> cases so <;> rfl

/-- A host read of a written entry returns its byte (log 5). -/
theorem bufHostRead_written {e : Engine} {n : Nat} {b : Byte} (h : (s.buffer e).read n = some b) :
    bufHostRead e n s = b := by
  rw [bufHostRead, h]
  rfl

theorem hostRead_msg_entry {n : Nat} (hn : n < s.cfg.msgCap) (hw : n < 1024) :
    hostRead (BitVec.ofNat 16 (0x1000 + 4 * n)) s = (bufHostRead .master n s).setWidth 32 := by
  have hindex : (BitVec.ofNat 10 n).toNat = n := Nat.mod_eq_of_lt hw
  rw [← msgAddr_ofNat hw, hostRead_msgAddr, hindex, if_pos hn]

theorem hostRead_reply_entry {n : Nat} (hn : n < s.cfg.replyCap) (hw : n < 1024) :
    hostRead (BitVec.ofNat 16 (0x2000 + 4 * n)) s = (bufHostRead .slave n s).setWidth 32 := by
  have hindex : (BitVec.ofNat 10 n).toNat = n := Nat.mod_eq_of_lt hw
  rw [← replyAddr_ofNat hw, hostRead_replyAddr, hindex, if_pos hn]

/-- An address in a window whose index is below the capacity, by number. -/
theorem entry_below_iff (a : HostAddr) (k : BitVec 4) (cap : Nat) :
    (addrWindow a = k ∧ (addrIndex a).toNat < cap) ↔
      0x1000 * k.toNat ≤ a.toNat ∧ a.toNat < 0x1000 * (k.toNat + 1) ∧ (a.toNat - 0x1000 * k.toNat) / 4 < cap := by
  rw [addrWindow_iff, addrIndex_toNat]
  omega

/-- An address of no register and of no entry below a capacity reads as 0 (R191). -/
theorem hostRead_elsewhere {a : HostAddr}
    (hreg : a ∉ [0x0004#16, 0x0104#16, 0x0008#16, 0x000C#16, 0x0010#16, 0x0014#16, 0x0108#16, 0x010C#16, 0x0110#16,
      0x0114#16, 0x0200#16, 0x0204#16, 0x0208#16, 0x020C#16, 0x0210#16, 0x0214#16, 0x0300#16])
    (hmsg : ¬ (addrWindow a = 1#4 ∧ (addrIndex a).toNat < s.cfg.msgCap))
    (hreply : ¬ (addrWindow a = 2#4 ∧ (addrIndex a).toNat < s.cfg.replyCap)) : hostRead a s = 0#32 := by
  simp only [List.mem_cons, List.not_mem_nil, or_false, not_or] at hreg
  simp only [hostRead, hreg, hmsg, hreply, if_false, ite_self]

/-! ## The status words -/

/-- A field of a word, by number. -/
theorem extractLsb'_eq_of_toNat {w : Word} {start len : Nat} {v : BitVec len}
    (h : w.toNat / 2 ^ start % 2 ^ len = v.toNat) : w.extractLsb' start len = v := by
  apply BitVec.eq_of_toNat_eq
  rw [BitVec.extractLsb'_toNat, Nat.shiftRight_eq_div_pow, h]

theorem extractLsb'_eq_zero_of_toNat {w : Word} {start len : Nat} (h : w.toNat / 2 ^ start % 2 ^ len = 0) :
    w.extractLsb' start len = 0#len :=
  extractLsb'_eq_of_toNat (h.trans (Nat.zero_mod _).symm)

/-- A concatenation as a sum. -/
theorem toNat_append_eq_add {n k : Nat} (x : BitVec n) (y : BitVec k) :
    (x ++ y).toNat = 2 ^ k * x.toNat + y.toNat := by
  rw [BitVec.toNat_append, ← Nat.shiftLeft_add_eq_or_of_lt y.isLt, Nat.shiftLeft_eq, Nat.mul_comm]

/-- The common layout as a sum of its fields, each at its place (R192). -/
theorem statusWord_toNat (fline cause : BitVec 2) (bit : BitIndex) (phase : PhaseCode) (state : BitVec 2) :
    (statusWord fline cause bit phase state).toNat = 2 ^ 16 * fline.toNat + 2 ^ 12 * cause.toNat + 2 ^ 8 * bit.toNat +
      2 ^ 4 * phase.toNat + state.toNat := by
  simp only [statusWord, BitVec.toNat_setWidth, toNat_append_eq_add, BitVec.toNat_ofNat]
  omega

/-- M_STATUS has nothing above the common layout. -/
theorem masterStatus_toNat (m : Master) : (masterStatus m).toNat = 2 ^ 16 * (flineCode m.fline).toNat +
    2 ^ 12 * (causeCode m.cause).toNat + 2 ^ 8 * m.bit.toNat + 2 ^ 4 * m.phase.toNat + (mStateCode m.state).toNat :=
  statusWord_toNat _ _ _ _ _

/-- S_STATUS has the latch at bit 20, above the common layout. -/
theorem slaveStatus_toNat (v : Slave) : (slaveStatus v).toNat = 2 ^ 20 * v.edgePend.toNat +
    2 ^ 16 * (flineCode v.fline).toNat + 2 ^ 12 * (causeCode v.cause).toNat + 2 ^ 8 * v.bit.toNat +
    2 ^ 4 * v.phase.toNat + (sStateCode v.state).toNat := by
  have hlow := statusWord_toNat (flineCode v.fline) (causeCode v.cause) v.bit v.phase (sStateCode v.state)
  have hpend : ((BitVec.ofBool v.edgePend).setWidth 32 <<< 20 : Word).toNat = v.edgePend.toNat <<< 20 := by
    cases v.edgePend <;> rfl
  rw [slaveStatus, BitVec.toNat_or, hpend, Nat.or_comm, ← Nat.shiftLeft_add_eq_or_of_lt (by omega), hlow,
    Nat.shiftLeft_eq]
  omega

/-- The fields of a word whose low 18 bits are the common layout (R192). -/
structure StatusFields (w : Word) (fline cause : BitVec 2) (bit : BitIndex) (phase : PhaseCode) (state : BitVec 2) :
    Prop where
  state : w.extractLsb' 0 2 = state
  zero2 : w.extractLsb' 2 2 = 0#2
  phase : w.extractLsb' 4 4 = phase
  bit : w.extractLsb' 8 3 = bit
  zero11 : w.extractLsb' 11 1 = 0#1
  cause : w.extractLsb' 12 2 = cause
  zero14 : w.extractLsb' 14 2 = 0#2
  fline : w.extractLsb' 16 2 = fline

/-- Whatever stands above them, the low 18 bits of a status word have the fields of the common layout. -/
theorem statusFields_of_toNat {w : Word} {fline cause : BitVec 2} {bit : BitIndex} {phase : PhaseCode}
    {state : BitVec 2} {high : Nat} (h : w.toNat = 2 ^ 20 * high + 2 ^ 16 * fline.toNat + 2 ^ 12 * cause.toNat +
      2 ^ 8 * bit.toNat + 2 ^ 4 * phase.toNat + state.toNat) : StatusFields w fline cause bit phase state := by
  refine ⟨extractLsb'_eq_of_toNat ?_, extractLsb'_eq_zero_of_toNat ?_, extractLsb'_eq_of_toNat ?_,
    extractLsb'_eq_of_toNat ?_, extractLsb'_eq_zero_of_toNat ?_, extractLsb'_eq_of_toNat ?_,
    extractLsb'_eq_zero_of_toNat ?_, extractLsb'_eq_of_toNat ?_⟩
  all_goals
    rw [h]
    omega

/-- The value of FLINE by the line (10_state.md R31, R38). -/
theorem flineCode_eq (f : Option Line) :
    flineCode f = match f with | some .clk => 0#2 | some .mo => 1#2 | some .so => 2#2 | none => 3#2 := by
  rcases f with _ | _ | _ | _ <;> rfl

/-! ## Writes -/

theorem word_ne_zero_iff (w : Word) : w ≠ 0#32 ↔ 1 ≤ w.toNat :=
  ⟨word_pos_of_ne_zero, fun h h0 => by simp [h0] at h⟩

theorem msgAddr_eq_ofNat (j : BitVec 10) : msgAddr j = BitVec.ofNat 16 (0x1000 + 4 * j.toNat) := by
  rw [← msgAddr_toNat, BitVec.ofNat_toNat, BitVec.setWidth_eq]

theorem replyAddr_eq_ofNat (j : BitVec 10) : replyAddr j = BitVec.ofNat 16 (0x2000 + 4 * j.toNat) := by
  rw [← replyAddr_toNat, BitVec.ofNat_toNat, BitVec.setWidth_eq]

/-- A write to a buffer as its reads see it: the entry written, every other one, and the canonical form. -/
theorem memory_write_spec (m : Memory) (n : Nat) (v : Byte) : (m.write n v).read n = some v ∧
    (∀ a, a ≠ n → (m.write n v).read a = m.read a) ∧ (m.wf = true → (m.write n v).wf = true) :=
  ⟨memory_read_write_same m n v, fun a ha => memory_read_write_other m n a v ha, memory_wf_write n v⟩

theorem tpWritable_iff (s : State) : tpWritable s = true ↔ s.master.state ≠ .running ∧ s.slave.state ≠ .running := by
  simp [tpWritable]

/-! ## What a host operation leaves unchanged -/

/-- Only a read writes `rdata`, and no host operation writes a line, a parameter or the order of actions (R208). -/
theorem HostAction.outside_frame (ha : HostAction s i u) (hi : ∀ a, i ≠ .hRd a) :
    u.rdata = s.rdata ∧ u.lines = s.lines ∧ u.cfg = s.cfg ∧ u.script = s.script ∧ u.seq = s.seq := by
  cases ha with
  | read a => exact absurd rfl (hi a)
  | _ => exact ⟨rfl, rfl, rfl, rfl, rfl⟩

/-- No host operation writes a transfer register or the time of a latched edge (R190). -/
theorem HostAction.transfer_frame (ha : HostAction s i u) :
    (u.master.bit = s.master.bit ∧ u.master.cursor = s.master.cursor ∧ u.master.tx = s.master.tx ∧
      u.master.rx = s.master.rx) ∧
    u.slave.bit = s.slave.bit ∧ u.slave.cursor = s.slave.cursor ∧ u.slave.tx = s.slave.tx ∧
      u.slave.rx = s.slave.rx ∧ u.slave.edgeT = s.slave.edgeT := by
  cases ha <;> exact ⟨⟨rfl, rfl, rfl, rfl⟩, rfl, rfl, rfl, rfl, rfl⟩

/-- Only START and STOP of the master write its control registers. -/
theorem HostAction.master_frame (ha : HostAction s i u) (hi : i ∉ [.hWrMStop, .hWrMStart]) :
    u.master.state = s.master.state ∧ u.master.phase = s.master.phase ∧ u.master.cause = s.master.cause ∧
      u.master.fline = s.master.fline ∧ u.master.timer = s.master.timer := by
  cases ha with
  | stopMaster => simp at hi
  | startMaster h => simp at hi
  | _ => exact ⟨rfl, rfl, rfl, rfl, rfl⟩

/-- Only START and STOP of the slave write its control registers and its latch. -/
theorem HostAction.slave_frame (ha : HostAction s i u) (hi : i ∉ [.hWrSStop, .hWrSStart]) :
    u.slave.state = s.slave.state ∧ u.slave.phase = s.slave.phase ∧ u.slave.cause = s.slave.cause ∧
      u.slave.fline = s.slave.fline ∧ u.slave.timer = s.slave.timer ∧ u.slave.totimer = s.slave.totimer ∧
      u.slave.edgePend = s.slave.edgePend := by
  cases ha with
  | stopSlave => simp at hi
  | startSlave h hl => simp at hi
  | _ => exact ⟨rfl, rfl, rfl, rfl, rfl, rfl, rfl⟩

/-- A length has one operation that writes it. -/
theorem HostAction.length_frame (ha : HostAction s i u) :
    ((∀ n, i ≠ .hWrMMsgLen n) → u.master.msgLen = s.master.msgLen) ∧
    ((∀ n, i ≠ .hWrSReplyLen n) → u.slave.replyLen = s.slave.replyLen) := by
  cases ha with
  | msgLen n h hn => exact ⟨fun hi => absurd rfl (hi n), fun _ => rfl⟩
  | replyLen n h hn => exact ⟨fun _ => rfl, fun hi => absurd rfl (hi n)⟩
  | _ => exact ⟨fun _ => rfl, fun _ => rfl⟩

/-- A message entry is written only by the write at its own index (R200). -/
theorem HostAction.msg_frame (ha : HostAction s i u) {a : Nat}
    (hi : ∀ (j : BitVec 10) v, i = .hWrMMsg j v → a ≠ j.toNat) : u.master.msg.read a = s.master.msg.read a := by
  cases ha with
  | msg j v h hj => exact memory_read_write_other _ _ _ v (hi j v rfl)
  | _ => rfl

/-- A reply entry is written only by the write at its own index (R202). -/
theorem HostAction.reply_frame (ha : HostAction s i u) {a : Nat}
    (hi : ∀ (j : BitVec 10) v, i = .hWrSReply j v → a ≠ j.toNat) : u.slave.reply.read a = s.slave.reply.read a := by
  cases ha with
  | reply j v h hj => exact memory_read_write_other _ _ _ v (hi j v rfl)
  | _ => rfl

/-- Each register of the timing policy has one operation that writes it (R204 to R207). -/
theorem HostAction.timing_frame (ha : HostAction s i u) :
    ((∀ x, i ≠ .hWrTpBitPeriod x) → u.tp.bitPeriod = s.tp.bitPeriod) ∧
    ((∀ x, i ≠ .hWrTpSampleSettle x) → u.tp.sampleSettle = s.tp.sampleSettle) ∧
    ((∀ x, i ≠ .hWrTpStabilize x) → u.tp.stabilize = s.tp.stabilize) ∧
    ((∀ x, i ≠ .hWrTpEdgeWait x) → u.tp.edgeWait = s.tp.edgeWait) := by
  cases ha with
  | bitPeriod x hm hv => exact ⟨fun hi => absurd rfl (hi x), fun _ => rfl, fun _ => rfl, fun _ => rfl⟩
  | sampleSettle x hm hv => exact ⟨fun _ => rfl, fun hi => absurd rfl (hi x), fun _ => rfl, fun _ => rfl⟩
  | stabilize x hm hv => exact ⟨fun _ => rfl, fun _ => rfl, fun hi => absurd rfl (hi x), fun _ => rfl⟩
  | edgeWait x hm hv => exact ⟨fun _ => rfl, fun _ => rfl, fun _ => rfl, fun hi => absurd rfl (hi x)⟩
  | _ => exact ⟨fun _ => rfl, fun _ => rfl, fun _ => rfl, fun _ => rfl⟩

end

/-! ## The statements -/

/-- Settles O30: the registers by definition, the entries by their index, and 0 elsewhere. -/
theorem readResults : Obligations.ReadResults := by
  refine ⟨fun _ => rfl, fun s => ⟨fun a => ⟨_, exec_hRd rfl⟩, fun a ha => exec_hRd (hostRead_misaligned ha), ?_,
    rfl, rfl, rfl, rfl, rfl, rfl, rfl, rfl, rfl, exec_hRd (quarter_eq_ofNat s.tp), exec_hRd (half_eq_ofNat s.tp),
    rfl, rfl, rfl, exec_hRd (linesWord_eq_ofNat s.lines), ?_, ?_, ?_⟩⟩
  · simp only [List.forall_mem_cons, List.not_mem_nil, false_imp_iff, implies_true, and_true]
    exact ⟨rfl, rfl⟩
  · exact fun n hn hw => ⟨_, fun b hb => bufHostRead_written (e := .master) hb, exec_hRd (hostRead_msg_entry hn hw)⟩
  · exact fun n hn hw => ⟨_, fun b hb => bufHostRead_written (e := .slave) hb, exec_hRd (hostRead_reply_entry hn hw)⟩
  · intro a hreg hmsg hreply
    exact exec_hRd (hostRead_elsewhere hreg (mt (entry_below_iff a 1#4 _).1 hmsg)
      (mt (entry_below_iff a 2#4 _).1 hreply))

/-- Settles O31: both words have the fields of the common layout, and above them only the slave's latch. -/
theorem statusWords : Obligations.StatusWords := by
  intro s
  constructor
  · have hsum := masterStatus_toNat s.master
    have hw := statusFields_of_toNat (high := 0) (by rw [hsum, Nat.mul_zero, Nat.zero_add])
    exact ⟨masterStatus s.master, rfl, hw.state, hw.zero2, hw.phase, hw.bit, hw.zero11, hw.cause, hw.zero14,
      hw.fline.trans (flineCode_eq _), extractLsb'_eq_zero_of_toNat (by rw [hsum]; omega)⟩
  · have hsum := slaveStatus_toNat s.slave
    have hpend : (BitVec.ofBool s.slave.edgePend).toNat = s.slave.edgePend.toNat := BitVec.toNat_ofBool _
    have hw := statusFields_of_toNat hsum
    exact ⟨slaveStatus s.slave, rfl, hw.state, hw.zero2, hw.phase, hw.bit, hw.zero11, hw.cause, hw.zero14,
      hw.fline.trans (flineCode_eq _), extractLsb'_eq_zero_of_toNat (by rw [hsum]; omega),
      extractLsb'_eq_of_toNat (by rw [hsum, hpend]; omega), extractLsb'_eq_zero_of_toNat (by rw [hsum]; omega)⟩

/-- Settles O32: a START that is taken enters M.ACQUIRE, which loads no counter. -/
theorem mStartResult : Obligations.MStartResult := by
  refine ⟨rfl, fun s => ?_⟩
  rw [exec, execHWrMStart, enterMaster_other (by decide)]

/-- Settles O33: STOP has no condition. -/
theorem mStopResult : Obligations.MStopResult := ⟨rfl, fun _ => rfl⟩

/-- Settles O34: a START that is taken enters S.ACQUIRE, which loads no counter. -/
theorem sStartResult : Obligations.SStartResult := by
  refine ⟨rfl, fun s => ?_⟩
  rw [exec, execHWrSStart, enterSlave_other (by decide) (by decide)]
  simp only [word_ne_zero_iff]

/-- Settles O35: STOP has no condition. -/
theorem sStopResult : Obligations.SStopResult := ⟨rfl, fun _ => rfl⟩

/-- Settles O36: the two guards stand in the operations. -/
theorem lengthWriteResults : Obligations.LengthWriteResults :=
  ⟨fun _ => ⟨rfl, rfl⟩, fun _ _ => ⟨rfl, rfl⟩⟩

/-- Settles O37: a write that is taken is one `Memory.write` at the entry's index. -/
theorem bufferWriteResults : Obligations.BufferWriteResults := by
  refine ⟨fun j v => ⟨?_, ?_⟩, fun j v s => ⟨fun hr hj => ?_, fun hn => ?_, fun hr hj => ?_, fun hn => ?_⟩⟩
  · rw [encode, writeOf, msgAddr_eq_ofNat]
  · rw [encode, writeOf, replyAddr_eq_ofNat]
  · exact ⟨_, by rw [exec, execHWrMMsg, if_pos ⟨hr, hj⟩], memory_write_spec s.master.msg j.toNat v⟩
  · rw [exec, execHWrMMsg, if_neg hn]
  · exact ⟨_, by rw [exec, execHWrSReply, if_pos ⟨hr, hj⟩], memory_write_spec s.slave.reply j.toNat v⟩
  · rw [exec, execHWrSReply, if_neg hn]

/-- Settles O38: the four writes have one guard. -/
theorem timingWriteResults : Obligations.TimingWriteResults := by
  refine ⟨fun _ => ⟨rfl, rfl, rfl, rfl⟩, fun x s => ⟨fun hm hv => ?_, fun hrunning => ?_⟩⟩
  · have hw : tpWritable s = true := (tpWritable_iff s).2 ⟨hm, hv⟩
    simp only [exec, execHWrTpBitPeriod, execHWrTpSampleSettle, execHWrTpStabilize, execHWrTpEdgeWait, if_pos hw,
      and_self]
  · have hw : ¬ tpWritable s = true := fun h => by
      obtain ⟨hm, hv⟩ := (tpWritable_iff s).1 h
      exact hrunning.elim hm hv
    simp only [exec, execHWrTpBitPeriod, execHWrTpSampleSettle, execHWrTpStabilize, execHWrTpEdgeWait, if_neg hw,
      and_self]

/-- Settles O39: the two kinds of writes are what row 14 of R108 takes, and its operation does nothing. -/
theorem ignoredWriteResult : Obligations.IgnoredWriteResult := by
  refine ⟨fun _ _ _ => rfl, fun a d s h => ⟨decode_writeOf ⟨rfl, rfl, (isIgnoredWrite_iff a d).2 ?_⟩, rfl⟩⟩
  rcases h with ⟨hreg, hentry⟩ | ⟨hctrl, h0, h1⟩
  · simp only [List.mem_cons, List.not_mem_nil, or_false, not_or] at hreg ⊢
    obtain ⟨hm, hs, hothers⟩ := hreg
    exact ⟨fun hc => hc.1.elim hm hs, hothers, hentry⟩
  · refine ⟨fun hc => by simp only [h0, h1, Bool.false_eq_true, or_self, and_false] at hc, ?_⟩
    simp only [List.mem_cons, List.not_mem_nil, or_false] at hctrl
    rcases hctrl with rfl | rfl <;> decide

/-- Settles O48: a host operation has a next state, and each part of the state has its own frame. -/
theorem hostFrame : Obligations.HostFrame := by
  refine ⟨fun a s => ⟨_, exec_hRd rfl⟩, fun i s hi hread => ?_⟩
  obtain ⟨u, hu, ha⟩ := host_action i s hi
  obtain ⟨hrdata, hlines, hcfg, hscript, hseq⟩ := ha.outside_frame hread
  obtain ⟨hnow, hhistory, hmreports, hsreports⟩ := ha.frame
  obtain ⟨⟨hmbit, hmcursor, hmtx, hmrx⟩, hsbit, hscursor, hstx, hsrx, hedgeT⟩ := ha.transfer_frame
  obtain ⟨hmsgLen, hreplyLen⟩ := ha.length_frame
  exact ⟨u, hu, hrdata, hnow, hlines, hhistory, hcfg, hscript, hseq, hmbit, hmcursor, hmtx, hmrx, hmreports,
    hsbit, hscursor, hstx, hsrx, hedgeT, hsreports, ha.master_frame, ha.slave_frame, hmsgLen, hreplyLen,
    fun _ h => ha.msg_frame h, fun _ h => ha.reply_frame h, ha.timing_frame⟩

end Machine

end Sys2Proof

/-! Exceptions (60_exceptions.md R231 to R236): which action enters a fault and what it writes, and what a fault holds until the engine's STOP. -/

namespace Sys2Proof

namespace Machine

section
variable {s u : State} {i : Instr} {k : Cause} {l : Line}

/-! ## Fault entry -/

/-- An acquisition fails only under SETUP_FAULTS and by the draw (20_memory.md R90 d). -/
theorem setupFails_iff (s : State) : setupFails s = true ↔ s.cfg.setupFaults = true ∧ s.choice.fail = true :=
  Bool.and_eq_true_iff

/-- A line operation fails only under IO_FAULTS and by the draw (20_memory.md R90 c). -/
theorem ioFails_iff (s : State) : ioFails s = true ↔ s.cfg.ioFaults = true ∧ s.choice.fail = true :=
  Bool.and_eq_true_iff

/-- The master's rows of R232: the phase, its parameter, the cause and the line. -/
def MasterRaises (s : State) (k : Cause) (l : Line) : Prop :=
  (s.master.phase = 0x1#4 ∧ s.cfg.setupFaults = true ∧ k = .setupError ∧ l = s.choice.failLine) ∨
  (s.master.phase = 0x3#4 ∧ s.cfg.ioFaults = true ∧ k = .ioError ∧ l = .mo) ∨
  (s.master.phase ∈ [0x5#4, 0x7#4] ∧ s.cfg.ioFaults = true ∧ k = .ioError ∧ l = .clk) ∨
  (s.master.phase = 0xA#4 ∧ s.cfg.ioFaults = true ∧ k = .ioError ∧ l = .so)

/-- The slave's rows of R232. -/
def SlaveRaises (s : State) (k : Cause) (l : Line) : Prop :=
  (s.slave.phase = 0x1#4 ∧ s.cfg.setupFaults = true ∧ k = .setupError ∧ l = s.choice.failLine) ∨
  (s.slave.phase ∈ [0x2#4, 0x6#4] ∧ s.cfg.ioFaults = true ∧ k = .ioError ∧ l = .so) ∨
  (s.slave.phase = 0x3#4 ∧ s.cfg.ioFaults = true ∧ k = .ioError ∧ l = .clk) ∨
  (s.slave.phase = 0x5#4 ∧ s.cfg.ioFaults = true ∧ k = .ioError ∧ l = .mo)

/-- A line operation of the master that fails names its own line. -/
theorem MasterIoLine.raises (hl : MasterIoLine s.master.phase l) (hio : s.cfg.ioFaults = true) :
    MasterRaises s .ioError l := by
  rcases hl with ⟨hp, rfl⟩ | ⟨hp, rfl⟩ | ⟨hp, rfl⟩ | ⟨hp, rfl⟩ <;> simp [MasterRaises, hp, hio]

theorem SlaveIoLine.raises (hl : SlaveIoLine s.slave.phase l) (hio : s.cfg.ioFaults = true) :
    SlaveRaises s .ioError l := by
  rcases hl with ⟨hp, rfl⟩ | ⟨hp, rfl⟩ | ⟨hp, rfl⟩ | ⟨hp, rfl⟩ <;> simp [SlaveRaises, hp, hio]

/-- Every row of R232 asks for one of the two fault parameters. -/
theorem MasterRaises.parameter (h : MasterRaises s k l) : s.cfg.setupFaults = true ∨ s.cfg.ioFaults = true := by
  rcases h with ⟨-, h, -⟩ | ⟨-, h, -⟩ | ⟨-, h, -⟩ | ⟨-, h, -⟩
  · exact .inl h
  all_goals exact .inr h

theorem SlaveRaises.parameter (h : SlaveRaises s k l) : s.cfg.setupFaults = true ∨ s.cfg.ioFaults = true := by
  rcases h with ⟨-, h, -⟩ | ⟨-, h, -⟩ | ⟨-, h, -⟩ | ⟨-, h, -⟩
  · exact .inl h
  all_goals exact .inr h

/-- A move of the master goes on or ends the session; it never faults (10_state.md R32). -/
theorem MasterMove.not_fault (hm : MasterMove s u) (hn : s.master.state ≠ .fault) : u.master.state ≠ .fault := by
  cases hm with
  | acquireEmpty | lastReport => simp
  | _ => exact hn

/-- A move of the slave goes on (41_slave.md R173). -/
theorem SlaveMove.not_fault (hm : SlaveMove s u) (hn : s.slave.state ≠ .fault) : u.slave.state ≠ .fault := by
  cases hm <;> exact hn

/-- The master's own action enters a fault by `raise` at a row of R232 and in no other way (R233). -/
theorem MasterAction.fault_entry (ha : MasterAction s u) (hn : s.master.state ≠ .fault)
    (hf : u.master.state = .fault) : s.master.state = .running ∧ s.choice.fail = true ∧
      ∃ k l, MasterRaises s k l ∧ u = raise .master k l s := by
  cases ha with
  | nothing => exact absurd hf hn
  | setupError hr hp hfail =>
    obtain ⟨hsetup, hdraw⟩ := (setupFails_iff s).1 hfail
    exact ⟨hr, hdraw, _, _, .inl ⟨hp, hsetup, rfl, rfl⟩, rfl⟩
  | ioError hr l hl hfail =>
    obtain ⟨hio, hdraw⟩ := (ioFails_iff s).1 hfail
    exact ⟨hr, hdraw, _, _, hl.raises hio, rfl⟩
  | move hr hm => exact absurd hf (hm.not_fault hn)

/-- The slave's own action enters a fault by `raise` at a row of R232 and in no other way (R233). -/
theorem SlaveAction.fault_entry (ha : SlaveAction s u) (hn : s.slave.state ≠ .fault)
    (hf : u.slave.state = .fault) : s.slave.state = .running ∧ s.choice.fail = true ∧
      ∃ k l, SlaveRaises s k l ∧ u = raise .slave k l s := by
  cases ha with
  | nothing => exact absurd hf hn
  | setupError hr hp hfail =>
    obtain ⟨hsetup, hdraw⟩ := (setupFails_iff s).1 hfail
    exact ⟨hr, hdraw, _, _, .inl ⟨hp, hsetup, rfl, rfl⟩, rfl⟩
  | ioError hr l hl hfail =>
    obtain ⟨hio, hdraw⟩ := (ioFails_iff s).1 hfail
    exact ⟨hr, hdraw, _, _, hl.raises hio, rfl⟩
  | move hr hm => exact absurd hf (hm.not_fault hn)

/-- The host puts no engine into FAULT: a START runs it and a STOP leaves it IDLE (42_host_interface.md R190). -/
theorem HostAction.not_fault (ha : HostAction s i u) : (s.master.state ≠ .fault → u.master.state ≠ .fault) ∧
    (s.slave.state ≠ .fault → u.slave.state ≠ .fault) := by
  cases ha with
  | stopMaster | startMaster => exact ⟨by simp, id⟩
  | stopSlave | startSlave => exact ⟨id, by simp⟩
  | _ => exact ⟨id, id⟩

/-- Only the master itself takes the master into FAULT. -/
theorem StepAction.master_faulter (ha : StepAction s u) (hn : s.master.state ≠ .fault)
    (hf : u.master.state = .fault) : s.choice.turn = .master ∧ MasterAction s u := by
  rcases ha.master_mover with hown | ⟨i, -, hh⟩ | ⟨hkept, -⟩
  · exact hown
  · exact absurd hf (hh.not_fault.1 hn)
  · exact absurd (hkept.symm.trans hf) hn

/-- Only the slave itself takes the slave into FAULT. -/
theorem StepAction.slave_faulter (ha : StepAction s u) (hn : s.slave.state ≠ .fault)
    (hf : u.slave.state = .fault) : s.choice.turn = .slave ∧ SlaveAction s u := by
  rcases ha.slave_mover with hown | ⟨i, -, hh⟩ | ⟨hkept, -⟩
  · exact hown
  · exact absurd hf (hh.not_fault.2 hn)
  · exact absurd (hkept.symm.trans hf) hn

/-! ## A fault stays -/

/-- A master that does not run has no action (20_memory.md R87). -/
theorem MasterAction.stopped (ha : MasterAction s u) (hs : s.master.state ≠ .running) : u = s := by
  cases ha with
  | nothing => rfl
  | setupError hr | ioError hr | move hr => exact absurd hr hs

/-- A slave that does not run has no action (20_memory.md R87). -/
theorem SlaveAction.stopped (ha : SlaveAction s u) (hs : s.slave.state ≠ .running) : u = s := by
  cases ha with
  | nothing => rfl
  | setupError hr | ioError hr | move hr => exact absurd hr hs

/-- The master drives no SO (10_state.md R31). -/
theorem MasterAction.so_kept (ha : MasterAction s u) : u.lines.so = s.lines.so := by
  cases ha with
  | move hr hm => cases hm <;> rfl
  | _ => rfl

/-- The slave drives no line but SO (10_state.md R31). -/
theorem SlaveAction.clk_mo_kept (ha : SlaveAction s u) : u.lines.clk = s.lines.clk ∧ u.lines.mo = s.lines.mo := by
  cases ha with
  | move hr hm => cases hm <;> exact ⟨rfl, rfl⟩
  | _ => exact ⟨rfl, rfl⟩

/-- A slave that does not run hears no edge (41_slave.md R160). -/
theorem EdgeHeard.slave_stopped (he : EdgeHeard s u) (hs : s.slave.state ≠ .running) : u.slave = s.slave :=
  he.slave.resolve_right fun ⟨hr, _⟩ => hs hr

/-- The counters of an engine that does not run do not count (20_memory.md R89). -/
theorem tick_master_stopped (hs : s.master.state ≠ .running) : (tick s).master = s.master := by
  simp [tick, hs]

theorem tick_slave_stopped (hs : s.slave.state ≠ .running) : (tick s).slave = s.slave := by
  simp [tick, hs]

/-- From `s` to `u` the master held its registers but those that the host writes, and without glitches its lines (R235, R236). -/
structure MasterHeld (s u : State) : Prop where
  registers : u.master = { s.master with msgLen := u.master.msgLen, msg := u.master.msg }
  lines : s.cfg.lineGlitch = false → u.lines.clk = s.lines.clk ∧ u.lines.mo = s.lines.mo

/-- From `s` to `u` the slave held its registers but those that the host writes, and without glitches its line (R235, R236). -/
structure SlaveHeld (s u : State) : Prop where
  registers : u.slave = { s.slave with replyLen := u.slave.replyLen, reply := u.slave.reply }
  line : s.cfg.lineGlitch = false → u.lines.so = s.lines.so

theorem MasterHeld.of_master_eq (hm : u.master = s.master)
    (hlines : s.cfg.lineGlitch = false → u.lines.clk = s.lines.clk ∧ u.lines.mo = s.lines.mo) : MasterHeld s u :=
  ⟨by rw [hm], hlines⟩

theorem SlaveHeld.of_slave_eq (hv : u.slave = s.slave)
    (hline : s.cfg.lineGlitch = false → u.lines.so = s.lines.so) : SlaveHeld s u :=
  ⟨by rw [hv], hline⟩

/-- Of the host's operations only STOP reaches a master in FAULT beyond its length and its buffer (R236). -/
theorem HostAction.master_fault_held (ha : HostAction s i u) (hf : s.master.state = .fault) :
    (i = .hWrMStop ∧ u = Machine.stopMaster s) ∨ MasterHeld s u := by
  cases ha with
  | stopMaster => exact .inl ⟨rfl, rfl⟩
  | startMaster hs => simp [hf] at hs
  | _ => exact .inr ⟨rfl, fun _ => ⟨rfl, rfl⟩⟩

/-- Of the host's operations only STOP reaches a slave in FAULT beyond its length and its buffer (R236). -/
theorem HostAction.slave_fault_held (ha : HostAction s i u) (hf : s.slave.state = .fault) :
    (i = .hWrSStop ∧ u = Machine.stopSlave s) ∨ SlaveHeld s u := by
  cases ha with
  | stopSlave => exact .inl ⟨rfl, rfl⟩
  | startSlave hs hl => simp [hf] at hs
  | _ => exact .inr ⟨rfl, fun _ => rfl⟩

/-- Whoever acts, a master in FAULT holds, but for its STOP. -/
theorem StepAction.master_fault_held (ha : StepAction s u) (hf : s.master.state = .fault) :
    (s.choice.hostOp = some .hWrMStop ∧ u = stopMaster s) ∨ MasterHeld s u := by
  have hs : s.master.state ≠ .running := by simp [hf]
  cases ha with
  | master ht hm =>
    rw [hm.stopped hs]
    exact .inr (.of_master_eq rfl fun _ => ⟨rfl, rfl⟩)
  | slave ht hv => exact .inr (.of_master_eq hv.frame.1 fun _ => hv.clk_mo_kept)
  | host w ht hh => exact (hh.master_fault_held hf).imp_left fun ⟨hi, hu⟩ => ⟨by simp [Choice.hostOp, ht, hi], hu⟩
  | time ht hm hv => exact .inr (.of_master_eq (tick_master_stopped hs) fun _ => ⟨rfl, rfl⟩)
  | glitch l v ht hg => exact .inr (.of_master_eq (driveLine_master l v s) (by simp [hg]))
  | _ => exact .inr (.of_master_eq rfl fun _ => ⟨rfl, rfl⟩)

/-- Whoever acts, a slave in FAULT holds, but for its STOP. -/
theorem StepAction.slave_fault_held (ha : StepAction s u) (hf : s.slave.state = .fault) :
    (s.choice.hostOp = some .hWrSStop ∧ u = stopSlave s) ∨ SlaveHeld s u := by
  have hs : s.slave.state ≠ .running := by simp [hf]
  cases ha with
  | master ht hm => exact .inr (.of_slave_eq (hm.edgeHeard.slave_stopped hs) fun _ => hm.so_kept)
  | slave ht hv =>
    rw [hv.stopped hs]
    exact .inr (.of_slave_eq rfl fun _ => rfl)
  | host w ht hh => exact (hh.slave_fault_held hf).imp_left fun ⟨hi, hu⟩ => ⟨by simp [Choice.hostOp, ht, hi], hu⟩
  | time ht hm hv => exact .inr (.of_slave_eq (tick_slave_stopped hs) fun _ => rfl)
  | glitch l v ht hg =>
    exact .inr (.of_slave_eq ((driveLine_edgeHeard l v s).slave_stopped hs) (by simp [hg]))
  | _ => exact .inr (.of_slave_eq rfl fun _ => rfl)

end

/-! ## The statements -/

/-- Settles O49: only the engine itself takes it into FAULT, and its action does so by `raise` at a row of R232. -/
theorem faultEntry : Obligations.FaultEntry := by
  intro s t hs
  obtain ⟨-, -, u, rfl, ha⟩ := step_action hs
  refine ⟨fun hn hf => ?_, fun hn hf => ?_⟩
  · obtain ⟨ht, hm⟩ := ha.master_faulter hn hf
    obtain ⟨hr, hdraw, k, l, hrow, rfl⟩ := hm.fault_entry hn hf
    exact ⟨ht, hr, hdraw, k, l, hrow, rfl⟩
  · obtain ⟨ht, hv⟩ := ha.slave_faulter hn hf
    obtain ⟨hr, hdraw, k, l, hrow, rfl⟩ := hv.fault_entry hn hf
    exact ⟨ht, hr, hdraw, k, l, hrow, rfl⟩

/-- Settles O50: an engine in FAULT has no action, counts nothing and hears no edge, and of the host it takes STOP and writes to its length and buffer only. -/
theorem faultSticky : Obligations.FaultSticky := by
  intro s t hs
  obtain ⟨-, -, u, rfl, ha⟩ := step_action hs
  refine ⟨fun hf => ?_, fun hf => ?_⟩
  · rcases ha.master_fault_held hf with ⟨hstop, rfl⟩ | hheld
    · exact .inl ⟨hstop, rfl, rfl, rfl⟩
    · exact .inr ⟨hheld.registers, hheld.lines⟩
  · rcases ha.slave_fault_held hf with ⟨hstop, rfl⟩ | hheld
    · exact .inl ⟨hstop, rfl, rfl, rfl⟩
    · exact .inr ⟨hheld.registers, hheld.line⟩

/-- Both fault parameters are false (60_exceptions.md R232). -/
def NoFaultParameter (p : Params) : Prop := ¬ (p.setupFaults = true ∨ p.ioFaults = true)

/-- Without a fault parameter no step takes the master into FAULT, since every row of R232 asks for one. -/
theorem step_master_not_fault {s t : State} (hp : NoFaultParameter s.cfg) (hn : s.master.state ≠ .fault)
    (hs : step s = .next t) : t.master.state ≠ .fault := by
  intro hf
  obtain ⟨-, -, -, k, l, hrow, -⟩ := (faultEntry s t hs).1 hn hf
  exact hp (MasterRaises.parameter hrow)

theorem step_slave_not_fault {s t : State} (hp : NoFaultParameter s.cfg) (hn : s.slave.state ≠ .fault)
    (hs : step s = .next t) : t.slave.state ≠ .fault := by
  intro hf
  obtain ⟨-, -, -, k, l, hrow, -⟩ := (faultEntry s t hs).2 hn hf
  exact hp (SlaveRaises.parameter hrow)

/-- Settles O52: no step changes the parameters, so each engine's freedom from FAULT is kept along the run. -/
theorem noFaultWithoutParameters : Obligations.NoFaultWithoutParameters := by
  intro k s t hsetup hio hruns
  have hp : NoFaultParameter s.cfg := by simp [NoFaultParameter, hsetup, hio]
  have hcfg : t.cfg = s.cfg :=
    runs_keep (Inv := (·.cfg = s.cfg)) (fun x y hx hstep => (step_keeps hstep).1.trans hx) rfl hruns
  refine ⟨hcfg, fun hm => ?_, fun hv => ?_⟩
  · exact (runs_keep (Inv := fun x => NoFaultParameter x.cfg ∧ x.master.state ≠ .fault)
      (fun x y ⟨hx, hn⟩ hstep => ⟨(step_keeps hstep).1 ▸ hx, step_master_not_fault hx hn hstep⟩) ⟨hp, hm⟩ hruns).2
  · exact (runs_keep (Inv := fun x => NoFaultParameter x.cfg ∧ x.slave.state ≠ .fault)
      (fun x y ⟨hx, hn⟩ hstep => ⟨(step_keeps hstep).1 ▸ hx, step_slave_not_fault hx hn hstep⟩) ⟨hp, hv⟩ hruns).2

end Machine

end Sys2Proof

/-! The timing contract (70_reset_and_hazards.md R274): a session under its premises is linked, every step keeps it so, and a linked state has the reports of K1 and K2. -/

namespace Sys2Proof

namespace Machine

namespace Contract

/-- Since its start at `s0` the session has kept the two engines linked, by some numbers of bytes that each has done. -/
def Linked (msg reply : List Byte) (c0 x : Nat) (s0 s : State) : Prop :=
  ∃ c k, Link msg reply c0 (s0.master.reports.map Report.body) (s0.slave.reports.map Report.body) s0.history x c k s

section
variable {msg reply : List Byte} {c0 x : Nat} {s0 s t : State}

/-- A session starts linked, with no byte done, for the latency bound of P5. -/
theorem exists_linked_of_start (h : ContractStart s msg reply c0) : ∃ x, Linked msg reply c0 x s s :=
  let ⟨x, hlink⟩ := link_start h
  ⟨x, 0, 0, hlink⟩

theorem Linked.step (h : Linked msg reply c0 x s0 s) (hc : s.choice.noControl) (hs : step s = .next t) :
    Linked msg reply c0 x s0 t := by
  obtain ⟨c, k, hlink⟩ := h
  exact link_step hlink hc hs

/-- The master's first byte has been loaded, so there is one. -/
theorem msg_length_pos_of_start (h : ContractStart s msg reply c0) : 0 < msg.length := by
  obtain ⟨hpos, -⟩ := List.getElem?_eq_some_iff.1 h.master_tx.symm
  exact hpos

end

end Contract

/-- Settles O60: every step without START and STOP keeps the session linked, and the link holds the reports, their order and, at DONE, K3. -/
theorem timingContract : Obligations.TimingContract := by
  intro k s t msg reply c0 hstart hk hc hruns
  obtain ⟨x, hbegin⟩ := Contract.exists_linked_of_start hstart
  obtain ⟨m, v, hlink⟩ := runs_keep_scripted (fun _ _ h hc hs => h.step hc hs) hbegin hk hc hruns
  obtain ⟨hmv, hvn⟩ := hlink.counts
  refine ⟨m, v, hmv, hvn, hlink.mreports, hlink.vreports, hlink.history, hlink.v.run, ?_⟩
  rcases hlink.m.live with ⟨hrunning, -⟩ | ⟨hdone, -⟩
  · exact .inl hrunning
  · exact .inr ⟨hdone, hlink.at_done (Contract.msg_length_pos_of_start hstart) hdone⟩

end Machine

end Sys2Proof

/-! Reset (70_reset_and_hazards.md R260, R261): what every piece of state holds, and the invariants that hold there. -/

namespace Sys2Proof

namespace Machine

/-! ## The reset values -/

theorem masterStatus_reset : masterStatus Master.reset = 0x00030000#32 := by decide

theorem slaveStatus_reset : slaveStatus Slave.reset = 0x00030000#32 := by decide

theorem linesWord_low : linesWord ⟨false, false, false⟩ = 0#32 := by decide

/-- Settles O40: the registers by definition, the derived periods by their rule, and the two status words by their layout. -/
theorem resetValues : Obligations.ResetValues := by
  refine ⟨rfl, fun p => ?_⟩
  exact ⟨rfl, rfl, rfl, rfl, rfl, rfl, rfl, rfl, rfl, rfl, rfl, memory_read_nil,
    rfl, rfl, rfl, rfl, rfl, rfl, rfl, rfl, rfl, rfl, rfl, memory_read_nil, rfl, rfl,
    rfl, quarter_toNat _, half_toNat _, rfl, rfl, rfl,
    exec_hRd masterStatus_reset, exec_hRd slaveStatus_reset, exec_hRd linesWord_low⟩

/-! ## The invariants at reset -/

/-- An IDLE master at phase 0, with no fault recorded and an empty message, is legal under any parameters. -/
theorem master_reset_legal (cfg : Params) : Master.Legal cfg Master.reset := by
  constructor <;> simp [Master.reset]

/-- An IDLE slave at phase 0, with no fault recorded, an empty latch and an empty reply, is legal under any parameters. -/
theorem slave_reset_legal (cfg : Params) : Slave.Legal cfg 0 Slave.reset := by
  constructor <;> simp [Slave.reset]

theorem reset_legal (p : Params) : (State.resetWith p).Legal where
  master := master_reset_legal p
  slave := slave_reset_legal p
  master_reports := List.forall_mem_nil _
  slave_reports := List.forall_mem_nil _
  history := List.forall_mem_nil _

/-- A stopped engine's lines are free, and neither engine runs at reset. -/
theorem reset_linesDriven (p : Params) : (State.resetWith p).LinesDriven := by
  constructor <;> exact fun h => nomatch h

/-- Both lengths are 0 at reset. -/
theorem reset_entriesWritten (p : Params) : (State.resetWith p).EntriesWritten :=
  ⟨fun i hi => absurd hi (Nat.not_lt_zero i), fun i hi => absurd hi (Nat.not_lt_zero i)⟩

/-- Settles O42: both engines are IDLE, and no report, no event and no entry in use is there to ask anything of. -/
theorem resetIsLegal : Obligations.ResetIsLegal :=
  fun p => ⟨reset_legal p, reset_linesDriven p, reset_entriesWritten p⟩

end Machine

end Sys2Proof

/-! What a host reads after its own write (70_reset_and_hazards.md R270; 20_memory.md R83). -/

namespace Sys2Proof

namespace Machine

section
variable {s t : State} {j : BitVec 10}

/-! ## Reads of written entries -/

/-- A written entry that was kept reads as before (log 5). -/
theorem bufHostRead_kept {e : Engine} {n : Nat} (hread : (t.buffer e).read n = (s.buffer e).read n)
    (hw : (s.buffer e).read n ≠ none) : bufHostRead e n t = bufHostRead e n s := by
  obtain ⟨b, hb⟩ := Option.ne_none_iff_exists'.1 hw
  rw [bufHostRead_written (hread.trans hb), bufHostRead_written hb]

theorem hostRead_msgAddr_written {b : Byte} (hj : j.toNat < s.cfg.msgCap) (hb : s.master.msg.read j.toNat = some b) :
    hostRead (msgAddr j) s = b.setWidth 32 := by
  rw [hostRead_msgAddr, if_pos hj, bufHostRead_written (e := .master) hb]

theorem hostRead_replyAddr_written {b : Byte} (hj : j.toNat < s.cfg.replyCap)
    (hb : s.slave.reply.read j.toNat = some b) : hostRead (replyAddr j) s = b.setWidth 32 := by
  rw [hostRead_replyAddr, if_pos hj, bufHostRead_written (e := .slave) hb]

theorem hostRead_msgAddr_kept (hcfg : t.cfg = s.cfg) (hread : t.master.msg.read j.toNat = s.master.msg.read j.toNat)
    (hw : s.master.msg.read j.toNat ≠ none) : hostRead (msgAddr j) t = hostRead (msgAddr j) s := by
  rw [hostRead_msgAddr, hostRead_msgAddr, hcfg, bufHostRead_kept (e := .master) hread hw]

theorem hostRead_replyAddr_kept (hcfg : t.cfg = s.cfg)
    (hread : t.slave.reply.read j.toNat = s.slave.reply.read j.toNat) (hw : s.slave.reply.read j.toNat ≠ none) :
    hostRead (replyAddr j) t = hostRead (replyAddr j) s := by
  rw [hostRead_replyAddr, hostRead_replyAddr, hcfg, bufHostRead_kept (e := .slave) hread hw]

end

/-! ## The reads after a write that is taken -/

theorem msg_reads_back {s : State} {i : BitVec 10} (hr : s.master.state ≠ .running) (hi : i.toNat < s.cfg.msgCap)
    (j : BitVec 10) (v : Byte) : ∃ t, exec (.hWrMMsg i v) s = .next t ∧ hostRead (msgAddr i) t = v.setWidth 32 ∧
      (j ≠ i → s.master.msg.read j.toNat ≠ none → hostRead (msgAddr j) t = hostRead (msgAddr j) s) ∧
      (s.slave.reply.read j.toNat ≠ none → hostRead (replyAddr j) t = hostRead (replyAddr j) s) := by
  obtain ⟨hwrite, -⟩ := bufferWriteResults.2 i v s
  obtain ⟨m, hexec, hsame, hother, -⟩ := hwrite hr hi
  exact ⟨_, hexec, hostRead_msgAddr_written hi hsame,
    fun hne hw => hostRead_msgAddr_kept rfl (hother _ (mt BitVec.eq_of_toNat_eq hne)) hw,
    fun hw => hostRead_replyAddr_kept rfl rfl hw⟩

theorem reply_reads_back {s : State} {i : BitVec 10} (hr : s.slave.state ≠ .running) (hi : i.toNat < s.cfg.replyCap)
    (j : BitVec 10) (v : Byte) : ∃ t, exec (.hWrSReply i v) s = .next t ∧ hostRead (replyAddr i) t = v.setWidth 32 ∧
      (j ≠ i → s.slave.reply.read j.toNat ≠ none → hostRead (replyAddr j) t = hostRead (replyAddr j) s) ∧
      (s.master.msg.read j.toNat ≠ none → hostRead (msgAddr j) t = hostRead (msgAddr j) s) := by
  obtain ⟨-, -, hwrite, -⟩ := bufferWriteResults.2 i v s
  obtain ⟨m, hexec, hsame, hother, -⟩ := hwrite hr hi
  exact ⟨_, hexec, hostRead_replyAddr_written hi hsame,
    fun hne hw => hostRead_replyAddr_kept rfl (hother _ (mt BitVec.eq_of_toNat_eq hne)) hw,
    fun hw => hostRead_msgAddr_kept rfl rfl hw⟩

/-- Settles O55: a buffer by its entries, a length and a timing register by the register, and TP.QUARTER and TP.HALF by their rule. -/
theorem hostReadsBack : Obligations.HostReadsBack := by
  refine fun s => ⟨fun hm => ⟨fun i j v hi => msg_reads_back hm hi j v, fun n hn => ?_⟩,
    fun hv => ⟨fun i j v hi => reply_reads_back hv hi j v, fun n hn => ?_⟩, fun hm hv x => ?_⟩
  · obtain ⟨hexec, -⟩ := lengthWriteResults.2 n s
    exact ⟨_, hexec.trans (by rw [if_pos ⟨hm, hn⟩]), rfl⟩
  · obtain ⟨-, hexec⟩ := lengthWriteResults.2 n s
    exact ⟨_, hexec.trans (by rw [if_pos ⟨hv, hn⟩]), rfl⟩
  · obtain ⟨hperiod, hsettle, hstabilize, hwait⟩ := (timingWriteResults.2 x s).1 hm hv
    exact ⟨⟨_, hperiod, rfl, quarter_toNat _, half_toNat _⟩, ⟨_, hsettle, rfl⟩, ⟨_, hstabilize, rfl⟩, ⟨_, hwait, rfl⟩⟩

end Machine

end Sys2Proof
